-- ==== Sys2Proof/Word.lean ====
section
/-! DEFINITION. The three bit-vector widths of the machine: a byte of memory or of the instruction
stream (R50, R80), an address (R5 `ADDR_BITS`), a register slot (R5 `REG_BITS`). -/

namespace Sys2Proof

/-- One byte of memory or of the instruction stream (R50: the addressable unit is 8 bits). -/
abbrev Byte := BitVec 8

/-- A 32-bit address as held in `ip`, `sp`, `fp`, `bp` and in address operands (R85, R57). -/
abbrev Addr := BitVec 32

/-- A 64-bit register slot (R22); also the carrier of a typed value's pattern, zero-extended (R8). -/
abbrev Word := BitVec 64

/-- `zext_64` of an address (R9). -/
def zextAddr (a : Addr) : Word := a.setWidth 64

end Sys2Proof
end

