-- ==== Sys2Proof/Config.lean ====
section
/-! DEFINITION. The implementation parameters of R5: the fixed ones with their values, the memory size
and initial byte that `State.reset` stands for, and the one free value (`nan_add`). -/

namespace Sys2Proof

/-- `MEM_SIZE` of the machine that `State.reset` stands for. OPEN in R5; 256 is the source's example.
Every other definition takes the size from the state, and every statement quantifies over it.
DESIGN CHOICE, log entry 1. -/
def Config.memSize : Nat := 256

/-- R5, D19: the sizes a machine may be constructed with. -/
def Config.minMemSize : Nat := 8

/-- R5, D19: the largest size a 4-byte address can reach. -/
def Config.maxMemSize : Nat := 4294967296

/-- What an address that memory does not list reads as. The initial contents themselves are the
parameter `MEM_INIT` of construction (`State.construct`); `State.reset` lists nothing.
DESIGN CHOICE, log entry 2. -/
def Config.unlistedByte : Byte := 0

/-- R89, D4: the opcode byte of TAILCALL. The parameter is fixed at its default. DESIGN CHOICE, log
entry 7. -/
def Config.opcTailcall : Byte := 0x61

/-- R5 `FRAME_CONST`, D6: what pushState adds to the frame-byte counter in the size field. -/
def Config.frameConst : Word := 8

/-- R171, R177: bytes of a frame, and the smallest size field RET accepts. -/
def Config.frameBytes : Nat := 80

/-- The free value `nan_add` for `float` (R144, D16, U8): the sign and the trailing significand less
one of the NaN that an addition of these two binary32 patterns returns. Every binary32 NaN is one
such pair and every such pair is a binary32 NaN, so nothing but "some NaN" is known of it.
Log entry 5. -/
opaque Config.nanAdd32 : BitVec 32 → BitVec 32 → Bool × Fin 8388607

/-- The free value `nan_add` for `double` (R144, D16, U8), as `Config.nanAdd32`. Log entry 5. -/
opaque Config.nanAdd64 : BitVec 64 → BitVec 64 → Bool × Fin 4503599627370495

end Sys2Proof
end

