-- ==== Sys2Proof/Syntax.lean ====
section
/-! DEFINITION. The abstract syntax: the ten scalar types (R7), the thirteen registers (R21) and the
fourteen instructions (R88), one constructor per row of the opcode table. -/

namespace Sys2Proof

/-- R7: the ten scalar types. -/
inductive ScalarType where
  | ubyte | uword | uint | ulong
  | byte | word | int | long
  | float | double
  deriving DecidableEq, Repr

/-- R7: `K(t)`. -/
inductive Kind where
  | unsigned | signed | floating
  deriving DecidableEq, Repr

/-- R7: `W(t)`, the width in bytes. -/
def ScalarType.width : ScalarType → Nat
  | .ubyte => 1
  | .uword => 2
  | .uint => 4
  | .ulong => 8
  | .byte => 1
  | .word => 2
  | .int => 4
  | .long => 8
  | .float => 4
  | .double => 8

/-- R7: `K(t)`. -/
def ScalarType.kind : ScalarType → Kind
  | .ubyte => .unsigned
  | .uword => .unsigned
  | .uint => .unsigned
  | .ulong => .unsigned
  | .byte => .signed
  | .word => .signed
  | .int => .signed
  | .long => .signed
  | .float => .floating
  | .double => .floating

/-- R7: every type, in the table's order. -/
def ScalarType.all : List ScalarType :=
  [.ubyte, .uword, .uint, .ulong, .byte, .word, .int, .long, .float, .double]

/-- R21: the thirteen registers. -/
inductive Reg where
  | ip | acc
  | r1 | r2 | r3 | r4 | r5 | r6 | r7 | r8
  | sp | fp | bp
  deriving DecidableEq, Repr

/-- R21: every register, in index order. -/
def Reg.all : List Reg :=
  [.ip, .acc, .r1, .r2, .r3, .r4, .r5, .r6, .r7, .r8, .sp, .fp, .bp]

/-- R88: the fourteen instructions. Operands stand in stream order (R82). A literal is its pattern,
zero-extended to a slot (R84); that it fits the type is `Instr.wellFormed`. -/
inductive Instr where
  /-- R118. -/
  | hlt
  /-- R131. -/
  | movLitReg (t : ScalarType) (lit : Word) (dst : Reg)
  /-- R132. -/
  | movRegReg (t : ScalarType) (src dst : Reg)
  /-- R133. -/
  | movRegMem (t : ScalarType) (src : Reg) (addr : Addr)
  /-- R134. -/
  | movMemReg (t : ScalarType) (addr : Addr) (dst : Reg)
  /-- R141. -/
  | addRegReg (t : ScalarType) (src1 src2 : Reg)
  /-- R150. -/
  | jmpNotEq (t : ScalarType) (lit : Word) (target : Addr)
  /-- R163. -/
  | pshLit (t : ScalarType) (lit : Word)
  /-- R164. -/
  | pshReg (t : ScalarType) (src : Reg)
  /-- R165. -/
  | pop (t : ScalarType) (dst : Reg)
  /-- R174. -/
  | calLit (target : Addr)
  /-- R175. -/
  | calReg (target : Reg)
  /-- R177. -/
  | ret
  /-- R176. -/
  | tailcall
  deriving DecidableEq, Repr

end Sys2Proof
end

