-- ==== Sys2Proof/WellFormed.lean ====
section
/-! DEFINITION. Which instruction terms stand for instructions: a literal fits its type (R84). Every
type is legal with every typed opcode (R92), every register in every selector (R25) and every 32-bit
address in every address operand (R85), so nothing else is checked. -/

namespace Sys2Proof

/-- R84: the literal is a pattern of width `8*W(t)`. -/
def ScalarType.fits (t : ScalarType) (lit : Word) : Bool :=
  decide (lit.toNat < 2 ^ (8 * t.width))

/-- The terms that some bytes decode to. -/
def Instr.wellFormed : Instr → Bool
  | .hlt => true
  | .movLitReg t lit _ => t.fits lit
  | .movRegReg _ _ _ => true
  | .movRegMem _ _ _ => true
  | .movMemReg _ _ _ => true
  | .addRegReg _ _ _ => true
  | .jmpNotEq t lit _ => t.fits lit
  | .pshLit t lit => t.fits lit
  | .pshReg _ _ => true
  | .pop _ _ => true
  | .calLit _ => true
  | .calReg _ => true
  | .ret => true
  | .tailcall => true

end Sys2Proof
end

