-- ==== Sys2Proof/Decode.lean ====
section
/-! DEFINITION. Byte order (R52), the opcode map (R88), the type-tag table (R86), the register
selector (R87), the decoder (R80 to R93), and after it the encoder. The decoder is written over a
function that fetches the field of `n` bytes at offset `off` from the opcode byte, so that one text
serves a list of bytes and the machine's memory (Machine/Step.lean), where each field has a range
check of its own (R112, R195). -/

namespace Sys2Proof

/-! ## Byte order -/

/-- R52: the number that bytes at increasing addresses spell, most significant byte first. -/
def beValueFrom : Nat → List Byte → Nat
  | acc, [] => acc
  | acc, b :: bs => beValueFrom (acc * 256 + b.toNat) bs

/-- R52, R53: the big-endian value of a list of bytes. -/
def beValue (bs : List Byte) : Nat := beValueFrom 0 bs

/-- R52, R54: the low `n` bytes of `v`, most significant first. -/
def beBytes : Nat → Nat → List Byte
  | 0, _ => []
  | n + 1, v => BitVec.ofNat 8 (v / 256 ^ n) :: beBytes n v

/-! ## Type tags, register selectors, opcodes -/

/-- R86: the tag byte of a type. -/
def ScalarType.tag : ScalarType → Byte
  | .ubyte => 0x01
  | .uword => 0x02
  | .uint => 0x03
  | .ulong => 0x04
  | .byte => 0x05
  | .word => 0x06
  | .int => 0x07
  | .long => 0x08
  | .float => 0x09
  | .double => 0x10

/-- R86, R91: the type a tag byte selects; none for the 246 unassigned values. -/
def ScalarType.ofTag (b : Byte) : Option ScalarType :=
  ScalarType.all.find? (fun t => t.tag == b)

/-- R21: the index of a register, its canonical selector. -/
def Reg.index : Reg → Nat
  | .ip => 0
  | .acc => 1
  | .r1 => 2
  | .r2 => 3
  | .r3 => 4
  | .r4 => 5
  | .r5 => 6
  | .r6 => 7
  | .r7 => 8
  | .r8 => 9
  | .sp => 10
  | .fp => 11
  | .bp => 12

/-- R26, R87: a selector byte selects the register with index `b mod 13`. -/
def Reg.ofSelector (b : Byte) : Reg :=
  Reg.all.getD (b.toNat % 13) .ip

/-- R87: the canonical selector of a register. -/
def Reg.selector (r : Reg) : Byte := BitVec.ofNat 8 r.index

/-- The fourteen opcodes of R88, by name. -/
inductive Opcode where
  | hlt | movLitReg | movRegReg | movRegMem | movMemReg | addRegReg | jmpNotEq
  | pshLit | pshReg | pop | calLit | calReg | ret | tailcall
  deriving DecidableEq, Repr

/-- Every opcode, in the order of R88. -/
def Opcode.all : List Opcode :=
  [.hlt, .movLitReg, .movRegReg, .movRegMem, .movMemReg, .addRegReg, .jmpNotEq,
   .pshLit, .pshReg, .pop, .calLit, .calReg, .ret, .tailcall]

/-- R88: the opcode byte. -/
def Opcode.byte : Opcode → Byte
  | .hlt => 0x00
  | .movLitReg => 0x10
  | .movRegReg => 0x11
  | .movRegMem => 0x12
  | .movMemReg => 0x13
  | .addRegReg => 0x14
  | .jmpNotEq => 0x15
  | .pshLit => 0x17
  | .pshReg => 0x18
  | .pop => 0x1A
  | .calLit => 0x5E
  | .calReg => 0x5F
  | .ret => 0x60
  | .tailcall => Config.opcTailcall

/-- R88, R90, R117: the opcode a byte selects; none for the 242 unassigned values. -/
def Opcode.ofByte (b : Byte) : Option Opcode :=
  Opcode.all.find? (fun op => op.byte == b)

/-! ## The decoder -/

/-- Why no instruction is decoded. -/
inductive DecodeError where
  /-- R90: the opcode byte is unassigned. -/
  | unknownOpcode (b : Byte)
  /-- R91: the type-tag byte, at offset 1, is unassigned. -/
  | unknownTypeTag (b : Byte)
  /-- R112: the field of `n` bytes at offset `off` does not lie in the bytes there are. -/
  | truncated (off n : Nat)
  deriving DecidableEq, Repr

/-- R112: one operand field, as its big-endian value. -/
def fetchField (fetch : Nat → Nat → Option Nat) (off n : Nat) : Except DecodeError Nat :=
  match fetch off n with
  | some v => .ok v
  | none => .error (.truncated off n)

/-- R113: the type tag, directly after the opcode byte (R81). -/
def fetchType (fetch : Nat → Nat → Option Nat) : Except DecodeError ScalarType := do
  let v ← fetchField fetch 1 1
  match ScalarType.ofTag (BitVec.ofNat 8 v) with
  | some t => .ok t
  | none => .error (.unknownTypeTag (BitVec.ofNat 8 v))

/-- R114, R84: a literal of type `t`. -/
def fetchLit (fetch : Nat → Nat → Option Nat) (off : Nat) (t : ScalarType) :
    Except DecodeError Word := do
  let v ← fetchField fetch off t.width
  .ok (BitVec.ofNat 64 v)

/-- R114, R85: an address operand. -/
def fetchAddr (fetch : Nat → Nat → Option Nat) (off : Nat) : Except DecodeError Addr := do
  let v ← fetchField fetch off 4
  .ok (BitVec.ofNat 32 v)

/-- R115, R87: a register selector. -/
def fetchReg (fetch : Nat → Nat → Option Nat) (off : Nat) : Except DecodeError Reg := do
  let v ← fetchField fetch off 1
  .ok (Reg.ofSelector (BitVec.ofNat 8 v))

/-- R82: the operand fields of each opcode, fetched in stream order (R116). -/
def decodeOperands (fetch : Nat → Nat → Option Nat) : Opcode → Except DecodeError Instr
  | .hlt => .ok .hlt
  | .movLitReg => do
    let t ← fetchType fetch
    let lit ← fetchLit fetch 2 t
    let d ← fetchReg fetch (2 + t.width)
    .ok (.movLitReg t lit d)
  | .movRegReg => do
    let t ← fetchType fetch
    let s ← fetchReg fetch 2
    let d ← fetchReg fetch 3
    .ok (.movRegReg t s d)
  | .movRegMem => do
    let t ← fetchType fetch
    let s ← fetchReg fetch 2
    let a ← fetchAddr fetch 3
    .ok (.movRegMem t s a)
  | .movMemReg => do
    let t ← fetchType fetch
    let a ← fetchAddr fetch 2
    let d ← fetchReg fetch 6
    .ok (.movMemReg t a d)
  | .addRegReg => do
    let t ← fetchType fetch
    let s1 ← fetchReg fetch 2
    let s2 ← fetchReg fetch 3
    .ok (.addRegReg t s1 s2)
  | .jmpNotEq => do
    let t ← fetchType fetch
    let lit ← fetchLit fetch 2 t
    let a ← fetchAddr fetch (2 + t.width)
    .ok (.jmpNotEq t lit a)
  | .pshLit => do
    let t ← fetchType fetch
    let lit ← fetchLit fetch 2 t
    .ok (.pshLit t lit)
  | .pshReg => do
    let t ← fetchType fetch
    let s ← fetchReg fetch 2
    .ok (.pshReg t s)
  | .pop => do
    let t ← fetchType fetch
    let d ← fetchReg fetch 2
    .ok (.pop t d)
  | .calLit => do
    let a ← fetchAddr fetch 1
    .ok (.calLit a)
  | .calReg => do
    let s ← fetchReg fetch 1
    .ok (.calReg s)
  | .ret => .ok .ret
  | .tailcall => .ok .tailcall

/-- R110, R117: fetch the opcode byte, dispatch on all of it, fetch the operand fields. -/
def decodeWith (fetch : Nat → Nat → Option Nat) : Except DecodeError Instr := do
  let v ← fetchField fetch 0 1
  match Opcode.ofByte (BitVec.ofNat 8 v) with
  | some op => decodeOperands fetch op
  | none => .error (.unknownOpcode (BitVec.ofNat 8 v))

/-- A field of a list of bytes; none where it runs off the end. -/
def fieldOfBytes (bs : List Byte) (off n : Nat) : Option Nat :=
  if off + n ≤ bs.length then some (beValue ((bs.drop off).take n)) else none

/-- The instruction that a list of bytes begins with. -/
def decodeBytes (bs : List Byte) : Except DecodeError Instr :=
  decodeWith (fieldOfBytes bs)

/-! ## The encoder -/

/-- R88: the opcode of an instruction. -/
def Instr.opcode : Instr → Opcode
  | .hlt => .hlt
  | .movLitReg _ _ _ => .movLitReg
  | .movRegReg _ _ _ => .movRegReg
  | .movRegMem _ _ _ => .movRegMem
  | .movMemReg _ _ _ => .movMemReg
  | .addRegReg _ _ _ => .addRegReg
  | .jmpNotEq _ _ _ => .jmpNotEq
  | .pshLit _ _ => .pshLit
  | .pshReg _ _ => .pshReg
  | .pop _ _ => .pop
  | .calLit _ => .calLit
  | .calReg _ => .calReg
  | .ret => .ret
  | .tailcall => .tailcall

/-- R82: the length in bytes. -/
def Instr.length : Instr → Nat
  | .hlt => 1
  | .movLitReg t _ _ => 3 + t.width
  | .movRegReg _ _ _ => 4
  | .movRegMem _ _ _ => 7
  | .movMemReg _ _ _ => 7
  | .addRegReg _ _ _ => 4
  | .jmpNotEq t _ _ => 6 + t.width
  | .pshLit t _ => 2 + t.width
  | .pshReg _ _ => 3
  | .pop _ _ => 3
  | .calLit _ => 5
  | .calReg _ => 2
  | .ret => 1
  | .tailcall => 1

/-- R84: the bytes of a literal. -/
def litBytes (t : ScalarType) (lit : Word) : List Byte := beBytes t.width lit.toNat

/-- R85: the bytes of an address operand. -/
def addrBytes (a : Addr) : List Byte := beBytes 4 a.toNat

/-- R82: the operand bytes, in stream order, registers by their canonical selectors (R87). -/
def Instr.operandBytes : Instr → List Byte
  | .hlt => []
  | .movLitReg t lit d => t.tag :: (litBytes t lit ++ [d.selector])
  | .movRegReg t s d => [t.tag, s.selector, d.selector]
  | .movRegMem t s a => t.tag :: s.selector :: addrBytes a
  | .movMemReg t a d => t.tag :: (addrBytes a ++ [d.selector])
  | .addRegReg t s1 s2 => [t.tag, s1.selector, s2.selector]
  | .jmpNotEq t lit a => t.tag :: (litBytes t lit ++ addrBytes a)
  | .pshLit t lit => t.tag :: litBytes t lit
  | .pshReg t s => [t.tag, s.selector]
  | .pop t d => [t.tag, d.selector]
  | .calLit a => addrBytes a
  | .calReg s => [s.selector]
  | .ret => []
  | .tailcall => []

/-- R80, R82: the bytes of an instruction, lowest address first. -/
def encode (i : Instr) : List Byte := i.opcode.byte :: i.operandBytes

/-! ## The host's numbering of an instruction's bits -/

/-- The longest instruction, JMP_NOT_EQ of an 8-byte type (R80). -/
def maxInstrBytes : Nat := 14

/-- Byte `k` of an instruction given as one number whose low byte is the opcode byte; the bits from
`nbits` up are 0. -/
def tableByte (nbits w k : Nat) : Byte := BitVec.ofNat 8 ((w % 2 ^ nbits) / 256 ^ k)

/-- The bytes of an instruction given as one number, up to the longest instruction. -/
def tableBytes (nbits w : Nat) : List Byte :=
  (List.range maxInstrBytes).map (tableByte nbits w)

/-- The instruction this decoder reads from the bits of a row of spec/opcode_table.json. -/
def decodeTableWord (nbits w : Nat) : Option Instr :=
  match decodeBytes (tableBytes nbits w) with
  | .ok i => some i
  | .error _ => none

end Sys2Proof
end

