-- ==== Sys2Proof/Machine/State.lean ====
section
/-! DEFINITION. The machine's state as plain data (R20), the reasons a step can stop (R191) and the
state after reset (R40). -/

namespace Sys2Proof.Machine

/-- R21, R22: the thirteen 64-bit slots, one home each. -/
structure Regs where
  ip : Word
  acc : Word
  r1 : Word
  r2 : Word
  r3 : Word
  r4 : Word
  r5 : Word
  r6 : Word
  r7 : Word
  r8 : Word
  sp : Word
  fp : Word
  bp : Word
  deriving DecidableEq, Repr

/-- R38, R50: memory as the bytes that differ from `Config.unlistedByte`, addresses strictly rising
(`Memory.wf`). -/
abbrev Memory := List Host.Cell

/-- R191: whether an out-of-range access was a read or a write. -/
inductive Access where
  | read | write
  deriving DecidableEq, Repr

/-- R191: the faults of the instruction path, each with its recorded info and `pc0`, the address of
the opcode byte of the faulting instruction (R198). Faults 1 and 7 of R191 arise only from host
accessors and are `HostError`s. -/
inductive Fault where
  /-- Code 2. Raised by the type-tag fetch of the nine typed instructions when the tag byte is
  unassigned (R91, R193). Safe: the spec's own fault. -/
  | unknownTypeTag (byte : Byte) (addr pc0 : Addr)
  /-- Code 3. Raised by dispatch when the opcode byte is unassigned (R90, R192); the byte's address is
  `pc0`. Safe: the spec's own fault. -/
  | unknownOpcode (byte : Byte) (addr : Addr)
  /-- Code 4. Raised by every fetch, load, store, push, pop, frame save and frame restore whose bytes
  do not all lie in memory (R53, R54, R194). Safe: the spec's own fault. -/
  | outOfRange (addr n : Nat) (access : Access) (pc0 : Addr)
  /-- Code 5. Raised by TAILCALL when no call target is remembered (R176, R199). Safe: the spec's own
  fault. -/
  | noCallTarget (pc0 : Addr)
  /-- Code 6. Raised by RET when the size field is below 80 (R177, R199). Safe: the spec's own fault. -/
  | badFrameSize (size : Word) (addr : Nat) (pc0 : Addr)
  deriving DecidableEq, Repr

/-- The reasons to give an instruction no meaning. -/
inductive Refusal where
  /-- Raised by an arm of `exec` that has no meaning yet, naming its mnemonic; every arm has its
  meaning, so nothing raises it. Safe: a refusal proves nothing about the hardware. -/
  | notModelled (mnemonic : String)
  deriving DecidableEq, Repr

/-- The errors of a host accessor call (R27, R66, R200): the call fails, no state changes. -/
inductive HostError where
  /-- Code 1 of R191. Raised by `get`, `set`, `zero` when the name is not one of the thirteen. Safe:
  the spec's own error. -/
  | unknownRegister (name : String)
  /-- Code 4 of R191 on the host path. Raised by `load` and `store` (R66). Safe: the spec's own error.
  It carries no `pc0`: R191 lists one, R198 defines it only for an instruction that faulted, and here
  none runs (DESIGN CHOICE, log entry 21). -/
  | outOfRange (addr n : Nat) (access : Access)
  /-- Code 7 of R191. Raised by `get` and `set` when `offset + W(T) > 8`. Safe: the spec's own error. -/
  | regOffsetRange (name : String) (offset : Nat) (t : ScalarType)
  /-- Raised by `construct` for a size outside R5's range (U25 has the model refuse it). Safe. -/
  | memSizeRange (memSize : Nat)
  deriving DecidableEq, Repr

/-- R35: the run status; `fault` holds the fault that `step` returns again (R110, R197; log entry 16). -/
inductive RunStatus where
  | run
  | fault (f : Fault)
  deriving DecidableEq, Repr

/-- R20: the state. `memSize` and `haltFlag` are the model's own fields: the first is the construction
parameter MEM_SIZE, which no step changes (log entry 1), the second holds the Halt or Continue output
of the latest step, which no step reads (R12, R118, log entry 3). -/
structure State where
  regs : Regs
  mem : Memory
  fsz : Word
  ctgt : Option Addr
  status : RunStatus
  memSize : Nat
  haltFlag : Bool
  deriving DecidableEq, Repr

/-- R40, R220: the register file after construction with `memSize` bytes; the zeros are R40's first
reading (log entry 6). -/
def Regs.construct (memSize : Nat) : Regs where
  ip := 0
  acc := 0
  r1 := 0
  r2 := 0
  r3 := 0
  r4 := 0
  r5 := 0
  r6 := 0
  r7 := 0
  r8 := 0
  sp := zextAddr (BitVec.ofNat 32 (memSize - 8))
  fp := zextAddr (BitVec.ofNat 32 (memSize - 8))
  bp := zextAddr (BitVec.ofNat 32 (memSize - 8))

/-- R40, R220: the state after construction with `memSize` bytes whose contents are `mem`
(`MEM_INIT`). -/
def State.construct (memSize : Nat) (mem : Memory) : State where
  regs := Regs.construct memSize
  mem := mem
  fsz := 0
  ctgt := none
  status := .run
  memSize := memSize
  haltFlag := false

/-- R40: the machine right after reset, for the size and the initial contents of log entries 1
and 2. -/
def State.reset : State := State.construct Config.memSize []

end Sys2Proof.Machine
end

