-- ==== Sys2Proof/Machine/Ops.lean ====
section
/-! DEFINITION. The named operations over registers and memory: slots (R22), the program counter
(R28), byte-wise memory and the loader and store unit (R53, R54), and raising a fault (R196, R197). -/

namespace Sys2Proof.Machine

/-! ## Register slots -/

/-- R9: `x[r]`. -/
def Regs.get (x : Regs) : Reg → Word
  | .ip => x.ip
  | .acc => x.acc
  | .r1 => x.r1
  | .r2 => x.r2
  | .r3 => x.r3
  | .r4 => x.r4
  | .r5 => x.r5
  | .r6 => x.r6
  | .r7 => x.r7
  | .r8 => x.r8
  | .sp => x.sp
  | .fp => x.fp
  | .bp => x.bp

/-- R9: `x[r] <- v`, all 64 bits. No slot is hardwired (R21). -/
def Regs.set (x : Regs) (v : Word) : Reg → Regs
  | .ip => { x with ip := v }
  | .acc => { x with acc := v }
  | .r1 => { x with r1 := v }
  | .r2 => { x with r2 := v }
  | .r3 => { x with r3 := v }
  | .r4 => { x with r4 := v }
  | .r5 => { x with r5 := v }
  | .r6 => { x with r6 := v }
  | .r7 => { x with r7 := v }
  | .r8 => { x with r8 := v }
  | .sp => { x with sp := v }
  | .fp => { x with fp := v }
  | .bp => { x with bp := v }

/-- R9: `x[r]`. -/
def State.getReg (s : State) (r : Reg) : Word := s.regs.get r

/-- R9: `x[r] <- v`. -/
def State.setReg (s : State) (r : Reg) (v : Word) : State :=
  { s with regs := s.regs.set v r }

/-- R9, R31: the address a register holds, the low 32 bits of its slot. -/
def State.addrOf (s : State) (r : Reg) : Addr := (s.getReg r).setWidth 32

/-- R9, R57: write an address, zero-extended to the whole slot. -/
def State.setAddr (s : State) (r : Reg) (a : Addr) : State := s.setReg r (zextAddr a)

/-- Write the frame-byte counter (R33). -/
def State.setFsz (s : State) (w : Word) : State := { s with fsz := w }

/-- Write the remembered call target (R34). -/
def State.setCtgt (s : State) (c : Option Addr) : State := { s with ctgt := c }

/-- Write memory (R38). -/
def State.setMem (s : State) (m : Memory) : State := { s with mem := m }

/-- Set the step's output: Halt or Continue (R110). -/
def State.setHaltFlag (s : State) (b : Bool) : State := { s with haltFlag := b }

/-- R28: the program counter. -/
def State.pc (s : State) : Addr := s.addrOf .ip

/-- R160: the address at which the next push writes. -/
def State.sp (s : State) : Addr := s.addrOf .sp

/-- R31: the frame pointer. -/
def State.fp (s : State) : Addr := s.addrOf .fp

/-- R28, R112, R116: the state after the fetch of an instruction of `len` bytes, with the step's
output at Continue (R110). -/
def State.afterFetch (s : State) (len : Nat) : State :=
  (s.setAddr .ip (s.pc + BitVec.ofNat 32 len)).setHaltFlag false

/-! ## Memory -/

/-- One byte of memory (R10). -/
def Memory.read : Memory → Nat → Byte
  | [], _ => Config.unlistedByte
  | (b, v) :: t, a => if a = b then v else Memory.read t a

/-- Put one byte, keeping the addresses rising and listing no unlisted byte. -/
def Memory.write (m : Memory) (a : Nat) (v : Byte) : Memory :=
  match m with
  | [] => if v = Config.unlistedByte then [] else [(a, v)]
  | (b, w) :: t =>
    if a < b then
      if v = Config.unlistedByte then (b, w) :: t else (a, v) :: (b, w) :: t
    else if a = b then
      if v = Config.unlistedByte then t else (a, v) :: t
    else (b, w) :: Memory.write t a v

/-- The form of a memory from address `lo` up: addresses strictly rising, no byte listed that an
unlisted address reads as. -/
def Memory.wfFrom : Nat → Memory → Bool
  | _, [] => true
  | lo, (b, w) :: t => decide (lo ≤ b) && decide (w ≠ Config.unlistedByte) && Memory.wfFrom (b + 1) t

/-- The canonical form: equal memories are equal lists. -/
def Memory.wf (m : Memory) : Bool := Memory.wfFrom 0 m

/-- The bytes at `a`, `a+1`, ..., lowest first. -/
def Memory.readBytes (m : Memory) (a : Nat) : Nat → List Byte
  | 0 => []
  | n + 1 => Memory.read m a :: Memory.readBytes m (a + 1) n

/-- Put bytes at `a`, `a+1`, ... in that order. -/
def Memory.writeBytes (m : Memory) (a : Nat) : List Byte → Memory
  | [] => m
  | b :: bs => Memory.writeBytes (Memory.write m a b) (a + 1) bs

/-- R10: `mem[a]`. -/
def State.byte (s : State) (a : Nat) : Byte := Memory.read s.mem a

/-- R50, R56: an access of `n` bytes at `addr` lies in memory; the sum is not reduced. -/
def State.inRange (s : State) (addr n : Nat) : Bool := decide (addr + n ≤ s.memSize)

/-- R53: the `n` bytes at `addr`, big-endian; none outside memory. -/
def State.load (s : State) (addr n : Nat) : Option Nat :=
  if s.inRange addr n then some (beValue (Memory.readBytes s.mem addr n)) else none

/-- R54: store the low `n` bytes of `v` big-endian at `addr`; none outside memory. -/
def State.store (s : State) (addr n : Nat) (v : Word) : Option State :=
  if s.inRange addr n then
    some (s.setMem (Memory.writeBytes s.mem addr (beBytes n v.toNat)))
  else none

/-- R53: `MemRead`, for the instruction at `pc0`. -/
def memRead (pc0 : Addr) (s : State) (addr n : Nat) : Except Fault Word :=
  match s.load addr n with
  | some v => .ok (BitVec.ofNat 64 v)
  | none => .error (.outOfRange addr n .read pc0)

/-- R54: `MemWrite`, for the instruction at `pc0`. -/
def memWrite (pc0 : Addr) (s : State) (addr n : Nat) (v : Word) : Except Fault State :=
  match s.store addr n v with
  | some t => .ok t
  | none => .error (.outOfRange addr n .write pc0)

/-! ## Faults and outcomes -/

/-- R191: the fault's code. -/
def Fault.code : Fault → Nat
  | .unknownTypeTag _ _ _ => 2
  | .unknownOpcode _ _ => 3
  | .outOfRange _ _ _ _ => 4
  | .noCallTarget _ => 5
  | .badFrameSize _ _ _ => 6

/-- R191: a host error's code; a size that U25 has the model refuse has none. -/
def HostError.code : HostError → Option Nat
  | .unknownRegister _ => some 1
  | .outOfRange _ _ _ => some 4
  | .regOffsetRange _ _ _ => some 7
  | .memSizeRange _ => none

/-- R198: `pc0`, the address of the opcode byte of the instruction that faulted. -/
def Fault.pc0 : Fault → Addr
  | .unknownTypeTag _ _ p => p
  | .unknownOpcode _ a => a
  | .outOfRange _ _ _ p => p
  | .noCallTarget p => p
  | .badFrameSize _ _ p => p

/-- R90, R91, R112: the fault that ends a step whose instruction at `pc0` does not decode. -/
def DecodeError.toFault (pc0 : Addr) : DecodeError → Fault
  | .unknownOpcode b => .unknownOpcode b pc0
  | .unknownTypeTag b => .unknownTypeTag b (pc0 + 1) pc0
  | .truncated off n => .outOfRange (pc0 + BitVec.ofNat 32 off).toNat n .read pc0

/-- TAKING A FAULT (R196, R197): from the state before the faulting step, only the status changes.
There is no trap entry (R202) and no return from a fault but construction (R203, R41). `step` answers
the fault, `transition` this state with it (log entry 4). -/
def State.takeFault (s : State) (f : Fault) : State := { s with status := .fault f }

/-- R12: a finished execution, or the fault that ends the step with nothing committed (R196). -/
def finish : Except Fault State → Host.Outcome State Fault Refusal
  | .ok t => .next t
  | .error f => .fault f

end Sys2Proof.Machine
end

