-- ==== Sys2Proof/Machine/Operands.lean ====
section
/-! DEFINITION. Typed access to a register slot (R9, R22 to R24): byte ranges of a slot, the typed
read, the zeroing write and the write that leaves the upper bytes. The other operand forms, the
literal and the absolute address (R84, R85), need no access beyond decoding. -/

namespace Sys2Proof.Machine

/-- The low `n` bytes of a pattern, zero-extended. -/
def lowBytes (n : Nat) (v : Word) : Word := BitVec.ofNat 64 (v.toNat % 2 ^ (8 * n))

/-- R22: bits `8*(off+n)-1 : 8*off` of a slot. -/
def sliceBytes (w : Word) (off n : Nat) : Word := lowBytes n (w >>> (8 * off))

/-- R22, R27: a slot with bits `8*(off+n)-1 : 8*off` replaced by the low `n` bytes of `v`. -/
def insertBytes (w : Word) (off n : Nat) (v : Word) : Word :=
  BitVec.ofNat 64
    (w.toNat % 2 ^ (8 * off) + (v.toNat % 2 ^ (8 * n)) * 2 ^ (8 * off)
      + w.toNat / 2 ^ (8 * (off + n)) * 2 ^ (8 * (off + n)))

/-- R9, R23: `get(t, r)`, the low-order `W(t)` bytes of the slot. -/
def State.get (s : State) (t : ScalarType) (r : Reg) : Word := lowBytes t.width (s.getReg r)

/-- R9, R24: `setz(t, r, v)`, zero the slot, then write the typed value. -/
def State.setz (s : State) (t : ScalarType) (r : Reg) (v : Word) : State :=
  s.setReg r (lowBytes t.width v)

/-- R9, R24, R165: `setnz(t, r, v)`, write the typed value and leave the upper bytes. -/
def State.setnz (s : State) (t : ScalarType) (r : Reg) (v : Word) : State :=
  s.setReg r (insertBytes (s.getReg r) 0 t.width v)

/-- R175: the address a selector names, the register read as `uint`. -/
def State.getTarget (s : State) (r : Reg) : Addr := (s.get .uint r).setWidth 32

end Sys2Proof.Machine
end

