-- ==== Sys2Proof/Machine/Float.lean ====
section
/-! DEFINITION. IEEE-754 data as bit patterns (R8) and their addition under roundTiesToEven (R143).
A finite datum is an integer number of units of the format's least subnormal, so a sum is exact on
integers and is rounded once, at the end. -/

namespace Sys2Proof.Machine

/-- R8: the field widths of an interchange format. -/
structure FloatFormat where
  expBits : Nat
  fracBits : Nat
  deriving DecidableEq, Repr

/-- R8: binary32, 8 exponent bits with bias 127 and 23 trailing significand bits. -/
def binary32 : FloatFormat := ⟨8, 23⟩

/-- R8: binary64, 11 exponent bits with bias 1023 and 52 trailing significand bits. -/
def binary64 : FloatFormat := ⟨11, 52⟩

/-- The weight of the sign bit. -/
def FloatFormat.signWeight (f : FloatFormat) : Nat := 2 ^ (f.expBits + f.fracBits)

/-- R8: the sign bit of a pattern. -/
def FloatFormat.sign (f : FloatFormat) (p : Nat) : Bool := decide (p / f.signWeight % 2 = 1)

/-- The pattern without its sign bit. -/
def FloatFormat.mag (f : FloatFormat) (p : Nat) : Nat := p % f.signWeight

/-- R8: the magnitude pattern of an infinity: exponent all ones, significand zero. -/
def FloatFormat.infMag (f : FloatFormat) : Nat := (2 ^ f.expBits - 1) * 2 ^ f.fracBits

/-- R8: exponent all ones, significand nonzero. -/
def FloatFormat.isNaN (f : FloatFormat) (p : Nat) : Bool := decide (f.infMag < f.mag p)

/-- R8: exponent all ones, significand zero. -/
def FloatFormat.isInf (f : FloatFormat) (p : Nat) : Bool := decide (f.mag p = f.infMag)

/-- The absolute value of a finite datum in units of the least subnormal: the significand, with its
leading one unless the exponent field is 0, scaled by the exponent. The bias cancels in the unit. -/
def FloatFormat.units (f : FloatFormat) (p : Nat) : Nat :=
  let e := f.mag p / 2 ^ f.fracBits
  let m := f.mag p % 2 ^ f.fracBits
  if e = 0 then m else (2 ^ f.fracBits + m) * 2 ^ (e - 1)

/-- The value of a finite datum in units of the least subnormal. -/
def FloatFormat.value (f : FloatFormat) (p : Nat) : Int :=
  if f.sign p then -(f.units p : Int) else (f.units p : Int)

/-- `n / 2^k` rounded to the nearest integer, ties to the even one. -/
def roundShift (n k : Nat) : Nat :=
  let q := n / 2 ^ k
  let r := n % 2 ^ k
  if 2 ^ k < 2 * r ∨ (2 * r = 2 ^ k ∧ q % 2 = 1) then q + 1 else q

/-- R143: the magnitude pattern of `n` units rounded with roundTiesToEven; a rounded value beyond the
format's range is the infinity. Below `2^(fracBits+1)` units every integer is a datum and is its own
pattern (subnormals and the first binade); above, a carry out of the significand lands in the
exponent field by itself. That this is roundTiesToEven is PRESUMED (IEEE 754), log entry 19. -/
def FloatFormat.roundMag (f : FloatFormat) (n : Nat) : Nat :=
  if n < 2 ^ (f.fracBits + 1) then n
  else
    let k := n.log2 - f.fracBits
    min f.infMag (k * 2 ^ f.fracBits + roundShift n k)

/-- The pattern with a sign and a magnitude pattern. -/
def FloatFormat.pack (f : FloatFormat) (neg : Bool) (m : Nat) : Nat :=
  if neg then f.signWeight + m else m

/-- R143: the sum of two finite data: exact, then rounded; an exact zero is -0 only for two negative
operands. -/
def FloatFormat.sumFinite (f : FloatFormat) (a b : Nat) : Nat :=
  let z := f.value a + f.value b
  if z = 0 then f.pack (f.sign a && f.sign b) 0
  else f.pack (decide (z < 0)) (f.roundMag z.natAbs)

/-- R143: the IEEE-754 sum of two patterns; none where it is a NaN, whose pattern R144 leaves to
`nan_add`. -/
def FloatFormat.sum (f : FloatFormat) (a b : Nat) : Option Nat :=
  if f.isNaN a || f.isNaN b then none
  else if f.isInf a then
    if f.isInf b && (f.sign a != f.sign b) then none else some a
  else if f.isInf b then some b
  else some (f.sumFinite a b)

/-- The NaN with a sign and the trailing significand `payload + 1`. -/
def FloatFormat.nan (f : FloatFormat) (neg : Bool) (payload : Nat) : Nat :=
  f.pack neg (f.infMag + payload + 1)

end Sys2Proof.Machine
end

