-- ==== Sys2Proof/Machine/Alu.lean ====
section
/-! DEFINITION. The ALU's one operation, typed addition (R140, R142 to R144), and ADD_REG_REG
(R141). -/

namespace Sys2Proof.Machine

/-- R144: the pattern `nan_add(float, a, b)`: some NaN of binary32. -/
def nanAddFloat (a b : Word) : Word :=
  let p := Config.nanAdd32 (a.setWidth 32) (b.setWidth 32)
  BitVec.ofNat 64 (binary32.nan p.1 p.2.val)

/-- R144: the pattern `nan_add(double, a, b)`: some NaN of binary64. -/
def nanAddDouble (a b : Word) : Word :=
  let p := Config.nanAdd64 a b
  BitVec.ofNat 64 (binary64.nan p.1 p.2.val)

/-- R142: `(a + b) mod 2^(8*W(t))`, the same for unsigned and signed types. -/
def addInt (t : ScalarType) (a b : Word) : Word := lowBytes t.width (a + b)

/-- R143, R144: `fadd(float, a, b)`. -/
def addFloat (a b : Word) : Word :=
  match binary32.sum a.toNat b.toNat with
  | some p => BitVec.ofNat 64 p
  | none => nanAddFloat a b

/-- R143, R144: `fadd(double, a, b)`. -/
def addDouble (a b : Word) : Word :=
  match binary64.sum a.toNat b.toNat with
  | some p => BitVec.ofNat 64 p
  | none => nanAddDouble a b

/-- R140: the datapath selected by the type tag. -/
def aluAdd (t : ScalarType) (a b : Word) : Word :=
  match t with
  | .float => addFloat a b
  | .double => addDouble a b
  | .ubyte => addInt .ubyte a b
  | .uword => addInt .uword a b
  | .uint => addInt .uint a b
  | .ulong => addInt .ulong a b
  | .byte => addInt .byte a b
  | .word => addInt .word a b
  | .int => addInt .int a b
  | .long => addInt .long a b

/-- ADD_REG_REG, R141: both sources are read, after the fetch, before `acc` is zeroed (R116). -/
def execAddRegReg (t : ScalarType) (src1 src2 : Reg) (s : State) :
    Host.Outcome State Fault Refusal :=
  let s1 := s.afterFetch 4
  .next (s1.setz t .acc (aluAdd t (s1.get t src1) (s1.get t src2)))

end Sys2Proof.Machine
end

