-- ==== Sys2Proof/Machine/Flags.lean ====
section
/-! DEFINITION. The machine has no status flags (R32). Its two one-bit results are the comparator's
(R151, R152), used at once by JMP_NOT_EQ and stored nowhere, and the halt flag, an output of the
step (R118). -/

namespace Sys2Proof.Machine

/-- R152: IEEE-754 "not equal" on two patterns. -/
def FloatFormat.neq (f : FloatFormat) (p q : Nat) : Bool :=
  if f.isNaN p || f.isNaN q then true
  else if f.mag p = 0 ∧ f.mag q = 0 then false
  else decide (p ≠ q)

/-- R151: `neq(t, p, q)`. -/
def neq (t : ScalarType) (p q : Word) : Bool :=
  match t with
  | .float => binary32.neq p.toNat q.toNat
  | .double => binary64.neq p.toNat q.toNat
  | .ubyte => decide (p ≠ q)
  | .uword => decide (p ≠ q)
  | .uint => decide (p ≠ q)
  | .ulong => decide (p ≠ q)
  | .byte => decide (p ≠ q)
  | .word => decide (p ≠ q)
  | .int => decide (p ≠ q)
  | .long => decide (p ≠ q)

/-- R118: the step's output is Halt. -/
def State.setHalt (s : State) : State := s.setHaltFlag true

end Sys2Proof.Machine
end

