-- ==== Sys2Proof/Machine/Branch.lean ====
section
/-! DEFINITION. JMP_NOT_EQ (R150). -/

namespace Sys2Proof.Machine

/-- JMP_NOT_EQ, R150: all operand bytes are fetched whether or not the jump is taken; the target is
not checked (R153). -/
def execJmpNotEq (t : ScalarType) (lit : Word) (a : Addr) (s : State) :
    Host.Outcome State Fault Refusal :=
  let s1 := s.afterFetch (6 + t.width)
  .next (if neq t lit (s1.get t .acc) then s1.setAddr .ip a else s1)

end Sys2Proof.Machine
end

