-- ==== Sys2Proof/Machine/Stack.lean ====
section
/-! DEFINITION. The stack primitives (R160, R161) and PSH_LIT, PSH_REG, POP (R163 to R165). -/

namespace Sys2Proof.Machine

/-- R160: `push(t, v)`: write upward from `sp`, then lower `sp` by the width (mod 2^32) and count the
width into `fsz`. -/
def push (pc0 : Addr) (t : ScalarType) (v : Word) (s : State) : Except Fault State :=
  match memWrite pc0 s s.sp.toNat t.width v with
  | .ok s1 =>
    .ok ((s1.setAddr .sp (s.sp - BitVec.ofNat 32 t.width)).setFsz
      (s.fsz + BitVec.ofNat 64 t.width))
  | .error f => .error f

/-- R161: `pop(t)`: read one width above `sp`, at an address not reduced mod 2^32, then raise `sp` to
it and count the width out of `fsz`. Memory is not cleared. -/
def pop (pc0 : Addr) (t : ScalarType) (s : State) : Except Fault (Word × State) :=
  match memRead pc0 s (s.sp.toNat + t.width) t.width with
  | .ok v =>
    .ok (v, (s.setAddr .sp (s.sp + BitVec.ofNat 32 t.width)).setFsz
      (s.fsz - BitVec.ofNat 64 t.width))
  | .error f => .error f

/-- PSH_LIT, R163. -/
def execPshLit (t : ScalarType) (lit : Word) (s : State) : Host.Outcome State Fault Refusal :=
  finish (push s.pc t lit (s.afterFetch (2 + t.width)))

/-- PSH_REG, R164: the register is read before `sp` moves. -/
def execPshReg (t : ScalarType) (src : Reg) (s : State) : Host.Outcome State Fault Refusal :=
  let s1 := s.afterFetch 3
  finish (push s.pc t (s1.get t src) s1)

/-- POP, R165, D27: the pop completes first; the register write is last and leaves the upper bytes. -/
def execPop (t : ScalarType) (d : Reg) (s : State) : Host.Outcome State Fault Refusal :=
  match pop s.pc t (s.afterFetch 3) with
  | .ok (v, s1) => .next (s1.setnz t d v)
  | .error f => .fault f

end Sys2Proof.Machine
end

