-- ==== Sys2Proof/Machine/Call.lean ====
section
/-! DEFINITION. The stack frame sequencer (R171, R177) and CAL_LIT, CAL_REG, TAILCALL, RET (R174 to
R177). -/

namespace Sys2Proof.Machine

/-- R171: the slots a frame saves, in push order. -/
def savedRegs : List Reg := [.r1, .r2, .r3, .r4, .r5, .r6, .r7, .r8, .ip]

/-- R177: the slots a frame restores, in pop order. -/
def restoredRegs : List Reg := [.ip, .r8, .r7, .r6, .r5, .r4, .r3, .r2, .r1]

/-- R171: push whole slots, one after another. -/
def saveRegs (pc0 : Addr) : List Reg → State → Except Fault State
  | [], s => .ok s
  | r :: rs, s =>
    match push pc0 .ulong (s.getReg r) s with
    | .ok s1 => saveRegs pc0 rs s1
    | .error f => .error f

/-- R177: pop whole slots, one after another. -/
def restoreRegs (pc0 : Addr) : List Reg → State → Except Fault State
  | [], s => .ok s
  | r :: rs, s =>
    match pop pc0 .ulong s with
    | .ok (v, s1) => restoreRegs pc0 rs (s1.setReg r v)
    | .error f => .error f

/-- R171: `pushState()`. The size field is `fsz`, which by then counts the nine saved slots, and the
constant. -/
def pushState (pc0 : Addr) (s : State) : Except Fault State :=
  match saveRegs pc0 savedRegs s with
  | .ok s1 =>
    match push pc0 .ulong (s1.fsz + Config.frameConst) s1 with
    | .ok s2 => .ok (((s2.setAddr .fp s2.sp).setAddr .bp s.sp).setFsz 0)
    | .error f => .error f
  | .error f => .error f

/-- R177: the discard of `n` single bytes in the rule's closed form: the first address that leaves
memory faults, otherwise `sp` moves up by `n`. -/
def discardBytes (pc0 : Addr) (n : Nat) (s : State) : Except Fault State :=
  if 0 < n ∧ s.memSize ≤ s.sp.toNat + n then
    .error (.outOfRange (max (s.sp.toNat + 1) s.memSize) 1 .read pc0)
  else .ok (s.setAddr .sp (s.sp + BitVec.ofNat 32 n))

/-- R177: `popState()`. -/
def popState (pc0 : Addr) (s : State) : Except Fault State :=
  match pop pc0 .ulong (s.setAddr .sp s.fp) with
  | .ok (size, s1) =>
    match restoreRegs pc0 restoredRegs s1 with
    | .ok s2 =>
      if size.toNat < Config.frameBytes then
        .error (.badFrameSize size (s.fp.toNat + 8) pc0)
      else
        match discardBytes pc0 (size.toNat - Config.frameBytes) s2 with
        | .ok s3 => .ok ((s3.setAddr .fp (s.fp + size.setWidth 32)).setFsz 0)
        | .error f => .error f
    | .error f => .error f
  | .error f => .error f

/-- R174, R175: remember the target, push the frame, jump. The target is not checked (R153). -/
def callTo (pc0 a : Addr) (s : State) : Except Fault State :=
  match pushState pc0 (s.setCtgt (some a)) with
  | .ok s1 => .ok (s1.setAddr .ip a)
  | .error f => .error f

/-- CAL_LIT, R174. -/
def execCalLit (a : Addr) (s : State) : Host.Outcome State Fault Refusal :=
  finish (callTo s.pc a (s.afterFetch 5))

/-- CAL_REG, R175: the register is read, as `uint`, before the frame is pushed. -/
def execCalReg (r : Reg) (s : State) : Host.Outcome State Fault Refusal :=
  let s1 := s.afterFetch 2
  finish (callTo s.pc (s1.getTarget r) s1)

/-- TAILCALL, R176, D10: jump to the remembered target; nothing else is written. -/
def execTailcall (s : State) : Host.Outcome State Fault Refusal :=
  match s.ctgt with
  | some a => .next ((s.afterFetch 1).setAddr .ip a)
  | none => .fault (.noCallTarget s.pc)

/-- RET, R177: the target is cleared, then the frame is unwound. -/
def execRet (s : State) : Host.Outcome State Fault Refusal :=
  finish (popState s.pc ((s.afterFetch 1).setCtgt none))

end Sys2Proof.Machine
end

