-- ==== Sys2Proof/Machine/Control.lean ====
section
/-! DEFINITION. HLT (R118). -/

namespace Sys2Proof.Machine

/-- HLT, R118, C4, D15: the output is Halt; the only write is the advance of `pc` by the fetch.
Nothing is latched: a further step runs the byte after it (R119). -/
def execHlt (s : State) : Host.Outcome State Fault Refusal :=
  .next (s.afterFetch 1).setHalt

end Sys2Proof.Machine
end

