-- ==== Sys2Proof/Machine/Mov.lean ====
section
/-! DEFINITION. The four moves (R130 to R134). Each copies a pattern and never converts it (D17). -/

namespace Sys2Proof.Machine

/-- MOV_LIT_REG, R131. -/
def execMovLitReg (t : ScalarType) (lit : Word) (d : Reg) (s : State) :
    Host.Outcome State Fault Refusal :=
  .next ((s.afterFetch (3 + t.width)).setz t d lit)

/-- MOV_REG_REG, R132: the source is read, after the fetch, before the destination is zeroed (R116). -/
def execMovRegReg (t : ScalarType) (src d : Reg) (s : State) :
    Host.Outcome State Fault Refusal :=
  let s1 := s.afterFetch 4
  .next (s1.setz t d (s1.get t src))

/-- MOV_REG_MEM, R133. -/
def execMovRegMem (t : ScalarType) (src : Reg) (a : Addr) (s : State) :
    Host.Outcome State Fault Refusal :=
  let s1 := s.afterFetch 7
  finish (memWrite s.pc s1 a.toNat t.width (s1.get t src))

/-- MOV_MEM_REG, R134: no sign extension (R24). -/
def execMovMemReg (t : ScalarType) (a : Addr) (d : Reg) (s : State) :
    Host.Outcome State Fault Refusal :=
  let s1 := s.afterFetch 7
  match memRead s.pc s1 a.toNat t.width with
  | .ok v => .next (s1.setz t d v)
  | .error f => .fault f

end Sys2Proof.Machine
end

