-- ==== Sys2Proof/Machine/Dispatch.lean ====
section
/-! DEFINITION. One arm per instruction (R117): the state before the fetch to the outcome. -/

namespace Sys2Proof.Machine

/-- R117: dispatch. -/
def exec (i : Instr) (s : State) : Host.Outcome State Fault Refusal :=
  match i with
  | .hlt => Sys2Proof.Machine.execHlt s
  | .movLitReg t lit d => Sys2Proof.Machine.execMovLitReg t lit d s
  | .movRegReg t src d => Sys2Proof.Machine.execMovRegReg t src d s
  | .movRegMem t src a => Sys2Proof.Machine.execMovRegMem t src a s
  | .movMemReg t a d => Sys2Proof.Machine.execMovMemReg t a d s
  | .addRegReg t src1 src2 => Sys2Proof.Machine.execAddRegReg t src1 src2 s
  | .jmpNotEq t lit a => Sys2Proof.Machine.execJmpNotEq t lit a s
  | .pshLit t lit => Sys2Proof.Machine.execPshLit t lit s
  | .pshReg t src => Sys2Proof.Machine.execPshReg t src s
  | .pop t d => Sys2Proof.Machine.execPop t d s
  | .calLit a => Sys2Proof.Machine.execCalLit a s
  | .calReg r => Sys2Proof.Machine.execCalReg r s
  | .ret => Sys2Proof.Machine.execRet s
  | .tailcall => Sys2Proof.Machine.execTailcall s

end Sys2Proof.Machine
end

