-- ==== Sys2Proof/Machine/Fetch.lean ====
section
/-! DEFINITION. Fetching an instruction's fields from memory at the program counter (R111, R112), and
placing one there. -/

namespace Sys2Proof.Machine

/-- R112: the field of `n` bytes at offset `off` from `pc`. Each fetch leaves `pc` reduced mod 2^32, so
the field's address is; its range check is not (R56). Nothing is cached (R64). DEDUCED, log entry
10. -/
def fetchFromMem (s : State) (off n : Nat) : Option Nat :=
  s.load (s.pc + BitVec.ofNat 32 off).toNat n

/-- R110, R116: the instruction whose opcode byte is at `pc`. Decoding depends on nothing but those
bytes (R93). -/
def decodeAt (s : State) : Except DecodeError Instr := decodeWith (fetchFromMem s)

/-- Bytes put at `a` and up, mod 2^32; a byte whose address lies outside memory is not put. -/
def placeBytes (s : State) (a : Addr) : List Byte → State
  | [] => s
  | b :: bs =>
    placeBytes
      (if a.toNat < s.memSize then s.setMem (Memory.write s.mem a.toNat b) else s) (a + 1) bs

end Sys2Proof.Machine
end

