-- ==== Sys2Proof/Machine/Step.lean ====
section
/-! DEFINITION. The step (R110) and the host's placing of one instruction at the program counter. -/

namespace Sys2Proof.Machine

/-- R110: a faulted machine returns its fault again (R197); otherwise the instruction at `pc` is
fetched and executed, or its fetch faults. -/
def step (s : State) : Host.Outcome State Fault Refusal :=
  match s.status with
  | .fault f => .fault f
  | .run =>
    match decodeAt s with
    | .ok i => exec i s
    | .error e => .fault (DecodeError.toFault s.pc e)

/-- The state with an instruction, given as one number whose low byte is the opcode byte, at `pc`
(log entry 8). -/
def State.withFetchWord (s : State) (nbits w : Nat) : State :=
  placeBytes s s.pc (tableBytes nbits w)

end Sys2Proof.Machine
end

