-- ==== Sys2Proof/Machine/HostAccess.lean ====
section
/-! DEFINITION. The host's operations between steps (R225): `construct` (R220), the typed memory
accessors (R66), the typed register accessors (R27), and the loader built on them (R222, R226). A
failed call changes no state and leaves the status alone (R200; for memory DEDUCED, log entry 11). -/

namespace Sys2Proof.Machine

/-! ## Typed values -/

/-- R27: what a typed accessor gives or takes: a number for an integer type, the IEEE-754 datum, as
its bits, for a floating type (equality of data on this path is equality of bits). -/
inductive HostValue where
  | integer (z : Int)
  | datum (bits : Word)
  deriving DecidableEq, Repr

/-- R8, R27: `val(t, b)`. -/
def valueOf (t : ScalarType) (b : Word) : HostValue :=
  match t.kind with
  | .unsigned => .integer b.toNat
  | .signed =>
    .integer (if b.toNat < 2 ^ (8 * t.width - 1) then (b.toNat : Int)
      else (b.toNat : Int) - 2 ^ (8 * t.width))
  | .floating => .datum b

/-- R8: the pattern of a value; of a value not of the type, its low bits (log entry 12). -/
def patternOf (t : ScalarType) (v : HostValue) : Word :=
  match v with
  | .integer z => BitVec.ofNat 64 (z % 2 ^ (8 * t.width)).toNat
  | .datum b => lowBytes t.width b

/-- R7: the value set of a type. -/
def HostValue.ofType (t : ScalarType) (v : HostValue) : Bool :=
  match t.kind, v with
  | .unsigned, .integer z => decide (0 ≤ z ∧ z < 2 ^ (8 * t.width))
  | .signed, .integer z => decide (-(2 ^ (8 * t.width - 1)) ≤ z ∧ z < 2 ^ (8 * t.width - 1))
  | .floating, .datum b => t.fits b
  | .unsigned, .datum _ => false
  | .signed, .datum _ => false
  | .floating, .integer _ => false

/-! ## Memory -/

/-- R66: `load<t>(addr)`. The error names no `pc0` (log entry 21). -/
def hostLoad (t : ScalarType) (addr : Nat) (s : State) : Except HostError HostValue :=
  match s.load addr t.width with
  | some v => .ok (valueOf t (BitVec.ofNat 64 v))
  | none => .error (.outOfRange addr t.width .read)

/-- R66: `store<t>(addr, v)`. The error names no `pc0` (log entry 21). -/
def hostStore (t : ScalarType) (addr : Nat) (v : HostValue) (s : State) : Except HostError State :=
  match s.store addr t.width (patternOf t v) with
  | some u => .ok u
  | none => .error (.outOfRange addr t.width .write)

/-! ## Registers -/

/-- R21: the name of a register. -/
def Reg.name : Reg → String
  | .ip => "ip"
  | .acc => "acc"
  | .r1 => "r1"
  | .r2 => "r2"
  | .r3 => "r3"
  | .r4 => "r4"
  | .r5 => "r5"
  | .r6 => "r6"
  | .r7 => "r7"
  | .r8 => "r8"
  | .sp => "sp"
  | .fp => "fp"
  | .bp => "bp"

/-- R27: the register a name stands for. -/
def regOfName (name : String) : Option Reg := Reg.all.find? (fun r => Reg.name r == name)

/-- R22: an access of type `t` at `offset` lies in the slot; checked after the name (log entry 18). -/
def slotRange (t : ScalarType) (offset : Nat) : Bool := decide (offset + t.width ≤ 8)

/-- R27: `get<t>(name, offset)`. -/
def hostGet (t : ScalarType) (name : String) (offset : Nat) (s : State) :
    Except HostError HostValue :=
  match regOfName name with
  | none => .error (.unknownRegister name)
  | some r =>
    if slotRange t offset then .ok (valueOf t (sliceBytes (s.getReg r) offset t.width))
    else .error (.regOffsetRange name offset t)

/-- R27: `set<t>(name, v, offset)`: those bytes and no others; the slot is not zeroed (C2). -/
def hostSet (t : ScalarType) (name : String) (v : HostValue) (offset : Nat) (s : State) :
    Except HostError State :=
  match regOfName name with
  | none => .error (.unknownRegister name)
  | some r =>
    if slotRange t offset then
      .ok (s.setReg r (insertBytes (s.getReg r) offset t.width (patternOf t v)))
    else .error (.regOffsetRange name offset t)

/-- R27: `zero(name)`. -/
def hostZero (name : String) (s : State) : Except HostError State :=
  match regOfName name with
  | none => .error (.unknownRegister name)
  | some r => .ok (s.setReg r 0)

/-! ## Construction and loading -/

/-- The bytes `f a`, `f (a+1)`, ..., `n` of them, as a memory. -/
def memoryOf (f : Nat → Byte) (a : Nat) : Nat → Memory
  | 0 => []
  | n + 1 =>
    if f a = Config.unlistedByte then memoryOf f (a + 1) n else (a, f a) :: memoryOf f (a + 1) n

/-- R220, R225: `construct(memSize)`, with the open contents `MEM_INIT` as an argument (R5, D18). A
size outside R5's range is refused (U25, log entry 13). -/
def hostConstruct (memSize : Nat) (memInit : Nat → Byte) : Except HostError State :=
  if Config.minMemSize ≤ memSize ∧ memSize ≤ Config.maxMemSize then
    .ok (State.construct memSize (memoryOf memInit 0 memSize))
  else .error (.memSizeRange memSize)

/-- R222, R226: the loader's writes: the image, byte by byte from address `a`. -/
def hostStoreImage (a : Nat) : List Byte → State → Except HostError State
  | [], s => .ok s
  | b :: bs, s =>
    match hostStore .ubyte a (.integer b.toNat) s with
    | .ok s1 => hostStoreImage (a + 1) bs s1
    | .error e => .error e

/-- R222: load an image at address 0 and seed `ip` with the entry point, the slot zeroed first (log
entry 17). -/
def hostLoadProgram (image : List Byte) (entry : Addr) (s : State) : Except HostError State :=
  match hostStoreImage 0 image s with
  | .error e => .error e
  | .ok s1 =>
    match hostZero (Reg.name .ip) s1 with
    | .error e => .error e
    | .ok s2 => hostSet .uint (Reg.name .ip) (.integer entry.toNat) 0 s2

end Sys2Proof.Machine
end

