-- ==== Sys2Proof/Machine/Report.lean ====
section
/-! DEFINITION. The step as the host sees it (R110, R225): the committed state together with the
reported outcome, for every outcome; and a run (R119). `step` gives the state only where the step
commits its writes. -/

namespace Sys2Proof.Machine

/-- R12, R198, R225: the outcome of a step. -/
inductive StepResult where
  /-- The instruction was not HLT. -/
  | cont
  /-- The instruction was HLT (R118). -/
  | halt
  /-- The step faulted; the info is in the fault (R191). -/
  | fault (f : Fault)
  /-- The model gives the instruction no meaning. No instruction is refused. -/
  | refused (r : Refusal)
  deriving DecidableEq, Repr

/-- R110, R196, R197: a finished step commits all its writes; a faulting one changes only the status. -/
def transition (s : State) : State × StepResult :=
  match step s with
  | .next t => (t, if t.haltFlag then .halt else .cont)
  | .fault f => (s.takeFault f, .fault f)
  | .refused r => (s, .refused r)

/-- R119: a run, of at most `budget` steps, ends at the first step whose outcome is not Continue; none
where the budget does not reach its end. The machine itself has no step limit (log entry 15).
-/
def runToEnd : Nat → State → Option (State × StepResult)
  | 0, _ => none
  | budget + 1, s =>
    match transition s with
    | (t, .cont) => runToEnd budget t
    | (t, .halt) => some (t, .halt)
    | (t, .fault f) => some (t, .fault f)
    | (t, .refused r) => some (t, .refused r)

end Sys2Proof.Machine
end

