-- ==== Sys2Proof/Safety.lean ====
section
/-! DEFINITION. The terms the statements use: what an instruction leaves alone (frames), what memory
holds, the invariants of the machine, the launch states (R224), and what counts as a safe run. -/


namespace Sys2Proof.Machine

/-! ## Frames -/

/-- Every slot but those listed is unchanged. -/
def KeepsRegs (written : List Reg) (s u : State) : Prop :=
  ∀ r, r ∉ written → u.getReg r = s.getReg r

/-- Every byte of memory is unchanged. -/
def KeepsMemory (s u : State) : Prop := ∀ a, u.byte a = s.byte a

/-- Every byte of memory outside the `n` bytes at `addr` is unchanged. -/
def KeepsMemoryOutside (addr n : Nat) (s u : State) : Prop :=
  ∀ a, a < addr ∨ addr + n ≤ a → u.byte a = s.byte a

/-- The frame-byte counter and the call target are unchanged (R33, R34). -/
def KeepsHidden (s u : State) : Prop := u.fsz = s.fsz ∧ u.ctgt = s.ctgt

/-- The run status is unchanged and so is the memory's size (R35, R41). -/
def KeepsControl (s u : State) : Prop := u.status = s.status ∧ u.memSize = s.memSize

/-! ## Contents of memory -/

/-- R54: the `n` bytes at `addr` are the low `n` bytes of `v`, most significant first. -/
def HoldsValue (s : State) (addr n : Nat) (v : Word) : Prop :=
  ∀ k, k < n → s.byte (addr + k) = BitVec.ofNat 8 (v.toNat / 256 ^ (n - 1 - k))

/-- The bytes `bs` lie in memory from `addr` up. -/
def HoldsBytes (s : State) (addr : Nat) (bs : List Byte) : Prop :=
  addr + bs.length ≤ s.memSize ∧ ∀ k, (h : k < bs.length) → s.byte (addr + k) = bs[k]

/-- R53: the big-endian value of the 8 bytes at `addr`. -/
def wordAt (s : State) (addr : Nat) : Word :=
  BitVec.ofNat 64 (beValue (Memory.readBytes s.mem addr 8))

/-! ## Fields of an instruction -/

/-- R82: the offset from the opcode byte and the width of each field of an instruction, in stream
order. -/
def fieldsOf : Instr → List (Nat × Nat)
  | .hlt => [(0, 1)]
  | .movLitReg t _ _ => [(0, 1), (1, 1), (2, t.width), (2 + t.width, 1)]
  | .movRegReg _ _ _ => [(0, 1), (1, 1), (2, 1), (3, 1)]
  | .movRegMem _ _ _ => [(0, 1), (1, 1), (2, 1), (3, 4)]
  | .movMemReg _ _ _ => [(0, 1), (1, 1), (2, 4), (6, 1)]
  | .addRegReg _ _ _ => [(0, 1), (1, 1), (2, 1), (3, 1)]
  | .jmpNotEq t _ _ => [(0, 1), (1, 1), (2, t.width), (2 + t.width, 4)]
  | .pshLit t _ => [(0, 1), (1, 1), (2, t.width)]
  | .pshReg _ _ => [(0, 1), (1, 1), (2, 1)]
  | .pop _ _ => [(0, 1), (1, 1), (2, 1)]
  | .calLit _ => [(0, 1), (1, 4)]
  | .calReg _ => [(0, 1), (1, 1)]
  | .ret => [(0, 1)]
  | .tailcall => [(0, 1)]

/-- R112, R195: the first field, in stream order, of an instruction at `pc` that does not lie in
memory. -/
def firstFieldOutside (s : State) (i : Instr) : Option (Nat × Nat) :=
  (fieldsOf i).find? (fun p => decide (s.memSize < s.pc.toNat + p.1 + p.2))

/-! ## Operand values -/

/-- R116: what a source selector's slot holds when the sources are read: `ip` already addresses the
next instruction, every other slot is as before. -/
def operandSlot (s : State) (len : Nat) (r : Reg) : Word :=
  if r = .ip then zextAddr (s.pc + BitVec.ofNat 32 len) else s.getReg r

/-- R8: the two's-complement value of an `n`-bit pattern. -/
def signedOf (n v : Nat) : Int :=
  if v < 2 ^ (n - 1) then (v : Int) else (v : Int) - 2 ^ n

/-- R8: the interchange format of a floating type. -/
def formatOf : ScalarType → Option FloatFormat
  | .float => some binary32
  | .double => some binary64
  | .ubyte => none
  | .uword => none
  | .uint => none
  | .ulong => none
  | .byte => none
  | .word => none
  | .int => none
  | .long => none

/-- A pattern of the format that is a finite datum. -/
def FloatFormat.isFinite (f : FloatFormat) (p : Nat) : Prop := f.mag p < f.infMag

/-- The greatest finite magnitude, in units of the least subnormal. -/
def FloatFormat.maxUnits (f : FloatFormat) : Nat :=
  (2 ^ (f.fracBits + 1) - 1) * 2 ^ (2 ^ f.expBits - 3)

/-- Half the spacing of the greatest binade: a sum this far or more beyond the greatest finite
magnitude rounds to an infinity. -/
def FloatFormat.halfTopUlp (f : FloatFormat) : Nat := 2 ^ (2 ^ f.expBits - 4)

/-! ## Call frames -/

/-- R171: the ten words of a frame, in push order, for the return address `ret`. -/
def frameWords (s : State) (ret : Addr) : List Word :=
  [s.getReg .r1, s.getReg .r2, s.getReg .r3, s.getReg .r4, s.getReg .r5, s.getReg .r6,
   s.getReg .r7, s.getReg .r8, zextAddr ret, s.fsz + 80]

/-- R171: where the `k`th word of a frame pushed from the stack pointer `sp` is written. -/
def frameAddr (sp : Addr) (k : Nat) : Nat := (sp - BitVec.ofNat 32 (8 * k)).toNat

/-- R177: the `k`th word that RET reads, counted from 1, through the frame pointer of `s`. -/
def frameField (s : State) (k : Nat) : Word := wordAt s (s.fp.toNat + 8 * k)

/-! ## Invariants -/

/-- Every listed byte lies in memory. -/
def Memory.within (m : Memory) (size : Nat) : Bool := m.all (fun c => decide (c.1 < size))

/-- The invariant of every state of the machine: memory is in its canonical form and lists nothing
outside itself, and its size is one R5 admits. -/
def State.inv (s : State) : Bool :=
  Memory.wf s.mem && Memory.within s.mem s.memSize
    && decide (Config.minMemSize ≤ s.memSize) && decide (s.memSize ≤ Config.maxMemSize)

/-- R178: the frame-byte counter is the distance from `sp` up to the frame boundary. -/
def FrameChain (s : State) : Prop :=
  (s.sp.toNat + s.fsz.toNat) % 2 ^ 32 = s.fp.toNat

/-- R178, R238: the instruction names `sp` or `fp` as an explicit destination. -/
def setsStackPointer : Instr → Bool
  | .hlt => false
  | .movLitReg _ _ d => decide (d = .sp ∨ d = .fp)
  | .movRegReg _ _ d => decide (d = .sp ∨ d = .fp)
  | .movRegMem _ _ _ => false
  | .movMemReg _ _ d => decide (d = .sp ∨ d = .fp)
  | .addRegReg _ _ _ => false
  | .jmpNotEq _ _ _ => false
  | .pshLit _ _ => false
  | .pshReg _ _ => false
  | .pop _ d => decide (d = .sp ∨ d = .fp)
  | .calLit _ => false
  | .calReg _ => false
  | .ret => false
  | .tailcall => false

/-! ## Launch states and safe runs -/

/-- R119: the committed state after `n` calls of `step()`, whatever their outcomes. -/
def afterSteps : Nat → State → State
  | 0, s => s
  | n + 1, s => afterSteps n (transition s).1

/-- R224: the states reachable from construction by host accessor calls alone. -/
inductive Launch : State → Prop
  | construct {memSize : Nat} {memInit : Nat → Byte} {s : State} :
      hostConstruct memSize memInit = .ok s → Launch s
  | store {s u : State} {t : ScalarType} {addr : Nat} {v : HostValue} :
      Launch s → hostStore t addr v s = .ok u → Launch u
  | set {s u : State} {t : ScalarType} {name : String} {v : HostValue} {offset : Nat} :
      Launch s → hostSet t name v offset s = .ok u → Launch u
  | zero {s u : State} {name : String} :
      Launch s → hostZero name s = .ok u → Launch u

/-- R119: a run from `s` that comes to its normal end, a Halt, within `budget` steps. A run that ends
with a fault has gone wrong. -/
def HaltsWithin (budget : Nat) (s : State) : Prop :=
  ∃ u, runToEnd budget s = some (u, .halt)

/-- The discard loop of R177 as the rule writes it: `n` pops of one byte. -/
def popBytes (pc0 : Addr) : Nat → State → Except Fault State
  | 0, s => .ok s
  | n + 1, s =>
    match pop pc0 .ubyte s with
    | .ok (_, s1) => popBytes pc0 n s1
    | .error f => .error f

/-- R166: push typed values one after another. -/
def pushAll (pc0 : Addr) : List (ScalarType × Word) → State → Except Fault State
  | [], s => .ok s
  | p :: ps, s =>
    match push pc0 p.1 p.2 s with
    | .ok s1 => pushAll pc0 ps s1
    | .error f => .error f

/-- R166: pop one value of each type, and answer the values in that order. -/
def popAll (pc0 : Addr) : List ScalarType → State → Except Fault (List Word × State)
  | [], s => .ok ([], s)
  | t :: ts, s =>
    match pop pc0 t s with
    | .ok (v, s1) =>
      match popAll pc0 ts s1 with
      | .ok (vs, s2) => .ok (v :: vs, s2)
      | .error f => .error f
    | .error f => .error f

end Sys2Proof.Machine
end

