-- ==== Sys2Proof/Certificates/Slice0/Obligations.lean ====
section
/-! DEFINITION. The statements about the model, from the spec's rules. In the frames, `haltFlag` (the
model's holder of a step's output, log entry 3) has a statement of its own,
`StepOutputIsHaltExactlyForHlt`. -/

open Sys2Proof Sys2Proof.Machine

/-! ## Encoding and decoding -/

/-- R80 to R88: every well-formed instruction, with any bytes after it, decodes to itself. The opcode
of TAILCALL is the spec's decision D4, the register numbering D1. -/
def Obligations.DecodeInvertsEncode : Prop :=
  ∀ (i : Instr) (rest : List Byte), i.wellFormed = true → decodeBytes (encode i ++ rest) = .ok i

/-- R82, R83: what is decoded is a well-formed instruction whose bytes are there, and no byte after
them takes part. -/
def Obligations.DecodingReadsOnlyTheInstruction : Prop :=
  ∀ (bs rest : List Byte) (i : Instr), decodeBytes bs = .ok i →
    i.wellFormed = true ∧ i.length ≤ bs.length ∧
      decodeBytes (bs.take i.length ++ rest) = .ok i

/-- R97, and vectors E8, C1 of 95_test_vectors.md: words written out from the encoding tables. -/
def Obligations.SpecWordsDecode : Prop :=
  decodeBytes [0x10, 0x03, 0x00, 0x00, 0x12, 0x34, 0x02] = .ok (.movLitReg .uint 0x1234 .r1) ∧
  decodeBytes [0x15, 0x01, 0x03, 0x00, 0x00, 0x00, 0x08] = .ok (.jmpNotEq .ubyte 3 8) ∧
  decodeBytes [0x5E, 0x00, 0x00, 0x00, 0x20] = .ok (.calLit 0x20) ∧
  decodeBytes [0x1A, 0x04, 0x04] = .ok (.pop .ulong .r3) ∧
  decodeBytes [0x10, 0x10, 0x40, 0x09, 0x21, 0xFB, 0x54, 0x44, 0x2D, 0x18, 0x02]
    = .ok (.movLitReg .double 0x400921FB54442D18 .r1) ∧
  decodeBytes [0x5F, 0x05] = .ok (.calReg .r4) ∧
  decodeBytes [0x10, 0x0A, 0x00, 0x00] = .error (.unknownTypeTag 0x0A)

/-- R26, R87: in every instruction that has one, a selector byte selects the register with index
`b mod 13`, whatever the byte. -/
def Obligations.SelectorByteWrapsModulo13 : Prop :=
  ∀ (t : ScalarType) (lit : Word) (a : Addr) (b c : Byte) (rest : List Byte), t.fits lit = true →
    ∃ r q : Reg, r.index = b.toNat % 13 ∧ q.index = c.toNat % 13 ∧
      decodeBytes (0x10 :: t.tag :: (litBytes t lit ++ b :: rest)) = .ok (.movLitReg t lit r) ∧
      decodeBytes (0x11 :: t.tag :: b :: c :: rest) = .ok (.movRegReg t r q) ∧
      decodeBytes (0x12 :: t.tag :: b :: (addrBytes a ++ rest)) = .ok (.movRegMem t r a) ∧
      decodeBytes (0x13 :: t.tag :: (addrBytes a ++ b :: rest)) = .ok (.movMemReg t a r) ∧
      decodeBytes (0x14 :: t.tag :: b :: c :: rest) = .ok (.addRegReg t r q) ∧
      decodeBytes (0x18 :: t.tag :: b :: rest) = .ok (.pshReg t r) ∧
      decodeBytes (0x1A :: t.tag :: b :: rest) = .ok (.pop t r) ∧
      decodeBytes (0x5F :: b :: rest) = .ok (.calReg r)

/-! ## The step and its faults -/

/-- R110: a machine that has not faulted runs the instruction decoded at `pc`; the meaning itself
moves `pc` past it (R116). -/
def Obligations.StepRunsDecodedInstruction : Prop :=
  ∀ (s : State) (i : Instr), s.status = .run → decodeAt s = .ok i → step s = exec i s

/-- R110, R64, R26: when bytes that decode to an instruction lie at `pc`, whatever put them there and
whichever of its bytes each selector is, the step runs that instruction. -/
def Obligations.StepRunsTheBytesAtPc : Prop :=
  ∀ (s : State) (i : Instr) (bs : List Byte), s.status = .run → decodeBytes bs = .ok i →
    HoldsBytes s s.pc.toNat bs → s.memSize ≤ 2 ^ 32 → step s = exec i s

/-- R90, R192: an unassigned opcode byte faults, and nothing is changed, `ip` included. That the byte
after RET's is TAILCALL's is the spec's decision D4. -/
def Obligations.UnassignedOpcodeFaults : Prop :=
  ∀ s : State, s.status = .run → s.pc.toNat < s.memSize →
    s.byte s.pc.toNat ∉ ([0x00, 0x10, 0x11, 0x12, 0x13, 0x14, 0x15, 0x17, 0x18, 0x1A, 0x5E, 0x5F,
      0x60, 0x61] : List Byte) →
    step s = .fault (.unknownOpcode (s.byte s.pc.toNat) s.pc) ∧
      transition s = ({ s with status := .fault (.unknownOpcode (s.byte s.pc.toNat) s.pc) },
        .fault (.unknownOpcode (s.byte s.pc.toNat) s.pc))

/-- R91, R193: an unassigned type tag faults in every typed instruction, whatever bytes follow it or
are missing after it; an untyped instruction never raises this fault. That nothing but the status is
changed is R196, the spec's decision D12. With the opcode in the last byte of a memory of 2^32 bytes
the tag is the byte at address 0, which is the model's reading (log entry 10, DEDUCED). -/
def Obligations.UnassignedTypeTagFaults : Prop :=
  ∀ s : State, s.status = .run → s.pc.toNat < s.memSize →
    (s.byte s.pc.toNat ∈ ([0x10, 0x11, 0x12, 0x13, 0x14, 0x15, 0x17, 0x18, 0x1A] : List Byte) →
      (s.pc + 1).toNat < s.memSize →
      s.byte (s.pc + 1).toNat ∉ ([0x01, 0x02, 0x03, 0x04, 0x05, 0x06, 0x07, 0x08, 0x09, 0x10] :
        List Byte) →
      step s = .fault (.unknownTypeTag (s.byte (s.pc + 1).toNat) (s.pc + 1) s.pc) ∧
        transition s =
          ({ s with status := .fault (.unknownTypeTag (s.byte (s.pc + 1).toNat) (s.pc + 1) s.pc) },
            .fault (.unknownTypeTag (s.byte (s.pc + 1).toNat) (s.pc + 1) s.pc))) ∧
    (s.byte s.pc.toNat ∈ ([0x00, 0x5E, 0x5F, 0x60, 0x61] : List Byte) →
      ∀ b a p, step s ≠ .fault (.unknownTypeTag b a p))

/-- R111, R194: an opcode fetch outside memory. -/
def Obligations.OpcodeFetchOutsideMemoryFaults : Prop :=
  ∀ s : State, s.status = .run → s.memSize ≤ s.pc.toNat →
    step s = .fault (.outOfRange s.pc.toNat 1 .read s.pc)

/-- R112, R194, R195 (D14): an instruction that runs off the end of memory faults on the first of its
fields, in stream order (R82), that does not lie in memory, with that field's address and width. The
bytes beyond the end can be any that make it an instruction. A field that would begin at address 2^32
is left out: there `pc` is 0 (log entry 10). -/
def Obligations.StraddlingInstructionFaults : Prop :=
  ∀ (s : State) (i : Instr) (bs : List Byte), s.status = .run → decodeBytes bs = .ok i →
    s.memSize ≤ 2 ^ 32 → s.pc.toNat < s.memSize → s.memSize < s.pc.toNat + i.length →
    (∀ k, (h : k < bs.length) → s.pc.toNat + k < s.memSize → s.byte (s.pc.toNat + k) = bs[k]) →
    ∃ off n, firstFieldOutside s i = some (off, n) ∧
      (s.pc.toNat + off < 2 ^ 32 → step s = .fault (.outOfRange (s.pc.toNat + off) n .read s.pc))

/-- R196, R197 (decisions D12, D26): a faulting step changes nothing but the status, and from then on
every step returns the same fault and changes nothing. -/
def Obligations.FaultCommitsNothingAndLatches : Prop :=
  ∀ (s : State) (f : Fault), step s = .fault f →
    transition s = ({ s with status := .fault f }, .fault f) ∧
      transition { s with status := .fault f } = ({ s with status := .fault f }, .fault f)

/-- R198 (D13): a fault names the opcode byte's address of the instruction that faulted. -/
def Obligations.FaultNamesItsInstruction : Prop :=
  ∀ (s : State) (f : Fault), s.status = .run → step s = .fault f → f.pc0 = s.pc

/-- R194: an out-of-range fault is raised only for bytes that do not all lie in memory, and only for 1
to 8 of them. -/
def Obligations.OutOfRangeOnlyOutsideMemory : Prop :=
  ∀ (s : State) (a n : Nat) (acc : Access) (p : Addr), s.status = .run →
    step s = .fault (.outOfRange a n acc p) → s.memSize < a + n ∧ 1 ≤ n ∧ n ≤ 8

/-- Every instruction has a meaning: no step is refused. -/
def Obligations.NoStepIsRefused : Prop :=
  ∀ (s : State) (r : Refusal), step s ≠ .refused r

/-- R12, R110, R118: the output of a step that does not fault is Halt exactly when the instruction was
HLT. -/
def Obligations.StepOutputIsHaltExactlyForHlt : Prop :=
  ∀ (s u : State) (i : Instr), s.status = .run → decodeAt s = .ok i → step s = .next u →
    (i = .hlt → transition s = (u, .halt)) ∧ (i ≠ .hlt → transition s = (u, .cont))

/-- The model's own `haltFlag` is an output only: no step depends on it (log entry 3). -/
def Obligations.HaltFlagIsNeverRead : Prop :=
  ∀ (s : State) (b : Bool), step { s with haltFlag := b } = step s

/-- R119, R110, R118, R196 (D12, D15): a run ends at its first step whose outcome is not Continue, and
in one of two ways: normally, at a HLT, in the committed state of the HLT step; or gone wrong, at a
fault, in the state before the faulting step with the status at that fault. So the number of steps it
was allowed (the model's budget, log entry 15) matters only by being enough. -/
def Obligations.RunEndsAtFirstHaltOrFault : Prop :=
  ∀ (n : Nat) (s t : State) (r : StepResult), runToEnd n s = some (t, r) ↔
    ∃ k, k < n ∧ (∀ j, j < k → (transition (afterSteps j s)).2 = .cont) ∧
      let e := afterSteps k s
      (r = .halt ∧ e.status = .run ∧ decodeAt e = .ok .hlt ∧ step e = .next t) ∨
      (∃ f, r = .fault f ∧ step e = .fault f ∧ t = { e with status := .fault f })

/-! ## Halt and moves -/

/-- R118 (D15, C4): HLT advances `pc` past its byte and changes nothing else. -/
def Obligations.HltOnlyAdvancesPc : Prop :=
  ∀ s : State, ∃ u, exec .hlt s = .next u ∧ u.haltFlag = true ∧
    u.getReg .ip = zextAddr (s.pc + 1) ∧ KeepsRegs [.ip] s u ∧ KeepsMemory s u ∧
    KeepsHidden s u ∧ KeepsControl s u

/-- R131, R24: MOV_LIT_REG. -/
def Obligations.MovLitRegWritesZeroExtendedLiteral : Prop :=
  ∀ (t : ScalarType) (lit : Word) (d : Reg) (s : State), t.fits lit = true →
    ∃ u, exec (.movLitReg t lit d) s = .next u ∧ u.getReg d = lit ∧
      (d ≠ .ip → u.getReg .ip = zextAddr (s.pc + BitVec.ofNat 32 (3 + t.width))) ∧
      KeepsRegs [d, .ip] s u ∧ KeepsMemory s u ∧ KeepsHidden s u ∧ KeepsControl s u

/-- R132, R116 (D11): MOV_REG_REG copies the low bytes the source held before the write. -/
def Obligations.MovRegRegCopiesLowBytes : Prop :=
  ∀ (t : ScalarType) (src d : Reg) (s : State),
    ∃ u, exec (.movRegReg t src d) s = .next u ∧
      (u.getReg d).toNat = (operandSlot s 4 src).toNat % 2 ^ (8 * t.width) ∧
      (d ≠ .ip → u.getReg .ip = zextAddr (s.pc + 4)) ∧
      KeepsRegs [d, .ip] s u ∧ KeepsMemory s u ∧ KeepsHidden s u ∧ KeepsControl s u

/-- R133: MOV_REG_MEM stores the low bytes of the register, big-endian, and nothing else. -/
def Obligations.MovRegMemStoresBigEndian : Prop :=
  ∀ (t : ScalarType) (src : Reg) (a : Addr) (s : State), Memory.wf s.mem = true →
    a.toNat + t.width ≤ s.memSize →
    ∃ u, exec (.movRegMem t src a) s = .next u ∧
      HoldsValue u a.toNat t.width (operandSlot s 7 src) ∧
      KeepsMemoryOutside a.toNat t.width s u ∧
      u.getReg .ip = zextAddr (s.pc + 7) ∧ KeepsRegs [.ip] s u ∧ KeepsHidden s u ∧ KeepsControl s u

/-- R134, R24: MOV_MEM_REG loads big-endian and zero-extends. -/
def Obligations.MovMemRegLoadsZeroExtended : Prop :=
  ∀ (t : ScalarType) (a : Addr) (d : Reg) (s : State), a.toNat + t.width ≤ s.memSize →
    ∃ u, exec (.movMemReg t a d) s = .next u ∧
      HoldsValue s a.toNat t.width (u.getReg d) ∧ (u.getReg d).toNat < 2 ^ (8 * t.width) ∧
      (d ≠ .ip → u.getReg .ip = zextAddr (s.pc + 7)) ∧
      KeepsRegs [d, .ip] s u ∧ KeepsMemory s u ∧ KeepsHidden s u ∧ KeepsControl s u

/-- R133, R134, R56: a data access that leaves memory faults. -/
def Obligations.MemoryMovesFaultOutsideMemory : Prop :=
  ∀ (t : ScalarType) (r : Reg) (a : Addr) (s : State), s.memSize < a.toNat + t.width →
    exec (.movRegMem t r a) s = .fault (.outOfRange a.toNat t.width .write s.pc) ∧
    exec (.movMemReg t a r) s = .fault (.outOfRange a.toNat t.width .read s.pc)

/-! ## Addition -/

/-- R141, R142: integer addition wraps at the type's width, the same for unsigned and signed types; the
signed value is the two's-complement wrap of the true sum. Nothing but `acc` and `ip` is written. That
the operands are the values before `acc` is zeroed is R116, the spec's decision D11. -/
def Obligations.IntegerAdditionWraps : Prop :=
  ∀ (t : ScalarType) (x y : Reg) (s : State), t.kind ≠ .floating →
    let n := 8 * t.width
    let a := (operandSlot s 4 x).toNat % 2 ^ n
    let b := (operandSlot s 4 y).toNat % 2 ^ n
    ∃ u, exec (.addRegReg t x y) s = .next u ∧
      (u.getReg .acc).toNat = (a + b) % 2 ^ n ∧
      (let trueSum := signedOf n a + signedOf n b
       signedOf n (u.getReg .acc).toNat =
         if 2 ^ (n - 1) ≤ trueSum then trueSum - 2 ^ n
         else if trueSum < -(2 ^ (n - 1)) then trueSum + 2 ^ n
         else trueSum) ∧
      u.getReg .ip = zextAddr (s.pc + 4) ∧ KeepsRegs [.acc, .ip] s u ∧ KeepsMemory s u ∧
      KeepsHidden s u ∧ KeepsControl s u

/-- R143, R144 (D16): a floating addition completes, its result is a NaN exactly for a NaN operand or
for infinities of opposite sign, and nothing but `acc` and `ip` is written. Which NaN it is, is the
free value `nan_add` (log entry 5). -/
def Obligations.FloatAdditionCompletesAndNaNCases : Prop :=
  ∀ (t : ScalarType) (f : FloatFormat) (x y : Reg) (s : State), formatOf t = some f →
    let a := (operandSlot s 4 x).toNat % 2 ^ (8 * t.width)
    let b := (operandSlot s 4 y).toNat % 2 ^ (8 * t.width)
    ∃ u, exec (.addRegReg t x y) s = .next u ∧
      (u.getReg .acc).toNat < 2 ^ (8 * t.width) ∧
      (f.isNaN (u.getReg .acc).toNat = true ↔
        f.isNaN a = true ∨ f.isNaN b = true ∨
          (f.isInf a = true ∧ f.isInf b = true ∧ f.sign a ≠ f.sign b)) ∧
      u.getReg .ip = zextAddr (s.pc + 4) ∧ KeepsRegs [.acc, .ip] s u ∧ KeepsMemory s u ∧
      KeepsHidden s u ∧ KeepsControl s u

/-- R143 (D16): an infinity plus a finite datum or plus the same infinity is that infinity. -/
def Obligations.FloatAdditionOfInfinities : Prop :=
  ∀ (t : ScalarType) (f : FloatFormat) (x y : Reg) (s : State), formatOf t = some f →
    let a := (operandSlot s 4 x).toNat % 2 ^ (8 * t.width)
    let b := (operandSlot s 4 y).toNat % 2 ^ (8 * t.width)
    ∃ u, exec (.addRegReg t x y) s = .next u ∧
      (f.isInf a = true → f.isFinite b ∨ b = a → (u.getReg .acc).toNat = a) ∧
      (f.isInf b = true → f.isFinite a ∨ a = b → (u.getReg .acc).toNat = b)

/-- R143 (D16): the sum of finite data is the exact sum rounded with roundTiesToEven: an infinity of
its sign when it lies half a unit in the last place or more beyond the greatest finite magnitude,
otherwise a finite datum that no other finite datum is nearer than, the even one of two equally
near. Values are counted in units of the least subnormal. -/
def Obligations.FloatAdditionRoundsToNearestEven : Prop :=
  ∀ (t : ScalarType) (f : FloatFormat) (x y : Reg) (s : State), formatOf t = some f →
    let a := (operandSlot s 4 x).toNat % 2 ^ (8 * t.width)
    let b := (operandSlot s 4 y).toNat % 2 ^ (8 * t.width)
    let z := f.value a + f.value b
    f.isFinite a → f.isFinite b →
    ∃ u, exec (.addRegReg t x y) s = .next u ∧
      let r := (u.getReg .acc).toNat
      (z ≠ 0 → f.sign r = decide (z < 0)) ∧
      (f.maxUnits + f.halfTopUlp ≤ z.natAbs → f.isInf r = true) ∧
      (z.natAbs < f.maxUnits + f.halfTopUlp → f.isFinite r ∧
        ∀ p, f.isFinite p → (f.value r - z).natAbs ≤ (f.value p - z).natAbs ∧
          (f.value p ≠ f.value r → (f.value p - z).natAbs = (f.value r - z).natAbs →
            f.mag r % 2 = 0))

/-- R143 (D16): an exact zero sum is -0 for two negative operands and +0 otherwise. -/
def Obligations.FloatAdditionZeroSign : Prop :=
  ∀ (t : ScalarType) (f : FloatFormat) (x y : Reg) (s : State), formatOf t = some f →
    let a := (operandSlot s 4 x).toNat % 2 ^ (8 * t.width)
    let b := (operandSlot s 4 y).toNat % 2 ^ (8 * t.width)
    f.isFinite a → f.isFinite b → f.value a + f.value b = 0 →
    ∃ u, exec (.addRegReg t x y) s = .next u ∧
      (u.getReg .acc).toNat =
        if f.sign a = true ∧ f.sign b = true then 2 ^ (8 * t.width - 1) else 0

/-! ## The conditional jump -/

/-- R150, R151: JMP_NOT_EQ on an integer type jumps exactly when the literal differs from the low bytes
of `acc`. -/
def Obligations.JmpNotEqComparesIntegerBits : Prop :=
  ∀ (t : ScalarType) (lit : Word) (a : Addr) (s : State), t.kind ≠ .floating → t.fits lit = true →
    ∃ u, exec (.jmpNotEq t lit a) s = .next u ∧
      u.getReg .ip =
        (if lit.toNat = (s.getReg .acc).toNat % 2 ^ (8 * t.width)
         then zextAddr (s.pc + BitVec.ofNat 32 (6 + t.width)) else zextAddr a) ∧
      KeepsRegs [.ip] s u ∧ KeepsMemory s u ∧ KeepsHidden s u ∧ KeepsControl s u

/-- R150, R152 (D16): on a floating type the comparison is IEEE-754 "not equal": a NaN differs from
everything, the two zeros are equal, otherwise the patterns decide. -/
def Obligations.JmpNotEqComparesFloatsByIeee : Prop :=
  ∀ (t : ScalarType) (f : FloatFormat) (lit : Word) (a : Addr) (s : State),
    formatOf t = some f → t.fits lit = true →
    let p := lit.toNat
    let q := (s.getReg .acc).toNat % 2 ^ (8 * t.width)
    ∃ u, exec (.jmpNotEq t lit a) s = .next u ∧
      (f.isNaN p = true ∨ f.isNaN q = true → u.getReg .ip = zextAddr a) ∧
      (f.mag p = 0 ∧ f.mag q = 0 →
        u.getReg .ip = zextAddr (s.pc + BitVec.ofNat 32 (6 + t.width))) ∧
      (f.isNaN p = false → f.isNaN q = false → ¬ (f.mag p = 0 ∧ f.mag q = 0) →
        u.getReg .ip =
          if p = q then zextAddr (s.pc + BitVec.ofNat 32 (6 + t.width)) else zextAddr a) ∧
      KeepsRegs [.ip] s u ∧ KeepsMemory s u ∧ KeepsHidden s u ∧ KeepsControl s u

/-! ## The stack -/

/-- R163, R160: PSH_LIT. -/
def Obligations.PshLitStoresAtSpThenLowersIt : Prop :=
  ∀ (t : ScalarType) (lit : Word) (s : State), Memory.wf s.mem = true →
    s.sp.toNat + t.width ≤ s.memSize →
    ∃ u, exec (.pshLit t lit) s = .next u ∧
      HoldsValue u s.sp.toNat t.width lit ∧ KeepsMemoryOutside s.sp.toNat t.width s u ∧
      u.getReg .sp = zextAddr (s.sp - BitVec.ofNat 32 t.width) ∧
      u.getReg .ip = zextAddr (s.pc + BitVec.ofNat 32 (2 + t.width)) ∧
      u.fsz = s.fsz + BitVec.ofNat 64 t.width ∧ u.ctgt = s.ctgt ∧
      KeepsRegs [.sp, .ip] s u ∧ KeepsControl s u

/-- R164, R160: PSH_REG stores the value the register held before `sp` moved. -/
def Obligations.PshRegStoresOldRegisterValue : Prop :=
  ∀ (t : ScalarType) (r : Reg) (s : State), Memory.wf s.mem = true →
    s.sp.toNat + t.width ≤ s.memSize →
    ∃ u, exec (.pshReg t r) s = .next u ∧
      HoldsValue u s.sp.toNat t.width (operandSlot s 3 r) ∧
      KeepsMemoryOutside s.sp.toNat t.width s u ∧
      u.getReg .sp = zextAddr (s.sp - BitVec.ofNat 32 t.width) ∧
      u.getReg .ip = zextAddr (s.pc + 3) ∧
      u.fsz = s.fsz + BitVec.ofNat 64 t.width ∧ u.ctgt = s.ctgt ∧
      KeepsRegs [.sp, .ip] s u ∧ KeepsControl s u

/-- R165, R161 (D27): POP reads one width above `sp`, moves `sp` there, and then replaces only the low
bytes of the destination, which for `sp` and `ip` is the already advanced slot. -/
def Obligations.PopReplacesOnlyLowBytes : Prop :=
  ∀ (t : ScalarType) (d : Reg) (s : State), s.sp.toNat + 2 * t.width ≤ s.memSize →
    let old := if d = .sp then zextAddr (s.sp + BitVec.ofNat 32 t.width) else operandSlot s 3 d
    ∃ u, exec (.pop t d) s = .next u ∧
      HoldsValue s (s.sp.toNat + t.width) t.width (u.getReg d) ∧
      (u.getReg d).toNat / 2 ^ (8 * t.width) = old.toNat / 2 ^ (8 * t.width) ∧
      (d ≠ .sp → u.getReg .sp = zextAddr (s.sp + BitVec.ofNat 32 t.width)) ∧
      (d ≠ .ip → u.getReg .ip = zextAddr (s.pc + 3)) ∧
      u.fsz = s.fsz - BitVec.ofNat 64 t.width ∧ u.ctgt = s.ctgt ∧
      KeepsRegs [d, .sp, .ip] s u ∧ KeepsMemory s u ∧ KeepsControl s u

/-- R163 to R165, R167: a push or a pop whose bytes leave memory faults. That one whose bytes lie in
memory completes is said by the three statements before this. -/
def Obligations.StackAccessFaultsOutsideMemory : Prop :=
  ∀ (t : ScalarType) (lit : Word) (r : Reg) (s : State),
    (s.memSize < s.sp.toNat + t.width →
      exec (.pshLit t lit) s = .fault (.outOfRange s.sp.toNat t.width .write s.pc) ∧
      exec (.pshReg t r) s = .fault (.outOfRange s.sp.toNat t.width .write s.pc)) ∧
    (s.memSize < s.sp.toNat + 2 * t.width →
      exec (.pop t r) s = .fault (.outOfRange (s.sp.toNat + t.width) t.width .read s.pc))

/-- R161: a pop directly after a push returns the pushed value and restores `sp` and `fsz`. -/
def Obligations.PopUndoesPush : Prop :=
  ∀ (t : ScalarType) (lit : Word) (r d : Reg) (s u : State), s.inv = true →
    t.width ≤ s.sp.toNat →
    (exec (.pshLit t lit) s = .next u →
      ∃ w, exec (.pop t d) u = .next w ∧
        (w.getReg d).toNat % 2 ^ (8 * t.width) = lit.toNat % 2 ^ (8 * t.width) ∧
        (d ≠ .sp → w.getReg .sp = zextAddr s.sp) ∧ w.fsz = s.fsz) ∧
    (exec (.pshReg t r) s = .next u →
      ∃ w, exec (.pop t d) u = .next w ∧
        (w.getReg d).toNat % 2 ^ (8 * t.width)
          = (operandSlot s 3 r).toNat % 2 ^ (8 * t.width) ∧
        (d ≠ .sp → w.getReg .sp = zextAddr s.sp) ∧ w.fsz = s.fsz)

/-- R162, R166: pushes whose widths never increase, popped in reverse order, give back every value and
restore `sp` and `fsz`; on the primitives that PSH_LIT, PSH_REG and POP run. -/
def Obligations.NonIncreasingPushesPopBack : Prop :=
  ∀ (pc0 : Addr) (ps : List (ScalarType × Word)) (s u : State), s.inv = true →
    (ps.map (fun p => p.1.width)).Pairwise (· ≥ ·) →
    (ps.map (fun p => p.1.width)).sum ≤ s.sp.toNat →
    pushAll pc0 ps s = .ok u →
    ∃ w, popAll pc0 (ps.reverse.map Prod.fst) u
        = .ok (ps.reverse.map (fun p => lowBytes p.1.width p.2), w) ∧
      w.sp = s.sp ∧ w.fsz = s.fsz ∧ w.mem = u.mem

/-- R162, R166: pushes of any widths and any number, popped in reverse order, restore `sp` and `fsz`
whenever no access faults, and none of the pops does when the pushes did not lower `sp` below 0; the
values may overlap (C3). On the primitives that PSH_LIT, PSH_REG and POP run. -/
def Obligations.PushesThenPopsRestoreSpAndCounter : Prop :=
  ∀ (pc0 : Addr) (ps : List (ScalarType × Word)) (s u : State), pushAll pc0 ps s = .ok u →
    (∀ vs w, popAll pc0 (ps.reverse.map Prod.fst) u = .ok (vs, w) →
      w.sp = s.sp ∧ w.fsz = s.fsz ∧ w.mem = u.mem) ∧
    ((ps.map (fun p => p.1.width)).sum ≤ s.sp.toNat →
      ∃ vs w, popAll pc0 (ps.reverse.map Prod.fst) u = .ok (vs, w))

/-! ## Calls -/

/-- R174, R171, R173 (D6, D7): CAL_LIT remembers its target, writes the ten words of the frame and no
other byte, and jumps. Covers a frame that wraps around a memory of 2^32 bytes. -/
def Obligations.CalLitPushesFrameAndJumps : Prop :=
  ∀ (a : Addr) (s : State), Memory.wf s.mem = true →
    (∀ k, k < 10 → frameAddr s.sp k + 8 ≤ s.memSize) →
    ∃ u, exec (.calLit a) s = .next u ∧
      u.getReg .ip = zextAddr a ∧ u.getReg .sp = zextAddr (s.sp - 80) ∧
      u.getReg .fp = zextAddr (s.sp - 80) ∧ u.getReg .bp = zextAddr s.sp ∧
      (∀ k, (h : k < (frameWords s (s.pc + 5)).length) →
        HoldsValue u (frameAddr s.sp k) 8 (frameWords s (s.pc + 5))[k]) ∧
      (∀ b, (∀ k, k < 10 → b < frameAddr s.sp k ∨ frameAddr s.sp k + 8 ≤ b) →
        u.byte b = s.byte b) ∧
      u.fsz = 0 ∧ u.ctgt = some a ∧ KeepsRegs [.ip, .sp, .fp, .bp] s u ∧ KeepsControl s u

/-- R175, R171, R173 (D6, D7): CAL_REG, the same with the target in the low 32 bits of a register read
before the frame is pushed. -/
def Obligations.CalRegPushesFrameAndJumps : Prop :=
  ∀ (r : Reg) (s : State), Memory.wf s.mem = true →
    (∀ k, k < 10 → frameAddr s.sp k + 8 ≤ s.memSize) →
    let a : Addr := (operandSlot s 2 r).setWidth 32
    ∃ u, exec (.calReg r) s = .next u ∧
      u.getReg .ip = zextAddr a ∧ u.getReg .sp = zextAddr (s.sp - 80) ∧
      u.getReg .fp = zextAddr (s.sp - 80) ∧ u.getReg .bp = zextAddr s.sp ∧
      (∀ k, (h : k < (frameWords s (s.pc + 2)).length) →
        HoldsValue u (frameAddr s.sp k) 8 (frameWords s (s.pc + 2))[k]) ∧
      (∀ b, (∀ k, k < 10 → b < frameAddr s.sp k ∨ frameAddr s.sp k + 8 ≤ b) →
        u.byte b = s.byte b) ∧
      u.fsz = 0 ∧ u.ctgt = some a ∧ KeepsRegs [.ip, .sp, .fp, .bp] s u ∧ KeepsControl s u

/-- R174, R175, R195 (D14): a call faults on the first of its ten writes that leaves memory. -/
def Obligations.CallFaultsOnFirstWriteOutside : Prop :=
  ∀ (a : Addr) (r : Reg) (s : State) (k : Nat), k < 10 →
    (∀ j, j < k → frameAddr s.sp j + 8 ≤ s.memSize) → s.memSize < frameAddr s.sp k + 8 →
    exec (.calLit a) s = .fault (.outOfRange (frameAddr s.sp k) 8 .write s.pc) ∧
    exec (.calReg r) s = .fault (.outOfRange (frameAddr s.sp k) 8 .write s.pc)

/-- R176 (D10): TAILCALL jumps to the remembered target and changes nothing else; with none remembered
it faults. -/
def Obligations.TailcallJumpsToRememberedTarget : Prop :=
  ∀ s : State,
    (∀ a, s.ctgt = some a → ∃ u, exec .tailcall s = .next u ∧ u.getReg .ip = zextAddr a ∧
      KeepsRegs [.ip] s u ∧ KeepsMemory s u ∧ KeepsHidden s u ∧ KeepsControl s u) ∧
    (s.ctgt = none → exec .tailcall s = .fault (.noCallTarget s.pc))

/-- R177 (D6, D8): RET restores the nine saved slots, drops the frame and the bytes its size field
counts, and clears the call target. -/
def Obligations.RetRestoresFrame : Prop :=
  ∀ s : State, s.memSize ≤ 2 ^ 32 → s.fp.toNat + 88 ≤ s.memSize →
    80 ≤ (frameField s 1).toNat →
    ((frameField s 1).toNat = 80 ∨ s.fp.toNat + (frameField s 1).toNat < s.memSize) →
    ∃ u, exec .ret s = .next u ∧
      u.getReg .ip = frameField s 2 ∧ u.getReg .r8 = frameField s 3 ∧
      u.getReg .r7 = frameField s 4 ∧ u.getReg .r6 = frameField s 5 ∧
      u.getReg .r5 = frameField s 6 ∧ u.getReg .r4 = frameField s 7 ∧
      u.getReg .r3 = frameField s 8 ∧ u.getReg .r2 = frameField s 9 ∧
      u.getReg .r1 = frameField s 10 ∧
      u.getReg .sp = zextAddr (s.fp + (frameField s 1).setWidth 32) ∧
      u.getReg .fp = zextAddr (s.fp + (frameField s 1).setWidth 32) ∧
      u.fsz = 0 ∧ u.ctgt = none ∧
      u.getReg .acc = s.getReg .acc ∧ u.getReg .bp = s.getReg .bp ∧
      KeepsMemory s u ∧ KeepsControl s u

/-- R177, R195 (D8, D14): RET's faults, in their order: the first of the ten reads that leaves memory,
then a size field below 80, then the first discarded byte outside memory. -/
def Obligations.RetFaultsInOrder : Prop :=
  ∀ s : State, s.memSize ≤ 2 ^ 32 →
    (∀ k, 1 ≤ k → k ≤ 10 → (k = 1 ∨ s.fp.toNat + 8 * k ≤ s.memSize) →
      s.memSize < s.fp.toNat + 8 * k + 8 →
      exec .ret s = .fault (.outOfRange (s.fp.toNat + 8 * k) 8 .read s.pc)) ∧
    (s.fp.toNat + 88 ≤ s.memSize → (frameField s 1).toNat < 80 →
      exec .ret s = .fault (.badFrameSize (frameField s 1) (s.fp.toNat + 8) s.pc)) ∧
    (s.fp.toNat + 88 ≤ s.memSize → 80 < (frameField s 1).toNat →
      s.memSize ≤ s.fp.toNat + (frameField s 1).toNat →
      exec .ret s = .fault (.outOfRange (max (s.fp.toNat + 81) s.memSize) 1 .read s.pc))

/-- R177: the discard loop, one byte at a time, ends as the closed form that RET uses says: the same
fault, or the same state but for the counter, which RET then clears. -/
def Obligations.DiscardLoopEqualsClosedForm : Prop :=
  ∀ (pc0 : Addr) (n : Nat) (s : State), s.memSize ≤ 2 ^ 32 → s.getReg .sp = zextAddr s.sp →
    popBytes pc0 n s =
      (discardBytes pc0 n s).map (fun u => { u with fsz := s.fsz - BitVec.ofNat 64 n })

/-- R178: between steps, the counter is the distance from `sp` up to the frame boundary: every
instruction that does not name `sp` or `fp` as its destination keeps it so. -/
def Obligations.StepKeepsFrameChain : Prop :=
  ∀ (s u : State) (i : Instr), s.inv = true → s.status = .run → FrameChain s →
    decodeAt s = .ok i → setsStackPointer i = false → step s = .next u → FrameChain u

/-- R180, R178: after a call, whatever ran in between, a RET that finds the frame's bytes and the frame
pointer as the call left them returns behind the call with `r1` to `r8` as they were, `acc` as the
callee left it, and, when the caller's counter was its distance to the frame boundary, with the
caller's frame pointer. -/
def Obligations.ReturnAfterCallRestoresCaller : Prop :=
  ∀ (i : Instr) (a : Addr) (r : Reg) (s u v : State), s.inv = true →
    (i = .calLit a ∨ i = .calReg r) → exec i s = .next u →
    v.memSize = u.memSize → v.fp = u.fp →
    (∀ b, s.sp.toNat ≤ b + 72 → b < s.sp.toNat + 8 → v.byte b = u.byte b) →
    80 ≤ s.sp.toNat → s.fsz.toNat + 80 < 2 ^ 64 →
    (s.fsz = 0 ∨ s.sp.toNat + s.fsz.toNat < s.memSize) →
    ∃ w, exec .ret v = .next w ∧
      w.getReg .ip = zextAddr (s.pc + BitVec.ofNat 32 i.length) ∧
      (∀ q, q ∈ ([.r1, .r2, .r3, .r4, .r5, .r6, .r7, .r8] : List Reg) →
        w.getReg q = s.getReg q) ∧
      w.getReg .acc = v.getReg .acc ∧ w.sp = w.fp ∧
      w.sp.toNat = s.sp.toNat + s.fsz.toNat ∧
      (FrameChain s → w.fp = s.fp) ∧ w.ctgt = none

/-! ## Rules of the whole machine -/

/-- R117, R153: `pc` ends at the next instruction unless the instruction is a jump, a call, a return, a
tail call, or names `ip` as its destination. -/
def Obligations.OnlyTransfersLeaveSequence : Prop :=
  ∀ (i : Instr) (s u : State), exec i s = .next u →
    u.getReg .ip = zextAddr (s.pc + BitVec.ofNat 32 i.length) ∨
      (∃ t lit a, i = .jmpNotEq t lit a) ∨ (∃ a, i = .calLit a) ∨ (∃ r, i = .calReg r) ∨
      i = .ret ∨ i = .tailcall ∨ (∃ t lit, i = .movLitReg t lit .ip) ∨
      (∃ t r, i = .movRegReg t r .ip) ∨ (∃ t a, i = .movMemReg t a .ip) ∨ (∃ t, i = .pop t .ip)

/-- R51, R117: only MOV_REG_MEM, the pushes and the calls write memory. -/
def Obligations.OnlyStoresPushesAndCallsWriteMemory : Prop :=
  ∀ (i : Instr) (s u : State), exec i s = .next u → u.mem ≠ s.mem →
    (∃ t r a, i = .movRegMem t r a) ∨ (∃ t lit, i = .pshLit t lit) ∨ (∃ t r, i = .pshReg t r) ∨
      (∃ a, i = .calLit a) ∨ (∃ r, i = .calReg r)

/-- R33, R34, R117: only the calls and RET write the call target, a call setting it and RET clearing
it; only pushes, pops, calls and RET write the frame-byte counter, the last two clearing it. -/
def Obligations.OnlyStackAndCallsWriteHiddenState : Prop :=
  ∀ (i : Instr) (s u : State), exec i s = .next u →
    (u.ctgt ≠ s.ctgt →
      (∃ a, i = .calLit a ∧ u.ctgt = some a) ∨
      (∃ r, i = .calReg r ∧ u.ctgt = some ((operandSlot s 2 r).setWidth 32)) ∨
      (i = .ret ∧ u.ctgt = none)) ∧
    (u.fsz ≠ s.fsz →
      (∃ t lit, i = .pshLit t lit ∧ u.fsz = s.fsz + BitVec.ofNat 64 t.width) ∨
      (∃ t r, i = .pshReg t r ∧ u.fsz = s.fsz + BitVec.ofNat 64 t.width) ∨
      (∃ t d, i = .pop t d ∧ u.fsz = s.fsz - BitVec.ofNat 64 t.width) ∨
      ((∃ a, i = .calLit a) ∨ (∃ r, i = .calReg r) ∨ i = .ret) ∧ u.fsz = 0)

/-- R38, R41, R50: every step keeps memory's canonical form and its bytes inside it, and its size. -/
def Obligations.StepKeepsInvariant : Prop :=
  ∀ s u : State, s.inv = true → step s = .next u →
    u.inv = true ∧ u.memSize = s.memSize ∧ u.status = .run

/-! ## Memory -/

/-- R54, R52: `MemWrite` puts the bytes of the value most significant first at the address, changes no
byte outside, and faults when they do not all lie in memory. -/
def Obligations.MemWriteStoresBigEndian : Prop :=
  ∀ (pc0 : Addr) (s : State) (addr n : Nat) (v : Word), Memory.wf s.mem = true →
    (s.memSize < addr + n → memWrite pc0 s addr n v = .error (.outOfRange addr n .write pc0)) ∧
    (addr + n ≤ s.memSize → ∃ u, memWrite pc0 s addr n v = .ok u ∧
      HoldsValue u addr n v ∧ KeepsMemoryOutside addr n s u ∧
      KeepsRegs [] s u ∧ KeepsHidden s u ∧ KeepsControl s u)

/-- R53: `MemRead` gives the bytes at the address, the first most significant, and faults when they do
not all lie in memory. -/
def Obligations.MemReadLoadsBigEndian : Prop :=
  ∀ (pc0 : Addr) (s : State) (addr n : Nat), n ∈ [1, 2, 4, 8] →
    (s.memSize < addr + n → memRead pc0 s addr n = .error (.outOfRange addr n .read pc0)) ∧
    (addr + n ≤ s.memSize → ∃ v, memRead pc0 s addr n = .ok v ∧
      v.toNat < 2 ^ (8 * n) ∧ HoldsValue s addr n v)

/-- R52, R58: a store read back at another width and another offset inside it gives the bytes that lie
there; no address need be aligned. -/
def Obligations.MixedWidthAccessSeesBytes : Prop :=
  ∀ (s u : State) (addr n off m : Nat) (v : Word), Memory.wf s.mem = true →
    s.store addr n v = some u → off + m ≤ n →
    u.load (addr + off) m = some (v.toNat / 256 ^ (n - off - m) % 256 ^ m)

/-! ## Reset and the host -/

/-- R40 (D18; the size is log entry 1): the state after reset. -/
def Obligations.ResetValues : Prop :=
  State.reset.status = .run ∧ State.reset.fsz = 0 ∧ State.reset.ctgt = none ∧
  (∀ r, r ∈ ([.sp, .fp, .bp] : List Reg) →
    (State.reset.getReg r).toNat = State.reset.memSize - 8) ∧
  (∀ r, r ∈ ([.ip, .acc, .r1, .r2, .r3, .r4, .r5, .r6, .r7, .r8] : List Reg) →
    State.reset.getReg r = 0) ∧
  (∀ a, State.reset.byte a = Config.unlistedByte)

/-- The invariants hold at reset. -/
def Obligations.ResetMeetsInvariants : Prop :=
  State.reset.inv = true ∧ FrameChain State.reset ∧ Launch State.reset

/-- R40, R220, R5 (D18, D19): construction with any admitted size and any initial contents. -/
def Obligations.ConstructionHoldsItsParameters : Prop :=
  ∀ (memSize : Nat) (memInit : Nat → Byte), 8 ≤ memSize → memSize ≤ 2 ^ 32 →
    ∃ s, hostConstruct memSize memInit = .ok s ∧ s.memSize = memSize ∧
      (∀ a, a < memSize → s.byte a = memInit a) ∧ s.inv = true ∧ FrameChain s ∧
      (∀ r, r ∈ ([.sp, .fp, .bp] : List Reg) → (s.getReg r).toNat = memSize - 8) ∧
      (∀ r, r ∈ ([.ip, .acc, .r1, .r2, .r3, .r4, .r5, .r6, .r7, .r8] : List Reg) →
        s.getReg r = 0)

/-- R224: whatever the host wrote, a launch state runs, has counted nothing and remembers no target. -/
def Obligations.LaunchStatesAreClean : Prop :=
  ∀ s : State, Launch s → s.status = .run ∧ s.fsz = 0 ∧ s.ctgt = none ∧ s.inv = true

/-- R27, S1 (D2, D22): a register value set by the host reads back, of every type, at every offset in
range, and the slot's other bytes and all other slots are unchanged; zeroing a register clears its
whole slot and changes nothing else. -/
def Obligations.HostSetReadsBackAndZeroClears : Prop :=
  (∀ (t : ScalarType) (r : Reg) (v : HostValue) (o : Nat) (s : State), v.ofType t = true →
    o + t.width ≤ 8 →
    ∃ u, hostSet t (Reg.name r) v o s = .ok u ∧ hostGet t (Reg.name r) o u = .ok v ∧
      (∀ k, k < 8 → k < o ∨ o + t.width ≤ k →
        sliceBytes (u.getReg r) k 1 = sliceBytes (s.getReg r) k 1) ∧
      KeepsRegs [r] s u ∧ KeepsMemory s u ∧ KeepsHidden s u ∧ KeepsControl s u) ∧
  (∀ (r : Reg) (s : State), ∃ u, hostZero (Reg.name r) s = .ok u ∧ u.getReg r = 0 ∧
    KeepsRegs [r] s u ∧ KeepsMemory s u ∧ KeepsHidden s u ∧ KeepsControl s u)

/-- R27, R191, R200 (D22): a name that is not one of the thirteen, or an access that leaves the slot,
fails the call. Where a call has both faults it is the name that is reported: the model's choice (log
entry 18, DESIGN CHOICE). -/
def Obligations.HostRegisterErrors : Prop :=
  ∀ (t : ScalarType) (name : String) (v : HostValue) (o : Nat) (s : State),
    ((∀ r : Reg, Reg.name r ≠ name) →
      hostGet t name o s = .error (.unknownRegister name) ∧
      hostSet t name v o s = .error (.unknownRegister name) ∧
      hostZero name s = .error (.unknownRegister name)) ∧
    (∀ r : Reg, Reg.name r = name → 8 < o + t.width →
      hostGet t name o s = .error (.regOffsetRange name o t) ∧
      hostSet t name v o s = .error (.regOffsetRange name o t))

/-- R66: a value stored by the host loads back, and no byte outside it changes; a host access outside
memory fails. That the failed call changes nothing is the model's reading (log entry 11, DEDUCED), and
that its error names no `pc0` is the model's choice (log entry 21, DESIGN CHOICE). -/
def Obligations.HostStoreThenLoad : Prop :=
  ∀ (t : ScalarType) (addr : Nat) (v : HostValue) (s : State), Memory.wf s.mem = true →
    v.ofType t = true →
    (addr + t.width ≤ s.memSize →
      ∃ u, hostStore t addr v s = .ok u ∧ hostLoad t addr u = .ok v ∧
        KeepsMemoryOutside addr t.width s u ∧ KeepsRegs [] s u ∧ KeepsHidden s u ∧
        KeepsControl s u) ∧
    (s.memSize < addr + t.width →
      hostStore t addr v s = .error (.outOfRange addr t.width .write) ∧
      hostLoad t addr s = .error (.outOfRange addr t.width .read))
end

