-- ==== Sys2Proof/Laws/State.lean ====
section
/-! SUPPORT. One lemma per field per update of the state, so that no later proof unfolds an update. -/

namespace Sys2Proof.Machine

variable (s : State) (r q : Reg) (v : Word) (a : Addr) (n : Nat) (t : ScalarType) (f : Fault)

/-! ## Slots -/

@[simp] theorem Regs.get_set (x : Regs) (v : Word) (r q : Reg) :
    (x.set v r).get q = if q = r then v else x.get q := by
  cases r <;> cases q <;> rfl

@[simp] theorem State.getReg_setReg :
    (s.setReg r v).getReg q = if q = r then v else s.getReg q := by
  simp [State.getReg, State.setReg]

theorem State.getReg_setReg_self : (s.setReg r v).getReg r = v := by simp

theorem State.getReg_setReg_ne (h : q ≠ r) : (s.setReg r v).getReg q = s.getReg q := by simp [h]

@[simp] theorem State.setReg_mem : (s.setReg r v).mem = s.mem := rfl
@[simp] theorem State.setReg_fsz : (s.setReg r v).fsz = s.fsz := rfl
@[simp] theorem State.setReg_ctgt : (s.setReg r v).ctgt = s.ctgt := rfl
@[simp] theorem State.setReg_status : (s.setReg r v).status = s.status := rfl
@[simp] theorem State.setReg_memSize : (s.setReg r v).memSize = s.memSize := rfl
@[simp] theorem State.setReg_haltFlag : (s.setReg r v).haltFlag = s.haltFlag := rfl
@[simp] theorem State.setReg_byte : (s.setReg r v).byte n = s.byte n := rfl

/-! ## Addresses in slots -/

@[simp] theorem setWidth_zextAddr : (zextAddr a).setWidth 32 = a := by
  apply BitVec.eq_of_toNat_eq
  simp [zextAddr]

@[simp] theorem State.getReg_setAddr :
    (s.setAddr r a).getReg q = if q = r then zextAddr a else s.getReg q := by
  simp [State.setAddr]

@[simp] theorem State.addrOf_setAddr :
    (s.setAddr r a).addrOf q = if q = r then a else s.addrOf q := by
  simp only [State.addrOf, State.getReg_setAddr]
  split <;> simp

@[simp] theorem State.addrOf_setReg :
    (s.setReg r v).addrOf q = if q = r then v.setWidth 32 else s.addrOf q := by
  simp only [State.addrOf, State.getReg_setReg]
  split <;> simp

@[simp] theorem State.setAddr_mem : (s.setAddr r a).mem = s.mem := rfl
@[simp] theorem State.setAddr_fsz : (s.setAddr r a).fsz = s.fsz := rfl
@[simp] theorem State.setAddr_ctgt : (s.setAddr r a).ctgt = s.ctgt := rfl
@[simp] theorem State.setAddr_status : (s.setAddr r a).status = s.status := rfl
@[simp] theorem State.setAddr_memSize : (s.setAddr r a).memSize = s.memSize := rfl
@[simp] theorem State.setAddr_haltFlag : (s.setAddr r a).haltFlag = s.haltFlag := rfl
@[simp] theorem State.setAddr_byte : (s.setAddr r a).byte n = s.byte n := rfl

/-! ## The fetch -/

@[simp] theorem State.getReg_afterFetch :
    (s.afterFetch n).getReg q =
      if q = .ip then zextAddr (s.pc + BitVec.ofNat 32 n) else s.getReg q := by
  show (s.setAddr .ip (s.pc + BitVec.ofNat 32 n)).getReg q = _
  simp

@[simp] theorem State.addrOf_afterFetch :
    (s.afterFetch n).addrOf q = if q = .ip then s.pc + BitVec.ofNat 32 n else s.addrOf q := by
  show (s.setAddr .ip (s.pc + BitVec.ofNat 32 n)).addrOf q = _
  simp

@[simp] theorem State.afterFetch_mem : (s.afterFetch n).mem = s.mem := rfl
@[simp] theorem State.afterFetch_fsz : (s.afterFetch n).fsz = s.fsz := rfl
@[simp] theorem State.afterFetch_ctgt : (s.afterFetch n).ctgt = s.ctgt := rfl
@[simp] theorem State.afterFetch_status : (s.afterFetch n).status = s.status := rfl
@[simp] theorem State.afterFetch_memSize : (s.afterFetch n).memSize = s.memSize := rfl
@[simp] theorem State.afterFetch_haltFlag : (s.afterFetch n).haltFlag = false := rfl
@[simp] theorem State.afterFetch_byte (b : Nat) : (s.afterFetch n).byte b = s.byte b := rfl

/-! ## Typed writes -/

@[simp] theorem State.getReg_setz :
    (s.setz t r v).getReg q = if q = r then lowBytes t.width v else s.getReg q := by
  simp [State.setz]

@[simp] theorem State.getReg_setnz :
    (s.setnz t r v).getReg q =
      if q = r then insertBytes (s.getReg r) 0 t.width v else s.getReg q := by
  simp [State.setnz]

@[simp] theorem State.setz_mem : (s.setz t r v).mem = s.mem := rfl
@[simp] theorem State.setz_fsz : (s.setz t r v).fsz = s.fsz := rfl
@[simp] theorem State.setz_ctgt : (s.setz t r v).ctgt = s.ctgt := rfl
@[simp] theorem State.setz_status : (s.setz t r v).status = s.status := rfl
@[simp] theorem State.setz_memSize : (s.setz t r v).memSize = s.memSize := rfl
@[simp] theorem State.setz_haltFlag : (s.setz t r v).haltFlag = s.haltFlag := rfl
@[simp] theorem State.setz_byte : (s.setz t r v).byte n = s.byte n := rfl

@[simp] theorem State.setnz_mem : (s.setnz t r v).mem = s.mem := rfl
@[simp] theorem State.setnz_fsz : (s.setnz t r v).fsz = s.fsz := rfl
@[simp] theorem State.setnz_ctgt : (s.setnz t r v).ctgt = s.ctgt := rfl
@[simp] theorem State.setnz_status : (s.setnz t r v).status = s.status := rfl
@[simp] theorem State.setnz_memSize : (s.setnz t r v).memSize = s.memSize := rfl
@[simp] theorem State.setnz_haltFlag : (s.setnz t r v).haltFlag = s.haltFlag := rfl
@[simp] theorem State.setnz_byte : (s.setnz t r v).byte n = s.byte n := rfl

/-! ## Output and status -/

@[simp] theorem State.getReg_setHalt : s.setHalt.getReg q = s.getReg q := rfl
@[simp] theorem State.setHalt_mem : s.setHalt.mem = s.mem := rfl
@[simp] theorem State.setHalt_fsz : s.setHalt.fsz = s.fsz := rfl
@[simp] theorem State.setHalt_ctgt : s.setHalt.ctgt = s.ctgt := rfl
@[simp] theorem State.setHalt_status : s.setHalt.status = s.status := rfl
@[simp] theorem State.setHalt_memSize : s.setHalt.memSize = s.memSize := rfl
@[simp] theorem State.setHalt_haltFlag : s.setHalt.haltFlag = true := rfl
@[simp] theorem State.setHalt_byte : s.setHalt.byte n = s.byte n := rfl

@[simp] theorem State.getReg_takeFault : (s.takeFault f).getReg q = s.getReg q := rfl
@[simp] theorem State.takeFault_mem : (s.takeFault f).mem = s.mem := rfl
@[simp] theorem State.takeFault_fsz : (s.takeFault f).fsz = s.fsz := rfl
@[simp] theorem State.takeFault_ctgt : (s.takeFault f).ctgt = s.ctgt := rfl
@[simp] theorem State.takeFault_status : (s.takeFault f).status = .fault f := rfl
@[simp] theorem State.takeFault_memSize : (s.takeFault f).memSize = s.memSize := rfl
@[simp] theorem State.takeFault_haltFlag : (s.takeFault f).haltFlag = s.haltFlag := rfl

/-! ## Updates of one hidden field -/

@[simp] theorem State.setFsz_mem (w : Word) : (s.setFsz w).mem = s.mem := rfl
@[simp] theorem State.setFsz_fsz (w : Word) : (s.setFsz w).fsz = w := rfl
@[simp] theorem State.setFsz_ctgt (w : Word) : (s.setFsz w).ctgt = s.ctgt := rfl
@[simp] theorem State.setFsz_status (w : Word) : (s.setFsz w).status = s.status := rfl
@[simp] theorem State.setFsz_memSize (w : Word) : (s.setFsz w).memSize = s.memSize := rfl
@[simp] theorem State.setFsz_haltFlag (w : Word) : (s.setFsz w).haltFlag = s.haltFlag := rfl
@[simp] theorem State.getReg_setFsz (w : Word) : (s.setFsz w).getReg q = s.getReg q := rfl
@[simp] theorem State.addrOf_setFsz (w : Word) : (s.setFsz w).addrOf q = s.addrOf q := rfl
@[simp] theorem State.setFsz_byte (w : Word) : (s.setFsz w).byte n = s.byte n := rfl

@[simp] theorem State.setCtgt_mem (c : Option Addr) : (s.setCtgt c).mem = s.mem := rfl
@[simp] theorem State.setCtgt_fsz (c : Option Addr) : (s.setCtgt c).fsz = s.fsz := rfl
@[simp] theorem State.setCtgt_ctgt (c : Option Addr) : (s.setCtgt c).ctgt = c := rfl
@[simp] theorem State.setCtgt_status (c : Option Addr) : (s.setCtgt c).status = s.status := rfl
@[simp] theorem State.setCtgt_memSize (c : Option Addr) : (s.setCtgt c).memSize = s.memSize := rfl
@[simp] theorem State.setCtgt_haltFlag (c : Option Addr) : (s.setCtgt c).haltFlag = s.haltFlag := rfl
@[simp] theorem State.getReg_setCtgt (c : Option Addr) : (s.setCtgt c).getReg q = s.getReg q := rfl
@[simp] theorem State.addrOf_setCtgt (c : Option Addr) : (s.setCtgt c).addrOf q = s.addrOf q := rfl
@[simp] theorem State.setCtgt_byte (c : Option Addr) : (s.setCtgt c).byte n = s.byte n := rfl

@[simp] theorem State.setMem_mem (m : Memory) : (s.setMem m).mem = m := rfl
@[simp] theorem State.setMem_fsz (m : Memory) : (s.setMem m).fsz = s.fsz := rfl
@[simp] theorem State.setMem_ctgt (m : Memory) : (s.setMem m).ctgt = s.ctgt := rfl
@[simp] theorem State.setMem_status (m : Memory) : (s.setMem m).status = s.status := rfl
@[simp] theorem State.setMem_memSize (m : Memory) : (s.setMem m).memSize = s.memSize := rfl
@[simp] theorem State.setMem_haltFlag (m : Memory) : (s.setMem m).haltFlag = s.haltFlag := rfl
@[simp] theorem State.getReg_setMem (m : Memory) : (s.setMem m).getReg q = s.getReg q := rfl
@[simp] theorem State.addrOf_setMem (m : Memory) : (s.setMem m).addrOf q = s.addrOf q := rfl
@[simp] theorem State.setMem_byte (m : Memory) : (s.setMem m).byte n = Memory.read m n := rfl

@[simp] theorem State.setHaltFlag_mem (b : Bool) : (s.setHaltFlag b).mem = s.mem := rfl
@[simp] theorem State.setHaltFlag_fsz (b : Bool) : (s.setHaltFlag b).fsz = s.fsz := rfl
@[simp] theorem State.setHaltFlag_ctgt (b : Bool) : (s.setHaltFlag b).ctgt = s.ctgt := rfl
@[simp] theorem State.setHaltFlag_status (b : Bool) : (s.setHaltFlag b).status = s.status := rfl
@[simp] theorem State.setHaltFlag_memSize (b : Bool) : (s.setHaltFlag b).memSize = s.memSize := rfl
@[simp] theorem State.setHaltFlag_haltFlag (b : Bool) : (s.setHaltFlag b).haltFlag = b := rfl
@[simp] theorem State.getReg_setHaltFlag (b : Bool) : (s.setHaltFlag b).getReg q = s.getReg q := rfl
@[simp] theorem State.addrOf_setHaltFlag (b : Bool) : (s.setHaltFlag b).addrOf q = s.addrOf q := rfl
@[simp] theorem State.setHaltFlag_byte (b : Bool) : (s.setHaltFlag b).byte n = s.byte n := rfl

/-! ## The named addresses are slots -/

theorem State.sp_def : s.sp = s.addrOf .sp := rfl
theorem State.fp_def : s.fp = s.addrOf .fp := rfl
theorem State.pc_def : s.pc = s.addrOf .ip := rfl

/-- A state is its fields: the slots are read one by one. -/
theorem State.ext_slots {s u : State} (hr : ∀ r, s.getReg r = u.getReg r) (hm : s.mem = u.mem)
    (hf : s.fsz = u.fsz) (hc : s.ctgt = u.ctgt) (hs : s.status = u.status)
    (hz : s.memSize = u.memSize) (hh : s.haltFlag = u.haltFlag) : s = u := by
  obtain ⟨x, m, fz, c, st, z, h⟩ := s
  obtain ⟨x', m', fz', c', st', z', h'⟩ := u
  have hx : x = x' := by
    obtain ⟨_, _, _, _, _, _, _, _, _, _, _, _, _⟩ := x
    obtain ⟨_, _, _, _, _, _, _, _, _, _, _, _, _⟩ := x'
    simp only [Regs.mk.injEq]
    exact ⟨hr .ip, hr .acc, hr .r1, hr .r2, hr .r3, hr .r4, hr .r5, hr .r6, hr .r7, hr .r8,
      hr .sp, hr .fp, hr .bp⟩
  simp_all

end Sys2Proof.Machine
end

