-- ==== Sys2Proof/Laws/Memory.lean ====
section
/-! SUPPORT. The laws of memory: a read after a write, the canonical form is kept by every memory
operation and makes equal contents equal lists, and the loader and store unit undo each other. -/

namespace Sys2Proof.Machine

/-! ## One byte -/

theorem Memory.wfFrom_mono {m : Memory} {lo hi : Nat} (h : lo ≤ hi) :
    Memory.wfFrom hi m = true → Memory.wfFrom lo m = true := by
  cases m with
  | nil => simp [Memory.wfFrom]
  | cons c t =>
    obtain ⟨b, w⟩ := c
    simp only [Memory.wfFrom, Bool.and_eq_true, decide_eq_true_eq]
    rintro ⟨⟨h1, h2⟩, h3⟩
    exact ⟨⟨by omega, h2⟩, h3⟩

theorem Memory.read_below {m : Memory} {lo a : Nat} (h : Memory.wfFrom lo m = true) (ha : a < lo) :
    Memory.read m a = Config.unlistedByte := by
  induction m generalizing lo with
  | nil => rfl
  | cons c t ih =>
    obtain ⟨b, w⟩ := c
    simp only [Memory.wfFrom, Bool.and_eq_true, decide_eq_true_eq] at h
    obtain ⟨⟨h1, -⟩, h3⟩ := h
    simp only [Memory.read]
    rw [if_neg (by omega)]
    exact ih h3 (by omega)

/-- A write leaves every other byte alone, in any memory. -/
theorem Memory.read_write_ne (m : Memory) {a b : Nat} (v : Byte) (h : b ≠ a) :
    Memory.read (Memory.write m a v) b = Memory.read m b := by
  induction m with
  | nil =>
    simp only [Memory.write]
    split <;> simp [Memory.read, h]
  | cons c t ih =>
    obtain ⟨d, w⟩ := c
    simp only [Memory.write]
    split
    · split <;> simp [Memory.read, h]
    · split
      · rename_i hda
        subst hda
        split <;> simp [Memory.read, h]
      · simp only [Memory.read, ih]

theorem Memory.read_write_self {m : Memory} {lo a : Nat} (v : Byte)
    (h : Memory.wfFrom lo m = true) : Memory.read (Memory.write m a v) a = v := by
  induction m generalizing lo with
  | nil =>
    simp only [Memory.write]
    split
    · simp_all [Memory.read]
    · simp [Memory.read]
  | cons c t ih =>
    obtain ⟨d, w⟩ := c
    simp only [Memory.wfFrom, Bool.and_eq_true, decide_eq_true_eq] at h
    obtain ⟨⟨h1, h2⟩, h3⟩ := h
    simp only [Memory.write]
    split
    · rename_i hlt
      split
      · rename_i hv
        simp only [Memory.read]
        rw [if_neg (by omega), hv]
        exact Memory.read_below h3 (by omega)
      · simp [Memory.read]
    · split
      · rename_i hda
        subst hda
        split
        · rename_i hv
          rw [hv]
          exact Memory.read_below h3 (by omega)
        · simp [Memory.read]
      · rename_i hda
        simp only [Memory.read]
        rw [if_neg hda]
        exact ih h3

theorem Memory.wfFrom_write {m : Memory} {lo a : Nat} (v : Byte) (h : Memory.wfFrom lo m = true)
    (ha : lo ≤ a) : Memory.wfFrom lo (Memory.write m a v) = true := by
  induction m generalizing lo with
  | nil =>
    simp only [Memory.write]
    split <;> simp_all [Memory.wfFrom]
  | cons c t ih =>
    obtain ⟨d, w⟩ := c
    have h0 := h
    simp only [Memory.wfFrom, Bool.and_eq_true, decide_eq_true_eq] at h
    obtain ⟨⟨h1, h2⟩, h3⟩ := h
    simp only [Memory.write]
    split
    · split
      · exact h0
      · simp only [Memory.wfFrom, Bool.and_eq_true, decide_eq_true_eq]
        exact ⟨⟨ha, by assumption⟩, ⟨by omega, h2⟩, h3⟩
    · split
      · split
        · exact Memory.wfFrom_mono (by omega) h3
        · simp only [Memory.wfFrom, Bool.and_eq_true, decide_eq_true_eq]
          refine ⟨⟨ha, by assumption⟩, ?_⟩
          rename_i hda _
          subst hda
          exact h3
      · simp only [Memory.wfFrom, Bool.and_eq_true, decide_eq_true_eq]
        exact ⟨⟨h1, h2⟩, ih h3 (by omega)⟩

/-- A write keeps the canonical form. -/
theorem Memory.wf_write {m : Memory} (a : Nat) (v : Byte) (h : m.wf = true) :
    (Memory.write m a v).wf = true := Memory.wfFrom_write v h (Nat.zero_le a)

/-- The law of one byte. -/
theorem Memory.read_write {m : Memory} (h : m.wf = true) (a b : Nat) (v : Byte) :
    Memory.read (Memory.write m a v) b = if b = a then v else Memory.read m b := by
  split
  · subst b; exact Memory.read_write_self v h
  · exact Memory.read_write_ne m v (by assumption)

/-- Equal contents are equal lists. -/
theorem Memory.ext_of_wf {m m' : Memory} {lo : Nat} (h : Memory.wfFrom lo m = true)
    (h' : Memory.wfFrom lo m' = true) (hr : ∀ a, Memory.read m a = Memory.read m' a) : m = m' := by
  induction m generalizing m' lo with
  | nil =>
    cases m' with
    | nil => rfl
    | cons c t =>
      obtain ⟨b, w⟩ := c
      simp only [Memory.wfFrom, Bool.and_eq_true, decide_eq_true_eq] at h'
      have := hr b
      simp only [Memory.read, ite_true] at this
      exact absurd this.symm h'.1.2
  | cons c t ih =>
    obtain ⟨b, w⟩ := c
    simp only [Memory.wfFrom, Bool.and_eq_true, decide_eq_true_eq] at h
    obtain ⟨⟨h1, h2⟩, h3⟩ := h
    cases m' with
    | nil =>
      have := hr b
      simp only [Memory.read, ite_true] at this
      exact absurd this h2
    | cons c' t' =>
      obtain ⟨b', w'⟩ := c'
      simp only [Memory.wfFrom, Bool.and_eq_true, decide_eq_true_eq] at h'
      obtain ⟨⟨h1', h2'⟩, h3'⟩ := h'
      have hbb : b = b' := by
        rcases Nat.lt_trichotomy b b' with hlt | heq | hgt
        · have := hr b
          simp only [Memory.read, ite_true, if_neg (show ¬ b = b' by omega)] at this
          rw [Memory.read_below h3' (by omega)] at this
          exact absurd this h2
        · exact heq
        · have := hr b'
          simp only [Memory.read, ite_true, if_neg (show ¬ b' = b by omega)] at this
          rw [Memory.read_below h3 (by omega)] at this
          exact absurd this.symm h2'
      subst hbb
      have hww : w = w' := by simpa [Memory.read] using hr b
      subst hww
      rw [ih h3 h3' (fun a => ?_)]
      rcases Nat.lt_or_ge b a with hlt | hge
      · have := hr a
        simpa [Memory.read, show ¬ a = b by omega] using this
      · rw [Memory.read_below h3 (by omega), Memory.read_below h3' (by omega)]

/-! ## Byte sequences -/

@[simp] theorem Memory.length_readBytes (m : Memory) (a n : Nat) :
    (Memory.readBytes m a n).length = n := by
  induction n generalizing a with
  | zero => rfl
  | succ n ih => simp [Memory.readBytes, ih]

@[simp] theorem length_beBytes (n v : Nat) : (beBytes n v).length = n := by
  induction n with
  | zero => rfl
  | succ n ih => simp [beBytes, ih]

theorem Memory.wf_writeBytes {m : Memory} (a : Nat) (bs : List Byte) (h : m.wf = true) :
    (Memory.writeBytes m a bs).wf = true := by
  induction bs generalizing m a with
  | nil => exact h
  | cons b bs ih => exact ih (a + 1) (Memory.wf_write a b h)

/-- Bytes outside the written range are unchanged, in any memory. -/
theorem Memory.read_writeBytes_outside (m : Memory) (a b : Nat) (bs : List Byte)
    (h : b < a ∨ a + bs.length ≤ b) :
    Memory.read (Memory.writeBytes m a bs) b = Memory.read m b := by
  induction bs generalizing m a with
  | nil => rfl
  | cons c bs ih =>
    simp only [List.length_cons] at h
    simp only [Memory.writeBytes]
    rw [ih _ _ (by omega), Memory.read_write_ne _ _ (by omega)]

/-- Byte `k` of the written range is byte `k` of the sequence. -/
theorem Memory.read_writeBytes {m : Memory} (h : m.wf = true) (a : Nat) (bs : List Byte) (k : Nat)
    (hk : k < bs.length) : Memory.read (Memory.writeBytes m a bs) (a + k) = bs[k] := by
  induction bs generalizing m a k with
  | nil => simp at hk
  | cons c bs ih =>
    simp only [Memory.writeBytes]
    cases k with
    | zero =>
      rw [Memory.read_writeBytes_outside _ _ _ _ (by omega)]
      simpa using Memory.read_write_self c h
    | succ k =>
      have := ih (Memory.wf_write a c h) (a + 1) k (by simpa using hk)
      simpa [Nat.add_assoc, Nat.add_comm 1 k] using this

theorem Memory.getElem_readBytes (m : Memory) (a n k : Nat) (hk : k < n) :
    (Memory.readBytes m a n)[k]'(by simpa using hk) = Memory.read m (a + k) := by
  induction n generalizing a k with
  | zero => omega
  | succ n ih =>
    cases k with
    | zero => rfl
    | succ k =>
      have := ih (a + 1) k (by omega)
      simpa [Memory.readBytes, Nat.add_assoc, Nat.add_comm 1 k] using this

/-- What is read depends only on the bytes read. -/
theorem Memory.readBytes_congr {m m' : Memory} {a n : Nat}
    (h : ∀ k, k < n → Memory.read m (a + k) = Memory.read m' (a + k)) :
    Memory.readBytes m a n = Memory.readBytes m' a n := by
  apply List.ext_getElem (by simp)
  intro k h1 _
  have hk : k < n := by simpa using h1
  rw [Memory.getElem_readBytes _ _ _ _ hk, Memory.getElem_readBytes _ _ _ _ hk]
  exact h k hk

theorem Memory.readBytes_writeBytes {m : Memory} (h : m.wf = true) (a : Nat) (bs : List Byte) :
    Memory.readBytes (Memory.writeBytes m a bs) a bs.length = bs := by
  apply List.ext_getElem (by simp)
  intro k h1 h2
  rw [Memory.getElem_readBytes _ _ _ _ h2]
  exact Memory.read_writeBytes h a bs k h2

theorem Memory.readBytes_append (m : Memory) (a n k : Nat) :
    Memory.readBytes m a (n + k) = Memory.readBytes m a n ++ Memory.readBytes m (a + n) k := by
  induction n generalizing a with
  | zero => simp [Memory.readBytes]
  | succ n ih =>
    rw [Nat.succ_add]
    simp [Memory.readBytes, ih, Nat.add_assoc, Nat.add_comm 1 n]

/-! ## Big-endian values -/

theorem beValueFrom_eq (acc : Nat) (bs : List Byte) :
    beValueFrom acc bs = acc * 256 ^ bs.length + beValueFrom 0 bs := by
  induction bs generalizing acc with
  | nil => simp [beValueFrom]
  | cons b bs ih =>
    simp only [beValueFrom, List.length_cons]
    rw [ih (acc * 256 + b.toNat), ih (0 * 256 + b.toNat)]
    ring

theorem beValue_cons (b : Byte) (bs : List Byte) :
    beValue (b :: bs) = b.toNat * 256 ^ bs.length + beValue bs := by
  simp only [beValue, beValueFrom]
  rw [beValueFrom_eq]
  simp

theorem beValue_append (bs cs : List Byte) :
    beValue (bs ++ cs) = beValue bs * 256 ^ cs.length + beValue cs := by
  induction bs with
  | nil => simp [beValue, beValueFrom]
  | cons b bs ih =>
    rw [List.cons_append, beValue_cons, beValue_cons, ih, List.length_append, pow_add]
    ring

theorem beValue_lt (bs : List Byte) : beValue bs < 256 ^ bs.length := by
  induction bs with
  | nil => simp [beValue, beValueFrom]
  | cons b bs ih =>
    rw [beValue_cons, List.length_cons, pow_succ]
    have hb : b.toNat < 256 := b.isLt
    nlinarith [Nat.mul_le_mul_right (256 ^ bs.length) (Nat.le_of_lt_succ hb)]

/-- The value of the low `n` bytes of `v`. -/
theorem beValue_beBytes (n v : Nat) : beValue (beBytes n v) = v % 256 ^ n := by
  induction n with
  | zero => simp [beBytes, beValue, beValueFrom, Nat.mod_one]
  | succ n ih =>
    rw [beBytes, beValue_cons, ih, length_beBytes, BitVec.toNat_ofNat]
    show v / 256 ^ n % 256 * 256 ^ n + v % 256 ^ n = _
    rw [pow_succ, Nat.mod_mul, Nat.mul_comm, Nat.add_comm]

theorem getElem_beBytes (n v k : Nat) (hk : k < n) :
    (beBytes n v)[k]'(by simpa using hk) = BitVec.ofNat 8 (v / 256 ^ (n - 1 - k)) := by
  induction n generalizing k with
  | zero => omega
  | succ n ih =>
    cases k with
    | zero => simp [beBytes]
    | succ k =>
      have := ih k (by omega)
      simp only [beBytes, List.getElem_cons_succ, this]
      congr 3
      omega

/-! ## The loader and the store unit -/

theorem State.load_eq_some {s : State} {addr n : Nat} (h : addr + n ≤ s.memSize) :
    s.load addr n = some (beValue (Memory.readBytes s.mem addr n)) := by
  simp [State.load, State.inRange, h]

theorem State.load_eq_none {s : State} {addr n : Nat} (h : s.memSize < addr + n) :
    s.load addr n = none := by
  simp [State.load, State.inRange, h]

theorem State.store_eq_some {s : State} {addr n : Nat} (v : Word) (h : addr + n ≤ s.memSize) :
    s.store addr n v = some (s.setMem (Memory.writeBytes s.mem addr (beBytes n v.toNat))) := by
  simp [State.store, State.inRange, h]

theorem State.store_eq_none {s : State} {addr n : Nat} (v : Word) (h : s.memSize < addr + n) :
    s.store addr n v = none := by
  simp [State.store, State.inRange, h]

/-- Everything `MemRead` can do. -/
theorem memRead_cases (pc0 : Addr) (s : State) (addr n : Nat) :
    (addr + n ≤ s.memSize ∧
      memRead pc0 s addr n = .ok (BitVec.ofNat 64 (beValue (Memory.readBytes s.mem addr n)))) ∨
    (s.memSize < addr + n ∧ memRead pc0 s addr n = .error (.outOfRange addr n .read pc0)) := by
  rcases Nat.lt_or_ge s.memSize (addr + n) with h | h
  · exact .inr ⟨h, by simp [memRead, State.load_eq_none h]⟩
  · exact .inl ⟨h, by simp [memRead, State.load_eq_some h]⟩

/-- Everything `MemWrite` can do. -/
theorem memWrite_cases (pc0 : Addr) (s : State) (addr n : Nat) (v : Word) :
    (addr + n ≤ s.memSize ∧
      memWrite pc0 s addr n v =
        .ok (s.setMem (Memory.writeBytes s.mem addr (beBytes n v.toNat)))) ∨
    (s.memSize < addr + n ∧ memWrite pc0 s addr n v = .error (.outOfRange addr n .write pc0)) := by
  rcases Nat.lt_or_ge s.memSize (addr + n) with h | h
  · exact .inr ⟨h, by simp [memWrite, State.store_eq_none v h]⟩
  · exact .inl ⟨h, by simp [memWrite, State.store_eq_some v h]⟩

theorem memRead_ok {pc0 : Addr} {s : State} {addr n : Nat} (h : addr + n ≤ s.memSize) :
    memRead pc0 s addr n = .ok (BitVec.ofNat 64 (beValue (Memory.readBytes s.mem addr n))) := by
  simp [memRead, State.load_eq_some h]

theorem memRead_error {pc0 : Addr} {s : State} {addr n : Nat} (h : s.memSize < addr + n) :
    memRead pc0 s addr n = .error (.outOfRange addr n .read pc0) := by
  simp [memRead, State.load_eq_none h]

theorem memWrite_ok {pc0 : Addr} {s : State} {addr n : Nat} (v : Word)
    (h : addr + n ≤ s.memSize) :
    memWrite pc0 s addr n v =
      .ok (s.setMem (Memory.writeBytes s.mem addr (beBytes n v.toNat))) := by
  simp [memWrite, State.store_eq_some v h]

theorem memWrite_error {pc0 : Addr} {s : State} {addr n : Nat} (v : Word)
    (h : s.memSize < addr + n) :
    memWrite pc0 s addr n v = .error (.outOfRange addr n .write pc0) := by
  simp [memWrite, State.store_eq_none v h]

end Sys2Proof.Machine
end

