-- ==== Sys2Proof/Laws/Operands.lean ====
section
/-! SUPPORT. The laws of typed access to a slot (R22 to R24). -/

namespace Sys2Proof.Machine

theorem ScalarType.width_cases (t : ScalarType) :
    t.width = 1 ∨ t.width = 2 ∨ t.width = 4 ∨ t.width = 8 := by
  cases t <;> simp [ScalarType.width]

theorem ScalarType.width_pos (t : ScalarType) : 0 < t.width := by
  cases t <;> simp [ScalarType.width]

theorem ScalarType.width_le (t : ScalarType) : t.width ≤ 8 := by
  cases t <;> simp [ScalarType.width]

theorem pow_8_mul (n : Nat) : 2 ^ (8 * n) = 256 ^ n := by rw [Nat.pow_mul]

theorem pow_8_mul_le {n : Nat} (h : n ≤ 8) : 2 ^ (8 * n) ≤ 2 ^ 64 :=
  Nat.pow_le_pow_right (by omega) (by omega)

/-- `lowBytes` on numbers. -/
@[simp] theorem toNat_lowBytes (n : Nat) (v : Word) :
    (lowBytes n v).toNat = v.toNat % 2 ^ (8 * n) := by
  simp only [lowBytes, BitVec.toNat_ofNat]
  exact Nat.mod_eq_of_lt (Nat.lt_of_le_of_lt (Nat.mod_le _ _) v.isLt)

theorem toNat_lowBytes_lt (n : Nat) (v : Word) : (lowBytes n v).toNat < 2 ^ (8 * n) := by
  rw [toNat_lowBytes]
  exact Nat.mod_lt _ (by positivity)

/-- A pattern that fits is its own low bytes. -/
theorem lowBytes_of_lt {n : Nat} {v : Word} (h : v.toNat < 2 ^ (8 * n)) : lowBytes n v = v := by
  apply BitVec.eq_of_toNat_eq
  rw [toNat_lowBytes, Nat.mod_eq_of_lt h]

theorem lowBytes_of_fits {t : ScalarType} {v : Word} (h : t.fits v = true) :
    lowBytes t.width v = v :=
  lowBytes_of_lt (by simpa [ScalarType.fits] using h)

@[simp] theorem lowBytes_lowBytes (n : Nat) (v : Word) :
    lowBytes n (lowBytes n v) = lowBytes n v :=
  lowBytes_of_lt (toNat_lowBytes_lt n v)

@[simp] theorem lowBytes_eight (v : Word) : lowBytes 8 v = v := lowBytes_of_lt v.isLt

theorem toNat_get (s : State) (t : ScalarType) (r : Reg) :
    (s.get t r).toNat = (s.getReg r).toNat % 2 ^ (8 * t.width) := by simp [State.get]

theorem fits_get (s : State) (t : ScalarType) (r : Reg) : t.fits (s.get t r) = true := by
  simp only [ScalarType.fits, decide_eq_true_eq]
  exact toNat_lowBytes_lt _ _

/-- The bytes stored for a pattern are those of its low bytes. -/
theorem beBytes_lowBytes (n : Nat) (v : Word) : beBytes n (lowBytes n v).toNat = beBytes n v.toNat := by
  apply List.ext_getElem (by simp)
  intro k h1 h2
  have hk : k < n := by simpa using h1
  rw [getElem_beBytes _ _ _ hk, getElem_beBytes _ _ _ hk, toNat_lowBytes, pow_8_mul]
  apply BitVec.eq_of_toNat_eq
  simp only [BitVec.toNat_ofNat]
  show _ % 256 = _ % 256
  have e : 256 ^ n = 256 ^ (n - 1 - k) * (256 * 256 ^ k) := by
    rw [← pow_succ', ← pow_add]; congr 1; omega
  rw [e, Nat.mod_mul_right_div_self, Nat.mod_mul_right_mod]

/-- The typed write without zeroing, on numbers: the upper bytes stay. -/
theorem toNat_insertBytes_zero {n : Nat} (w v : Word) :
    (insertBytes w 0 n v).toNat
      = w.toNat / 2 ^ (8 * n) * 2 ^ (8 * n) + v.toNat % 2 ^ (8 * n) := by
  simp only [insertBytes, BitVec.toNat_ofNat, Nat.mul_zero, pow_zero, Nat.mod_one, Nat.zero_add,
    Nat.mul_one]
  rw [Nat.add_comm]
  apply Nat.mod_eq_of_lt
  by_cases hn : n ≤ 8
  · have hlt : v.toNat % 2 ^ (8 * n) < 2 ^ (8 * n) := Nat.mod_lt _ (by positivity)
    have hw := w.isLt
    have hd : 2 ^ 64 = 2 ^ (64 - 8 * n) * 2 ^ (8 * n) := by
      rw [← pow_add]; congr 1; omega
    have hq : w.toNat / 2 ^ (8 * n) < 2 ^ (64 - 8 * n) :=
      Nat.div_lt_of_lt_mul (by rw [Nat.mul_comm, ← hd]; exact hw)
    rw [hd]
    nlinarith [Nat.mul_le_mul_right (2 ^ (8 * n)) hq]
  · have h64 : 2 ^ 64 ≤ 2 ^ (8 * n) := Nat.pow_le_pow_right (by omega) (by omega)
    rw [Nat.div_eq_of_lt (Nat.lt_of_lt_of_le w.isLt h64)]
    simp only [Nat.zero_mul, Nat.zero_add]
    exact Nat.lt_of_le_of_lt (Nat.mod_le _ _) v.isLt

theorem lowBytes_insertBytes_zero (n : Nat) (w v : Word) :
    lowBytes n (insertBytes w 0 n v) = lowBytes n v := by
  apply BitVec.eq_of_toNat_eq
  rw [toNat_lowBytes, toNat_lowBytes, toNat_insertBytes_zero, Nat.mul_comm, Nat.mul_add_mod,
    Nat.mod_mod]

theorem upper_insertBytes_zero (n : Nat) (w v : Word) :
    (insertBytes w 0 n v).toNat / 2 ^ (8 * n) = w.toNat / 2 ^ (8 * n) := by
  rw [toNat_insertBytes_zero, Nat.mul_comm, Nat.mul_add_div (by positivity),
    Nat.div_eq_of_lt (Nat.mod_lt _ (by positivity)), Nat.add_zero]

/-- A slot's address is its value as `uint` (R175). -/
theorem getTarget_eq (s : State) (r : Reg) : s.getTarget r = s.addrOf r := by
  apply BitVec.eq_of_toNat_eq
  simp only [State.getTarget, State.get, State.addrOf, BitVec.toNat_setWidth, toNat_lowBytes]
  show _ % 2 ^ 32 % 2 ^ 32 = _
  simp

end Sys2Proof.Machine
end

