-- ==== Sys2Proof/Laws/Stack.lean ====
section
/-! SUPPORT. What push, pop and the frame sequencer can do (R160, R161, R171, R177), said once. -/

namespace Sys2Proof.Machine

/-! ## Push and pop -/

/-- The state after a push that stays in memory. -/
def pushed (t : ScalarType) (v : Word) (s : State) : State :=
  ((s.setMem (Memory.writeBytes s.mem s.sp.toNat (beBytes t.width v.toNat))).setAddr
    .sp (s.sp - BitVec.ofNat 32 t.width)).setFsz (s.fsz + BitVec.ofNat 64 t.width)

/-- The state after a pop that stays in memory. -/
def popped (t : ScalarType) (s : State) : State :=
  (s.setAddr .sp (s.sp + BitVec.ofNat 32 t.width)).setFsz (s.fsz - BitVec.ofNat 64 t.width)

/-- The value a pop reads. -/
def popValue (t : ScalarType) (s : State) : Word :=
  BitVec.ofNat 64 (beValue (Memory.readBytes s.mem (s.sp.toNat + t.width) t.width))

/-- Everything a push can do. -/
theorem push_cases (pc0 : Addr) (t : ScalarType) (v : Word) (s : State) :
    (s.sp.toNat + t.width ≤ s.memSize ∧ push pc0 t v s = .ok (pushed t v s)) ∨
    (s.memSize < s.sp.toNat + t.width ∧
      push pc0 t v s = .error (.outOfRange s.sp.toNat t.width .write pc0)) := by
  rcases memWrite_cases pc0 s s.sp.toNat t.width v with ⟨h, e⟩ | ⟨h, e⟩
  · exact .inl ⟨h, by simp only [push, e]; rfl⟩
  · exact .inr ⟨h, by simp only [push, e]⟩

theorem push_ok {pc0 : Addr} {t : ScalarType} {v : Word} {s : State}
    (h : s.sp.toNat + t.width ≤ s.memSize) : push pc0 t v s = .ok (pushed t v s) := by
  rcases push_cases pc0 t v s with ⟨-, e⟩ | ⟨h', -⟩
  · exact e
  · omega

theorem push_error {pc0 : Addr} {t : ScalarType} {v : Word} {s : State}
    (h : s.memSize < s.sp.toNat + t.width) :
    push pc0 t v s = .error (.outOfRange s.sp.toNat t.width .write pc0) := by
  rcases push_cases pc0 t v s with ⟨h', -⟩ | ⟨-, e⟩
  · omega
  · exact e

/-- Everything a pop can do. -/
theorem pop_cases (pc0 : Addr) (t : ScalarType) (s : State) :
    (s.sp.toNat + t.width + t.width ≤ s.memSize ∧
      pop pc0 t s = .ok (popValue t s, popped t s)) ∨
    (s.memSize < s.sp.toNat + t.width + t.width ∧
      pop pc0 t s = .error (.outOfRange (s.sp.toNat + t.width) t.width .read pc0)) := by
  rcases memRead_cases pc0 s (s.sp.toNat + t.width) t.width with ⟨h, e⟩ | ⟨h, e⟩
  · exact .inl ⟨h, by simp only [pop, e]; rfl⟩
  · exact .inr ⟨h, by simp only [pop, e]⟩

theorem pop_ok {pc0 : Addr} {t : ScalarType} {s : State}
    (h : s.sp.toNat + t.width + t.width ≤ s.memSize) :
    pop pc0 t s = .ok (popValue t s, popped t s) := by
  rcases pop_cases pc0 t s with ⟨-, e⟩ | ⟨h', -⟩
  · exact e
  · omega

theorem pop_error {pc0 : Addr} {t : ScalarType} {s : State}
    (h : s.memSize < s.sp.toNat + t.width + t.width) :
    pop pc0 t s = .error (.outOfRange (s.sp.toNat + t.width) t.width .read pc0) := by
  rcases pop_cases pc0 t s with ⟨h', -⟩ | ⟨-, e⟩
  · omega
  · exact e

section
variable (t : ScalarType) (v : Word) (s : State) (q : Reg)

@[simp] theorem getReg_pushed :
    (pushed t v s).getReg q =
      if q = .sp then zextAddr (s.sp - BitVec.ofNat 32 t.width) else s.getReg q := by
  simp [pushed]

@[simp] theorem addrOf_pushed :
    (pushed t v s).addrOf q =
      if q = .sp then s.sp - BitVec.ofNat 32 t.width else s.addrOf q := by
  simp [pushed]

@[simp] theorem sp_pushed : (pushed t v s).sp = s.sp - BitVec.ofNat 32 t.width := by
  simp [State.sp]

@[simp] theorem fsz_pushed : (pushed t v s).fsz = s.fsz + BitVec.ofNat 64 t.width := rfl
@[simp] theorem mem_pushed :
    (pushed t v s).mem = Memory.writeBytes s.mem s.sp.toNat (beBytes t.width v.toNat) := rfl
@[simp] theorem ctgt_pushed : (pushed t v s).ctgt = s.ctgt := rfl
@[simp] theorem status_pushed : (pushed t v s).status = s.status := rfl
@[simp] theorem memSize_pushed : (pushed t v s).memSize = s.memSize := rfl
@[simp] theorem haltFlag_pushed : (pushed t v s).haltFlag = s.haltFlag := rfl

@[simp] theorem getReg_popped :
    (popped t s).getReg q =
      if q = .sp then zextAddr (s.sp + BitVec.ofNat 32 t.width) else s.getReg q := by
  simp [popped]

@[simp] theorem addrOf_popped :
    (popped t s).addrOf q =
      if q = .sp then s.sp + BitVec.ofNat 32 t.width else s.addrOf q := by
  simp [popped]

@[simp] theorem sp_popped : (popped t s).sp = s.sp + BitVec.ofNat 32 t.width := by
  simp [State.sp]

@[simp] theorem fsz_popped : (popped t s).fsz = s.fsz - BitVec.ofNat 64 t.width := rfl
@[simp] theorem mem_popped : (popped t s).mem = s.mem := rfl
@[simp] theorem ctgt_popped : (popped t s).ctgt = s.ctgt := rfl
@[simp] theorem status_popped : (popped t s).status = s.status := rfl
@[simp] theorem memSize_popped : (popped t s).memSize = s.memSize := rfl
@[simp] theorem haltFlag_popped : (popped t s).haltFlag = s.haltFlag := rfl

end

/-! ## The save sequence -/

/-- Memory after pushing whole slots from `a` downward. -/
def savedMem (m : Memory) (a : Addr) : List Word → Memory
  | [] => m
  | w :: ws => savedMem (Memory.writeBytes m a.toNat (beBytes 8 w.toNat)) (a - 8) ws

/-- The address of the `k`th word pushed from `a`. -/
def saveAddr (a : Addr) (k : Nat) : Nat := (a - BitVec.ofNat 32 (8 * k)).toNat

theorem saveAddr_zero (a : Addr) : saveAddr a 0 = a.toNat := by simp [saveAddr]

theorem saveAddr_succ (a : Addr) (k : Nat) : saveAddr a (k + 1) = saveAddr (a - 8) k := by
  simp only [saveAddr]
  congr 1
  rw [Nat.mul_add, Nat.mul_one, Nat.add_comm, BitVec.ofNat_add]
  bv_omega

/-- The state after pushing the slots `rs`, none of which is `sp`. -/
def savedState (rs : List Reg) (s : State) : State :=
  ((s.setMem (savedMem s.mem s.sp (rs.map s.getReg))).setAddr
    .sp (s.sp - BitVec.ofNat 32 (8 * rs.length))).setFsz (s.fsz + BitVec.ofNat 64 (8 * rs.length))

@[simp] theorem memSize_savedState (rs : List Reg) (s : State) :
    (savedState rs s).memSize = s.memSize := by simp [savedState]

@[simp] theorem fsz_savedState (rs : List Reg) (s : State) :
    (savedState rs s).fsz = s.fsz + BitVec.ofNat 64 (8 * rs.length) := by simp [savedState]

@[simp] theorem mem_savedState (rs : List Reg) (s : State) :
    (savedState rs s).mem = savedMem s.mem s.sp (rs.map s.getReg) := by simp [savedState]

@[simp] theorem ctgt_savedState (rs : List Reg) (s : State) : (savedState rs s).ctgt = s.ctgt := by
  simp [savedState]

@[simp] theorem status_savedState (rs : List Reg) (s : State) :
    (savedState rs s).status = s.status := by simp [savedState]

@[simp] theorem haltFlag_savedState (rs : List Reg) (s : State) :
    (savedState rs s).haltFlag = s.haltFlag := by simp [savedState]

@[simp] theorem getReg_savedState (rs : List Reg) (s : State) (q : Reg) :
    (savedState rs s).getReg q =
      if q = .sp then zextAddr (s.sp - BitVec.ofNat 32 (8 * rs.length)) else s.getReg q := by
  simp [savedState]

theorem sp_savedState (rs : List Reg) (s : State) :
    (savedState rs s).sp = s.sp - BitVec.ofNat 32 (8 * rs.length) := by
  simp [savedState, State.sp]

theorem saveRegs_ok {pc0 : Addr} (rs : List Reg) (hne : rs ≠ []) (s : State) (hsp : .sp ∉ rs)
    (h : ∀ k, k < rs.length → saveAddr s.sp k + 8 ≤ s.memSize) :
    saveRegs pc0 rs s = .ok (savedState rs s) := by
  induction rs generalizing s with
  | nil => exact absurd rfl hne
  | cons r rs ih =>
    have h0 := h 0 (by simp)
    rw [saveAddr_zero] at h0
    have hr : r ≠ .sp := fun e => hsp (by simp [e])
    simp only [saveRegs, push_ok (t := .ulong) (v := s.getReg r) (s := s) (by simpa [ScalarType.width] using h0)]
    by_cases hrs : rs = []
    · subst hrs
      simp only [saveRegs, Except.ok.injEq]
      rfl
    · have hsp' : Reg.sp ∉ rs := fun e => hsp (by simp [e])
      rw [ih hrs (pushed .ulong (s.getReg r) s) hsp' (fun k hk => ?_)]
      · have hm : rs.map (pushed .ulong (s.getReg r) s).getReg = rs.map s.getReg := by
          apply List.map_congr_left
          intro q hq
          rw [getReg_pushed, if_neg]
          rintro rfl
          exact hsp' hq
        simp only [Except.ok.injEq]
        apply State.ext_slots <;> try rfl
        · intro q
          simp only [savedState, State.getReg_setFsz, State.getReg_setAddr, State.getReg_setMem,
            getReg_pushed, sp_pushed, List.length_cons, ScalarType.width]
          by_cases hq : q = .sp
          · simp only [hq, if_true]
            congr 1
            rw [Nat.mul_add, Nat.mul_one, BitVec.ofNat_add]
            bv_omega
          · simp [hq]
        · simp only [savedState, State.setFsz_mem, State.setAddr_mem, State.setMem_mem, hm, mem_pushed, sp_pushed, ScalarType.width]
          rfl
        · simp only [savedState, State.setFsz_fsz, fsz_pushed, ScalarType.width, List.length_cons, Nat.mul_add,
            Nat.mul_one, BitVec.ofNat_add]
          rw [BitVec.add_assoc, BitVec.add_comm (BitVec.ofNat 64 8)]
      · have := h (k + 1) (by simpa using hk)
        rw [saveAddr_succ] at this
        simpa [ScalarType.width] using this

/-- A save stops at the first word that leaves memory. -/
theorem saveRegs_error {pc0 : Addr} (rs : List Reg) (s : State) (k : Nat) (hk : k < rs.length)
    (hlt : ∀ j, j < k → saveAddr s.sp j + 8 ≤ s.memSize)
    (h : s.memSize < saveAddr s.sp k + 8) :
    saveRegs pc0 rs s = .error (.outOfRange (saveAddr s.sp k) 8 .write pc0) := by
  induction rs generalizing s k with
  | nil => simp at hk
  | cons r rs ih =>
    cases k with
    | zero =>
      rw [saveAddr_zero] at h ⊢
      simp only [saveRegs, push_error (t := .ulong) (v := s.getReg r) (s := s)
        (by simpa [ScalarType.width] using h)]
      rfl
    | succ k =>
      have h0 := hlt 0 (by omega)
      rw [saveAddr_zero] at h0
      simp only [saveRegs, push_ok (t := .ulong) (v := s.getReg r) (s := s)
        (by simpa [ScalarType.width] using h0)]
      rw [saveAddr_succ] at h ⊢
      rw [ih (pushed .ulong (s.getReg r) s) k (by simpa using hk) (fun j hj => ?_)]
      · simp [ScalarType.width]
      · simpa [ScalarType.width] using h
      · have := hlt (j + 1) (by omega)
        rw [saveAddr_succ] at this
        simpa [ScalarType.width] using this

/-! ## The contents of the saved words -/

theorem savedMem_wf {m : Memory} (a : Addr) (ws : List Word) (h : m.wf = true) :
    (savedMem m a ws).wf = true := by
  induction ws generalizing m a with
  | nil => exact h
  | cons w ws ih => exact ih _ (Memory.wf_writeBytes _ _ h)

theorem read_savedMem_outside (m : Memory) (a : Addr) (ws : List Word) (b : Nat)
    (h : ∀ k, k < ws.length → b < saveAddr a k ∨ saveAddr a k + 8 ≤ b) :
    Memory.read (savedMem m a ws) b = Memory.read m b := by
  induction ws generalizing m a with
  | nil => rfl
  | cons w ws ih =>
    simp only [savedMem]
    rw [ih _ _ (fun k hk => ?_)]
    · apply Memory.read_writeBytes_outside
      have := h 0 (by simp)
      rw [saveAddr_zero] at this
      simpa using this
    · have := h (k + 1) (by simpa using hk)
      rwa [saveAddr_succ] at this

/-- Words pushed one after another do not overlap, wrapped around the address space or not. -/
theorem saveAddr_disjoint (a : Addr) {j k : Nat} (hjk : j < k) (hk : k ≤ 100000) :
    saveAddr a j + 8 ≤ saveAddr a k ∨ saveAddr a k + 8 ≤ saveAddr a j := by
  simp only [saveAddr, BitVec.toNat_sub, BitVec.toNat_ofNat] at *
  have := a.isLt
  omega

theorem read_savedMem {m : Memory} (hm : m.wf = true) (a : Addr) (ws : List Word)
    (hlen : ws.length ≤ 100000) (k : Nat)
    (hk : k < ws.length) (i : Nat) (hi : i < 8) :
    Memory.read (savedMem m a ws) (saveAddr a k + i)
      = (beBytes 8 ws[k].toNat)[i]'(by simpa using hi) := by
  induction ws generalizing m a k with
  | nil => simp at hk
  | cons w ws ih =>
    simp only [savedMem]
    cases k with
    | zero =>
      rw [read_savedMem_outside _ _ _ _ (fun j hj => ?_)]
      · rw [saveAddr_zero]
        exact Memory.read_writeBytes hm _ _ i (by simpa using hi)
      · rw [← saveAddr_succ]
        have hd := saveAddr_disjoint a (j := 0) (k := j + 1) (by omega)
          (by simp at hlen; omega)
        omega
    | succ k =>
      rw [saveAddr_succ]
      have := ih (m := Memory.writeBytes m a.toNat (beBytes 8 w.toNat))
        (Memory.wf_writeBytes _ _ hm) (a - 8) (by simp at hlen; omega) k (by simpa using hk)
      simpa using this

/-! ## The restore sequence -/

/-- The word that the `k`th of a sequence of whole-slot pops reads, counted from 0. -/
def popWord (s : State) (k : Nat) : Word :=
  BitVec.ofNat 64 (beValue (Memory.readBytes s.mem (s.sp.toNat + 8 * (k + 1)) 8))

/-- What a restore leaves. -/
structure Restored (rs : List Reg) (s u : State) : Prop where
  slot : ∀ k (h : k < rs.length), u.getReg rs[k] = popWord s k
  sp : u.getReg .sp = zextAddr (s.sp + BitVec.ofNat 32 (8 * rs.length))
  other : ∀ q, q ∉ rs → q ≠ .sp → u.getReg q = s.getReg q
  mem : u.mem = s.mem
  ctgt : u.ctgt = s.ctgt
  status : u.status = s.status
  memSize : u.memSize = s.memSize
  haltFlag : u.haltFlag = s.haltFlag

theorem sp_toNat_add_eight {s : State} (h : s.sp.toNat + 8 < 2 ^ 32) :
    (s.sp + BitVec.ofNat 32 8).toNat = s.sp.toNat + 8 := by
  rw [BitVec.toNat_add]
  simp only [BitVec.toNat_ofNat]
  omega

theorem restoreRegs_ok {pc0 : Addr} (rs : List Reg) (hne : rs ≠ []) (s : State) (hsp : .sp ∉ rs)
    (hnd : rs.Nodup) (hz : s.memSize ≤ 2 ^ 32)
    (h : s.sp.toNat + 8 * rs.length + 8 ≤ s.memSize) :
    ∃ u, restoreRegs pc0 rs s = .ok u ∧ Restored rs s u := by
  induction rs generalizing s with
  | nil => exact absurd rfl hne
  | cons r rs ih =>
    have hr : r ≠ .sp := fun e => hsp (by simp [e])
    have hsp' : Reg.sp ∉ rs := fun e => hsp (by simp [e])
    have hlen : (r :: rs).length = rs.length + 1 := rfl
    rw [hlen] at h
    have h1 : s.sp.toNat + ScalarType.ulong.width + ScalarType.ulong.width ≤ s.memSize := by
      simp only [ScalarType.width]; omega
    have hadd := sp_toNat_add_eight (s := s) (by omega)
    simp only [restoreRegs, pop_ok h1]
    let s1 := (popped .ulong s).setReg r (popValue .ulong s)
    have hs1sp : s1.sp = s.sp + BitVec.ofNat 32 8 := by
      have : s1.sp = ((popped .ulong s).setReg r (popValue .ulong s)).addrOf .sp := rfl
      rw [this, State.addrOf_setReg, if_neg (Ne.symm hr)]
      simp [ScalarType.width]
    have hw0 : popValue .ulong s = popWord s 0 := rfl
    by_cases hrs : rs = []
    · subst hrs
      refine ⟨s1, rfl, ⟨?_, ?_, ?_, rfl, rfl, rfl, rfl, rfl⟩⟩
      · intro k hk
        have : k = 0 := by simpa using hk
        subst this
        simp [s1, hw0]
      · simp [s1, Ne.symm hr, ScalarType.width]
      · intro q hq hqs
        have hqr : q ≠ r := by simpa using hq
        simp [s1, hqr, hqs]
    · have hmem : s1.mem = s.mem := rfl
      have hms : s1.memSize = s.memSize := rfl
      obtain ⟨u, hu, R⟩ := ih hrs s1 hsp' (List.nodup_cons.mp hnd).2 (by rw [hms]; exact hz)
        (by rw [hms, hs1sp, hadd]; omega)
      have hpw : ∀ k, popWord s1 k = popWord s (k + 1) := by
        intro k
        simp only [popWord, hmem, hs1sp, hadd]
        rw [show s.sp.toNat + 8 + 8 * (k + 1) = s.sp.toNat + 8 * (k + 1 + 1) by omega]
      refine ⟨u, hu, ⟨?_, ?_, ?_, R.mem, R.ctgt, R.status, R.memSize, R.haltFlag⟩⟩
      · intro k hk
        cases k with
        | zero =>
          have hrn : r ∉ rs := (List.nodup_cons.mp hnd).1
          simp only [List.getElem_cons_zero]
          rw [R.other r hrn hr]
          simp [s1, hw0]
        | succ k =>
          simp only [List.getElem_cons_succ]
          rw [R.slot k (by simpa using hk), hpw]
      · rw [R.sp, hs1sp, hlen, Nat.mul_add, Nat.mul_one, BitVec.ofNat_add]
        congr 1
        rw [BitVec.add_assoc, BitVec.add_comm (BitVec.ofNat 32 8)]
      · intro q hq hqs
        simp only [List.mem_cons, not_or] at hq
        rw [R.other q hq.2 hqs]
        simp [s1, hq.1, hqs]

/-- A restore stops at the first word that leaves memory. -/
theorem restoreRegs_error {pc0 : Addr} (rs : List Reg) (s : State) (hsp : .sp ∉ rs)
    (hz : s.memSize ≤ 2 ^ 32) (k : Nat) (hk : k < rs.length)
    (hlt : k = 0 ∨ s.sp.toNat + 8 * k + 8 ≤ s.memSize)
    (h : s.memSize < s.sp.toNat + 8 * (k + 1) + 8) :
    restoreRegs pc0 rs s = .error (.outOfRange (s.sp.toNat + 8 * (k + 1)) 8 .read pc0) := by
  induction rs generalizing s k with
  | nil => simp at hk
  | cons r rs ih =>
    have hr : r ≠ .sp := fun e => hsp (by simp [e])
    have hsp' : Reg.sp ∉ rs := fun e => hsp (by simp [e])
    cases k with
    | zero =>
      simp only [restoreRegs]
      rw [pop_error (by simp only [ScalarType.width]; omega)]
      rfl
    | succ k =>
      have hlt' : s.sp.toNat + 8 * (k + 1) + 8 ≤ s.memSize := by omega
      have h1 : s.sp.toNat + ScalarType.ulong.width + ScalarType.ulong.width ≤ s.memSize := by
        simp only [ScalarType.width]; omega
      have hadd := sp_toNat_add_eight (s := s) (by omega)
      simp only [restoreRegs, pop_ok h1]
      have hs1sp : ((popped .ulong s).setReg r (popValue .ulong s)).sp = s.sp + BitVec.ofNat 32 8 := by
        simp [State.sp, Ne.symm hr, ScalarType.width]
      have hms : ((popped .ulong s).setReg r (popValue .ulong s)).memSize = s.memSize := rfl
      rw [ih _ hsp' (by rw [hms]; exact hz) k (by simpa using hk)
        (by rw [hms, hs1sp, hadd]; omega) (by rw [hms, hs1sp, hadd]; omega), hs1sp, hadd]
      congr 2
      omega

end Sys2Proof.Machine
end

