-- ==== Sys2Proof/Laws/Call.lean ====
section
/-! SUPPORT. What pushState, popState and the call can do (R171, R174, R177), said once. -/

namespace Sys2Proof.Machine

theorem frameAddr_eq (a : Addr) (k : Nat) : frameAddr a k = saveAddr a k := rfl

theorem sp_notMem_savedRegs : Reg.sp ∉ savedRegs := by decide
theorem sp_notMem_restoredRegs : Reg.sp ∉ restoredRegs := by decide

/-- The state a frame push leaves. -/
structure FramePushed (s u : State) : Prop where
  sp : u.getReg .sp = zextAddr (s.sp - BitVec.ofNat 32 80)
  fp : u.getReg .fp = zextAddr (s.sp - BitVec.ofNat 32 80)
  bp : u.getReg .bp = zextAddr s.sp
  other : ∀ q, q ≠ .sp → q ≠ .fp → q ≠ .bp → u.getReg q = s.getReg q
  mem : u.mem = savedMem s.mem s.sp (savedRegs.map s.getReg ++ [s.fsz + 80])
  fsz : u.fsz = 0
  ctgt : u.ctgt = s.ctgt
  status : u.status = s.status
  memSize : u.memSize = s.memSize
  haltFlag : u.haltFlag = s.haltFlag

theorem savedMem_append (m : Memory) (a : Addr) (ws vs : List Word) :
    savedMem m a (ws ++ vs) = savedMem (savedMem m a ws) (a - BitVec.ofNat 32 (8 * ws.length)) vs := by
  induction ws generalizing m a with
  | nil => simp [savedMem]
  | cons w ws ih =>
    simp only [List.cons_append, savedMem, ih, List.length_cons]
    congr 1
    rw [Nat.mul_add, Nat.mul_one, BitVec.ofNat_add]
    bv_omega

theorem pushState_ok {pc0 : Addr} {s : State}
    (h : ∀ k, k < 10 → frameAddr s.sp k + 8 ≤ s.memSize) :
    ∃ u, pushState pc0 s = .ok u ∧ FramePushed s u := by
  have h9 : ∀ k, k < savedRegs.length → saveAddr s.sp k + 8 ≤ s.memSize := by
    intro k hk
    have : k < 9 := hk
    exact h k (by omega)
  have hs := saveRegs_ok (pc0 := pc0) savedRegs (by decide) s sp_notMem_savedRegs h9
  have hsp : (savedState savedRegs s).sp = s.sp - BitVec.ofNat 32 72 := by
    rw [sp_savedState]
    rfl
  have h10 : (savedState savedRegs s).sp.toNat + ScalarType.ulong.width
      ≤ (savedState savedRegs s).memSize := by
    have h9' := h 9 (by omega)
    rw [hsp, memSize_savedState]
    simpa only [frameAddr, ScalarType.width] using h9'
  simp only [pushState, hs, push_ok h10]
  refine ⟨_, rfl, ⟨?_, ?_, ?_, ?_, ?_, ?_, ?_, ?_, ?_, ?_⟩⟩
  · simp [hsp, ScalarType.width, BitVec.sub_sub]
  · simp [hsp, ScalarType.width, BitVec.sub_sub]
  · simp
  · intro q h1 h2 h3
    simp [h1, h2, h3]
  · simp only [State.setFsz_mem, State.setAddr_mem, mem_pushed, hsp, savedMem_append]
    simp [savedRegs, savedMem, ScalarType.width, Config.frameConst, BitVec.add_assoc]
  · simp
  · simp
  · simp
  · simp
  · simp

/-- A frame push stops at the first word that leaves memory. -/
theorem pushState_error {pc0 : Addr} {s : State} {k : Nat} (hk : k < 10)
    (hlt : ∀ j, j < k → frameAddr s.sp j + 8 ≤ s.memSize)
    (h : s.memSize < frameAddr s.sp k + 8) :
    pushState pc0 s = .error (.outOfRange (frameAddr s.sp k) 8 .write pc0) := by
  rcases Nat.lt_or_ge k 9 with h9 | h9
  · simp only [pushState, saveRegs_error (pc0 := pc0) savedRegs s k h9 hlt h]
    rfl
  · have hk9 : k = 9 := by omega
    subst hk9
    have hs := saveRegs_ok (pc0 := pc0) savedRegs (by decide) s sp_notMem_savedRegs
      (fun j hj => hlt j hj)
    have hsp : (savedState savedRegs s).sp = s.sp - BitVec.ofNat 32 72 := by
      rw [sp_savedState]
      rfl
    simp only [pushState, hs]
    rw [push_error (by
      rw [hsp, memSize_savedState]
      simpa only [frameAddr, ScalarType.width] using h), hsp]
    simp only [frameAddr, ScalarType.width]

/-! ## Restoring a frame -/

/-- The state a frame restore leaves. -/
structure FramePopped (s u : State) : Prop where
  ip : u.getReg .ip = frameField s 2
  r8 : u.getReg .r8 = frameField s 3
  r7 : u.getReg .r7 = frameField s 4
  r6 : u.getReg .r6 = frameField s 5
  r5 : u.getReg .r5 = frameField s 6
  r4 : u.getReg .r4 = frameField s 7
  r3 : u.getReg .r3 = frameField s 8
  r2 : u.getReg .r2 = frameField s 9
  r1 : u.getReg .r1 = frameField s 10
  sp : u.getReg .sp = zextAddr (s.fp + (frameField s 1).setWidth 32)
  fp : u.getReg .fp = zextAddr (s.fp + (frameField s 1).setWidth 32)
  acc : u.getReg .acc = s.getReg .acc
  bp : u.getReg .bp = s.getReg .bp
  mem : u.mem = s.mem
  fsz : u.fsz = 0
  ctgt : u.ctgt = s.ctgt
  status : u.status = s.status
  memSize : u.memSize = s.memSize
  haltFlag : u.haltFlag = s.haltFlag

/-- The restore up to the discard: the size field and the nine slots have been read. -/
theorem restore_frame {pc0 : Addr} {s : State} (hz : s.memSize ≤ 2 ^ 32)
    (h : s.fp.toNat + 88 ≤ s.memSize) :
    ∃ s1 s2, pop pc0 .ulong (s.setAddr .sp s.fp) = .ok (frameField s 1, s1) ∧
      restoreRegs pc0 restoredRegs s1 = .ok s2 ∧ Restored restoredRegs s1 s2 ∧
      s1.sp = s.fp + BitVec.ofNat 32 8 ∧ s1.mem = s.mem ∧ s1.memSize = s.memSize ∧
      s1.ctgt = s.ctgt ∧ s1.status = s.status ∧ s1.haltFlag = s.haltFlag ∧
      (∀ q, q ≠ .sp → s1.getReg q = s.getReg q) ∧ (∀ k, popWord s1 k = frameField s (k + 2)) := by
  have hsp : (s.setAddr .sp s.fp).sp = s.fp := by simp [State.sp]
  have h1 : (s.setAddr .sp s.fp).sp.toNat + ScalarType.ulong.width + ScalarType.ulong.width
      ≤ (s.setAddr .sp s.fp).memSize := by
    rw [hsp, State.setAddr_memSize]
    simp only [ScalarType.width]
    omega
  have hp := pop_ok (pc0 := pc0) h1
  have hv : popValue .ulong (s.setAddr .sp s.fp) = frameField s 1 := by
    simp only [popValue, frameField, wordAt, hsp, State.setAddr_mem, ScalarType.width]
  have hsp1 : (popped .ulong (s.setAddr .sp s.fp)).sp = s.fp + BitVec.ofNat 32 8 := by
    simp only [sp_popped, hsp, ScalarType.width]
  have hn1 : (popped .ulong (s.setAddr .sp s.fp)).sp.toNat = s.fp.toNat + 8 := by
    rw [hsp1, BitVec.toNat_add]
    simp only [BitVec.toNat_ofNat]
    omega
  obtain ⟨s2, hr, R⟩ := restoreRegs_ok (pc0 := pc0) restoredRegs (by decide)
    (popped .ulong (s.setAddr .sp s.fp)) sp_notMem_restoredRegs (by decide) hz
    (by
      rw [hn1]
      show s.fp.toNat + 8 + 8 * 9 + 8 ≤ s.memSize
      omega)
  refine ⟨_, s2, by rw [hp, hv], hr, R, hsp1, rfl, rfl, rfl, rfl, rfl, ?_, ?_⟩
  · intro q hq
    simp [hq]
  · intro k
    simp only [popWord, frameField, wordAt, hn1]
    rw [show s.fp.toNat + 8 + 8 * (k + 1) = s.fp.toNat + 8 * (k + 2) by omega]
    rfl

theorem discardBytes_ok {pc0 : Addr} {n : Nat} {s : State}
    (h : n = 0 ∨ s.sp.toNat + n < s.memSize) :
    discardBytes pc0 n s = .ok (s.setAddr .sp (s.sp + BitVec.ofNat 32 n)) := by
  simp only [discardBytes]
  rw [if_neg (by omega)]

theorem discardBytes_error {pc0 : Addr} {n : Nat} {s : State} (hn : 0 < n)
    (h : s.memSize ≤ s.sp.toNat + n) :
    discardBytes pc0 n s =
      .error (.outOfRange (max (s.sp.toNat + 1) s.memSize) 1 .read pc0) := by
  simp only [discardBytes]
  rw [if_pos ⟨hn, h⟩]

theorem popState_ok {pc0 : Addr} {s : State} (hz : s.memSize ≤ 2 ^ 32)
    (h : s.fp.toNat + 88 ≤ s.memSize) (h80 : 80 ≤ (frameField s 1).toNat)
    (hd : (frameField s 1).toNat = 80 ∨ s.fp.toNat + (frameField s 1).toNat < s.memSize) :
    ∃ u, popState pc0 s = .ok u ∧ FramePopped s u := by
  obtain ⟨s1, s2, hp, hr, R, hsp1, hm1, hz1, hc1, hst1, hh1, ho1, hw⟩ :=
    restore_frame (pc0 := pc0) hz h
  have hlen : restoredRegs.length = 9 := rfl
  have hsp2 : s2.sp = s.fp + BitVec.ofNat 32 80 := by
    have : s2.sp = (s2.getReg .sp).setWidth 32 := rfl
    rw [this, R.sp, setWidth_zextAddr, hsp1, hlen, BitVec.add_assoc]
    rfl
  have hn2 : s2.sp.toNat = s.fp.toNat + 80 := by
    rw [hsp2, BitVec.toNat_add]
    simp only [BitVec.toNat_ofNat]
    omega
  have hms2 : s2.memSize = s.memSize := R.memSize.trans hz1
  have hsz : s.fp + BitVec.ofNat 32 80 + BitVec.ofNat 32 ((frameField s 1).toNat - 80)
      = s.fp + (frameField s 1).setWidth 32 := by
    rw [BitVec.add_assoc]
    congr 1
    apply BitVec.eq_of_toNat_eq
    simp only [BitVec.toNat_add, BitVec.toNat_ofNat, BitVec.toNat_setWidth]
    omega
  have hdis := discardBytes_ok (pc0 := pc0) (n := (frameField s 1).toNat - Config.frameBytes)
    (s := s2) (by simp only [Config.frameBytes, hn2, hms2]; omega)
  have hslot : ∀ k (hk : k < restoredRegs.length), s2.getReg restoredRegs[k] = frameField s (k + 2) :=
    fun k hk => (R.slot k hk).trans (hw k)
  simp only [popState, hp, hr, if_neg (show ¬ (frameField s 1).toNat < Config.frameBytes by
    simp only [Config.frameBytes]; omega), hdis]
  refine ⟨_, rfl, ?_⟩
  have hoth : ∀ q, q ≠ .sp → q ≠ .fp →
      State.getReg (((s2.setAddr .sp (s2.sp + BitVec.ofNat 32 ((frameField s 1).toNat - Config.frameBytes))).setAddr
        .fp (s.fp + (frameField s 1).setWidth 32)).setFsz 0) q = s2.getReg q := by
    intro q h1 h2
    simp [h1, h2]
  constructor
  · rw [hoth _ (by decide) (by decide)]; exact hslot 0 (by decide)
  · rw [hoth _ (by decide) (by decide)]; exact hslot 1 (by decide)
  · rw [hoth _ (by decide) (by decide)]; exact hslot 2 (by decide)
  · rw [hoth _ (by decide) (by decide)]; exact hslot 3 (by decide)
  · rw [hoth _ (by decide) (by decide)]; exact hslot 4 (by decide)
  · rw [hoth _ (by decide) (by decide)]; exact hslot 5 (by decide)
  · rw [hoth _ (by decide) (by decide)]; exact hslot 6 (by decide)
  · rw [hoth _ (by decide) (by decide)]; exact hslot 7 (by decide)
  · rw [hoth _ (by decide) (by decide)]; exact hslot 8 (by decide)
  · simp only [State.getReg_setFsz, State.getReg_setAddr, hsp2, Config.frameBytes, hsz]
    simp
  · simp
  · rw [hoth _ (by decide) (by decide), R.other _ (by decide) (by decide), ho1 _ (by decide)]
  · rw [hoth _ (by decide) (by decide), R.other _ (by decide) (by decide), ho1 _ (by decide)]
  · exact R.mem.trans hm1
  · rfl
  · exact R.ctgt.trans hc1
  · exact R.status.trans hst1
  · exact R.memSize.trans hz1
  · exact R.haltFlag.trans hh1

/-- The ten reads of a restore: the first that leaves memory faults. -/
theorem popState_error_read {pc0 : Addr} {s : State} (hz : s.memSize ≤ 2 ^ 32) {k : Nat}
    (hk1 : 1 ≤ k) (hk : k ≤ 10) (hlt : k = 1 ∨ s.fp.toNat + 8 * k ≤ s.memSize)
    (h : s.memSize < s.fp.toNat + 8 * k + 8) :
    popState pc0 s = .error (.outOfRange (s.fp.toNat + 8 * k) 8 .read pc0) := by
  have hsp : (s.setAddr .sp s.fp).sp = s.fp := by simp [State.sp]
  rcases Nat.lt_or_ge s.memSize (s.fp.toNat + 16) with h16 | h16
  · have hk' : k = 1 := by omega
    subst hk'
    simp only [popState]
    rw [pop_error (by rw [hsp, State.setAddr_memSize]; simp only [ScalarType.width]; omega)]
    simp [hsp, ScalarType.width]
  · have h1 : (s.setAddr .sp s.fp).sp.toNat + ScalarType.ulong.width + ScalarType.ulong.width
        ≤ (s.setAddr .sp s.fp).memSize := by
      rw [hsp, State.setAddr_memSize]
      simp only [ScalarType.width]
      omega
    have hn1 : (popped .ulong (s.setAddr .sp s.fp)).sp.toNat = s.fp.toNat + 8 := by
      rw [sp_popped, hsp, BitVec.toNat_add]
      simp only [ScalarType.width, BitVec.toNat_ofNat]
      omega
    have he := restoreRegs_error (pc0 := pc0) restoredRegs (popped .ulong (s.setAddr .sp s.fp))
      sp_notMem_restoredRegs hz (k - 2) (by show k - 2 < 9; omega)
      (by rw [hn1]; show _ ∨ s.fp.toNat + 8 + 8 * (k - 2) + 8 ≤ s.memSize; omega)
      (by rw [hn1]; show s.memSize < s.fp.toNat + 8 + 8 * (k - 2 + 1) + 8; omega)
    simp only [popState, pop_ok h1, he, hn1]
    rw [show s.fp.toNat + 8 + 8 * (k - 2 + 1) = s.fp.toNat + 8 * k by omega]

theorem popState_error_size {pc0 : Addr} {s : State} (hz : s.memSize ≤ 2 ^ 32)
    (h : s.fp.toNat + 88 ≤ s.memSize) (h80 : (frameField s 1).toNat < 80) :
    popState pc0 s = .error (.badFrameSize (frameField s 1) (s.fp.toNat + 8) pc0) := by
  obtain ⟨s1, s2, hp, hr, -⟩ := restore_frame (pc0 := pc0) hz h
  simp only [popState, hp, hr, if_pos (show (frameField s 1).toNat < Config.frameBytes from h80)]

theorem popState_error_discard {pc0 : Addr} {s : State} (hz : s.memSize ≤ 2 ^ 32)
    (h : s.fp.toNat + 88 ≤ s.memSize) (h80 : 80 < (frameField s 1).toNat)
    (hd : s.memSize ≤ s.fp.toNat + (frameField s 1).toNat) :
    popState pc0 s = .error (.outOfRange (max (s.fp.toNat + 81) s.memSize) 1 .read pc0) := by
  obtain ⟨s1, s2, hp, hr, R, hsp1, hm1, hz1, hc1, hst1, hh1, ho1, hw⟩ :=
    restore_frame (pc0 := pc0) hz h
  have hn2 : s2.sp.toNat = s.fp.toNat + 80 := by
    have : s2.sp = (s2.getReg .sp).setWidth 32 := rfl
    rw [this, R.sp, setWidth_zextAddr, hsp1, BitVec.add_assoc, BitVec.toNat_add]
    show (_ + 80) % _ = _
    omega
  have hms2 : s2.memSize = s.memSize := R.memSize.trans hz1
  have hdis := discardBytes_error (pc0 := pc0) (n := (frameField s 1).toNat - Config.frameBytes)
    (s := s2) (by simp only [Config.frameBytes]; omega)
    (by simp only [Config.frameBytes, hn2, hms2]; omega)
  simp only [popState, hp, hr, if_neg (show ¬ (frameField s 1).toNat < Config.frameBytes by
    simp only [Config.frameBytes]; omega), hdis, hn2, hms2]

end Sys2Proof.Machine
end

