-- ==== Sys2Proof/Laws/Decode.lean ====
section
/-! SUPPORT. The small laws of the decoder and the encoder: the opcode map, the tag table and the
selectors invert their encodings and do not overlap (R86 to R88); the fetch helpers (R112 to R115). -/

namespace Sys2Proof

@[simp] theorem ScalarType.ofTag_tag (t : ScalarType) : ScalarType.ofTag t.tag = some t := by
  cases t <;> decide

@[simp] theorem Opcode.ofByte_byte (op : Opcode) : Opcode.ofByte op.byte = some op := by
  cases op <;> decide

@[simp] theorem Reg.ofSelector_selector (r : Reg) : Reg.ofSelector r.selector = r := by
  cases r <;> decide

/-- R88: no two opcodes share a byte. -/
theorem Opcode.bytes_nodup : (Opcode.all.map Opcode.byte).Nodup := by decide

/-- R86: no two types share a tag. -/
theorem ScalarType.tags_nodup : (ScalarType.all.map ScalarType.tag).Nodup := by decide

theorem Opcode.byte_of_ofByte {b : Byte} {op : Opcode} (h : Opcode.ofByte b = some op) :
    op.byte = b := by
  have := List.find?_some h
  simpa using this

theorem ScalarType.tag_of_ofTag {b : Byte} {t : ScalarType} (h : ScalarType.ofTag b = some t) :
    t.tag = b := by
  have := List.find?_some h
  simpa using this

theorem Opcode.mem_all (op : Opcode) : op ∈ Opcode.all := by cases op <;> decide

theorem ScalarType.mem_all (t : ScalarType) : t ∈ ScalarType.all := by cases t <;> decide

/-- R90: the bytes that no opcode has. -/
theorem Opcode.ofByte_eq_none {b : Byte} :
    Opcode.ofByte b = none ↔ b ∉ Opcode.all.map Opcode.byte := by
  simp only [Opcode.ofByte, List.find?_eq_none, List.mem_map, not_exists, not_and, beq_iff_eq]

/-- R91: the bytes that are no type's tag. -/
theorem ScalarType.ofTag_eq_none {b : Byte} :
    ScalarType.ofTag b = none ↔ b ∉ ScalarType.all.map ScalarType.tag := by
  simp only [ScalarType.ofTag, List.find?_eq_none, List.mem_map, not_exists, not_and, beq_iff_eq]

theorem Reg.index_ofSelector (b : Byte) : (Reg.ofSelector b).index = b.toNat % 13 := by
  have h : ∀ n : Fin 13, (Reg.all.getD n.val .ip).index = n.val := by decide
  exact h ⟨b.toNat % 13, Nat.mod_lt _ (by omega)⟩

/-! ## Fetch helpers -/

theorem fetchField_ok {fetch : Nat → Nat → Option Nat} {off n v : Nat} (h : fetch off n = some v) :
    fetchField fetch off n = .ok v := by simp [fetchField, h]

theorem fetchField_error {fetch : Nat → Nat → Option Nat} {off n : Nat} (h : fetch off n = none) :
    fetchField fetch off n = .error (.truncated off n) := by simp [fetchField, h]

/-- Everything a field fetch can do. -/
theorem fetchField_cases (fetch : Nat → Nat → Option Nat) (off n : Nat) :
    (∃ v, fetch off n = some v ∧ fetchField fetch off n = .ok v) ∨
    (fetch off n = none ∧ fetchField fetch off n = .error (.truncated off n)) := by
  cases h : fetch off n with
  | none => exact .inr ⟨rfl, fetchField_error h⟩
  | some v => exact .inl ⟨v, rfl, fetchField_ok h⟩

@[simp] theorem ofNat_toNat_byte (b : Byte) : BitVec.ofNat 8 b.toNat = b := by
  apply BitVec.eq_of_toNat_eq
  simp

theorem fetchType_ok {fetch : Nat → Nat → Option Nat} {b : Byte} {t : ScalarType}
    (h : fetch 1 1 = some b.toNat) (ht : ScalarType.ofTag b = some t) : fetchType fetch = .ok t := by
  simp [fetchType, fetchField_ok h, ht, bind, Except.bind]

theorem fetchType_unknown {fetch : Nat → Nat → Option Nat} {b : Byte}
    (h : fetch 1 1 = some b.toNat) (ht : ScalarType.ofTag b = none) :
    fetchType fetch = .error (.unknownTypeTag b) := by
  simp [fetchType, fetchField_ok h, ht, bind, Except.bind]

theorem fetchReg_ok {fetch : Nat → Nat → Option Nat} {off : Nat} {b : Byte}
    (h : fetch off 1 = some b.toNat) : fetchReg fetch off = .ok (Reg.ofSelector b) := by
  simp [fetchReg, fetchField_ok h, bind, Except.bind]

theorem fetchLit_ok {fetch : Nat → Nat → Option Nat} {off : Nat} {t : ScalarType} {v : Word}
    (h : fetch off t.width = some v.toNat) : fetchLit fetch off t = .ok v := by
  simp [fetchLit, fetchField_ok h, bind, Except.bind]

theorem fetchAddr_ok {fetch : Nat → Nat → Option Nat} {off : Nat} {a : Addr}
    (h : fetch off 4 = some a.toNat) : fetchAddr fetch off = .ok a := by
  simp [fetchAddr, fetchField_ok h, bind, Except.bind]

theorem decodeWith_opcode {fetch : Nat → Nat → Option Nat} {b : Byte} {op : Opcode}
    (h : fetch 0 1 = some b.toNat) (hb : Opcode.ofByte b = some op) :
    decodeWith fetch = decodeOperands fetch op := by
  simp [decodeWith, fetchField_ok h, hb, bind, Except.bind]

theorem decodeWith_unknown {fetch : Nat → Nat → Option Nat} {b : Byte}
    (h : fetch 0 1 = some b.toNat) (hb : Opcode.ofByte b = none) :
    decodeWith fetch = .error (.unknownOpcode b) := by
  simp [decodeWith, fetchField_ok h, hb, bind, Except.bind]

/-! ## Inversion -/

/-- A fetch that succeeds, then the rest. -/
theorem bind_eq_ok {ε α β : Type} {x : Except ε α} {g : α → Except ε β} {b : β} :
    (x >>= g) = .ok b ↔ ∃ a, x = .ok a ∧ g a = .ok b := by
  cases x <;> simp [bind, Except.bind]

theorem fetchField_eq_ok {fetch : Nat → Nat → Option Nat} {off n v : Nat} :
    fetchField fetch off n = .ok v ↔ fetch off n = some v := by
  cases h : fetch off n <;> simp [fetchField, h]

theorem fetchType_eq_ok {fetch : Nat → Nat → Option Nat} {t : ScalarType} :
    fetchType fetch = .ok t ↔
      ∃ v, fetch 1 1 = some v ∧ ScalarType.ofTag (BitVec.ofNat 8 v) = some t := by
  simp only [fetchType, bind_eq_ok, fetchField_eq_ok]
  refine exists_congr fun v => and_congr_right fun _ => ?_
  cases h : ScalarType.ofTag (BitVec.ofNat 8 v) <;> simp

theorem fetchLit_eq_ok {fetch : Nat → Nat → Option Nat} {off : Nat} {t : ScalarType} {w : Word} :
    fetchLit fetch off t = .ok w ↔ ∃ v, fetch off t.width = some v ∧ BitVec.ofNat 64 v = w := by
  simp [fetchLit, bind_eq_ok, fetchField_eq_ok]

theorem fetchAddr_eq_ok {fetch : Nat → Nat → Option Nat} {off : Nat} {a : Addr} :
    fetchAddr fetch off = .ok a ↔ ∃ v, fetch off 4 = some v ∧ BitVec.ofNat 32 v = a := by
  simp [fetchAddr, bind_eq_ok, fetchField_eq_ok]

theorem fetchReg_eq_ok {fetch : Nat → Nat → Option Nat} {off : Nat} {r : Reg} :
    fetchReg fetch off = .ok r ↔
      ∃ v, fetch off 1 = some v ∧ Reg.ofSelector (BitVec.ofNat 8 v) = r := by
  simp [fetchReg, bind_eq_ok, fetchField_eq_ok]

theorem decodeWith_eq_ok {fetch : Nat → Nat → Option Nat} {i : Instr} :
    decodeWith fetch = .ok i ↔
      ∃ v op, fetch 0 1 = some v ∧ Opcode.ofByte (BitVec.ofNat 8 v) = some op ∧
        decodeOperands fetch op = .ok i := by
  simp only [decodeWith, bind_eq_ok, fetchField_eq_ok]
  constructor
  · rintro ⟨v, hv, h⟩
    cases hop : Opcode.ofByte (BitVec.ofNat 8 v) with
    | none => simp [hop] at h
    | some op => exact ⟨v, op, hv, hop, by simpa [hop] using h⟩
  · rintro ⟨v, op, hv, hop, h⟩
    exact ⟨v, hv, by simpa [hop] using h⟩

/-- What each opcode's operands decode to carries that opcode. -/
theorem opcode_of_decodeOperands {fetch : Nat → Nat → Option Nat} {op : Opcode} {i : Instr}
    (h : decodeOperands fetch op = .ok i) : i.opcode = op := by
  cases op <;>
    simp only [decodeOperands, bind_eq_ok, Except.ok.injEq] at h <;>
    grind [Instr.opcode]

/-! ## Values of encoded fields -/

theorem beValue_singleton (b : Byte) : beValue [b] = b.toNat := by
  simp [beValue, beValueFrom]

theorem beValue_litBytes {t : ScalarType} {lit : Word} (h : t.fits lit = true) :
    beValue (litBytes t lit) = lit.toNat := by
  rw [litBytes, Machine.beValue_beBytes]
  apply Nat.mod_eq_of_lt
  have := h
  simp only [ScalarType.fits, decide_eq_true_eq, Nat.pow_mul] at this
  exact this

theorem beValue_addrBytes (a : Addr) : beValue (addrBytes a) = a.toNat := by
  rw [addrBytes, Machine.beValue_beBytes]
  exact Nat.mod_eq_of_lt a.isLt

@[simp] theorem length_litBytes (t : ScalarType) (lit : Word) : (litBytes t lit).length = t.width :=
  Machine.length_beBytes _ _

@[simp] theorem length_addrBytes (a : Addr) : (addrBytes a).length = 4 := Machine.length_beBytes _ _

end Sys2Proof
end

