-- ==== Sys2Proof/Laws/PerInstr.lean ====
section
/-! SUPPORT. Statements for all instructions, one lemma per constructor. -/

namespace Sys2Proof.Laws.EncodedLength

/-- R80, R82: an instruction's bytes are as many as its length says, its opcode byte the first, and at
most 14. -/
def Statement (i : Sys2Proof.Instr) : Prop :=
  (Sys2Proof.encode i).length = i.length ∧ (Sys2Proof.encode i).head? = some i.opcode.byte ∧
    i.length ≤ Sys2Proof.maxInstrBytes

theorem hlt : Statement .hlt := by
  simp [Statement, encode, Instr.operandBytes, Instr.length, maxInstrBytes]

theorem movLitReg (t : ScalarType) (lit : Word) (dst : Reg) : Statement (.movLitReg t lit dst) := by
  cases t <;>
    simp [Statement, encode, Instr.operandBytes, Instr.length, maxInstrBytes, ScalarType.width]

theorem movRegReg (t : ScalarType) (src dst : Reg) : Statement (.movRegReg t src dst) := by
  simp [Statement, encode, Instr.operandBytes, Instr.length, maxInstrBytes]

theorem movRegMem (t : ScalarType) (src : Reg) (addr : Addr) : Statement (.movRegMem t src addr) := by
  simp [Statement, encode, Instr.operandBytes, Instr.length, maxInstrBytes]

theorem movMemReg (t : ScalarType) (addr : Addr) (dst : Reg) : Statement (.movMemReg t addr dst) := by
  simp [Statement, encode, Instr.operandBytes, Instr.length, maxInstrBytes]

theorem addRegReg (t : ScalarType) (src1 src2 : Reg) : Statement (.addRegReg t src1 src2) := by
  simp [Statement, encode, Instr.operandBytes, Instr.length, maxInstrBytes]

theorem jmpNotEq (t : ScalarType) (lit : Word) (target : Addr) :
    Statement (.jmpNotEq t lit target) := by
  cases t <;>
    simp [Statement, encode, Instr.operandBytes, Instr.length, maxInstrBytes, ScalarType.width]

theorem pshLit (t : ScalarType) (lit : Word) : Statement (.pshLit t lit) := by
  cases t <;>
    simp [Statement, encode, Instr.operandBytes, Instr.length, maxInstrBytes, ScalarType.width]

theorem pshReg (t : ScalarType) (src : Reg) : Statement (.pshReg t src) := by
  simp [Statement, encode, Instr.operandBytes, Instr.length, maxInstrBytes]

theorem pop (t : ScalarType) (dst : Reg) : Statement (.pop t dst) := by
  simp [Statement, encode, Instr.operandBytes, Instr.length, maxInstrBytes]

theorem calLit (target : Addr) : Statement (.calLit target) := by
  simp [Statement, encode, Instr.operandBytes, Instr.length, maxInstrBytes]

theorem calReg (target : Reg) : Statement (.calReg target) := by
  simp [Statement, encode, Instr.operandBytes, Instr.length, maxInstrBytes]

theorem ret : Statement .ret := by
  simp [Statement, encode, Instr.operandBytes, Instr.length, maxInstrBytes]

theorem tailcall : Statement .tailcall := by
  simp [Statement, encode, Instr.operandBytes, Instr.length, maxInstrBytes]

end Sys2Proof.Laws.EncodedLength
end

