-- ==== Sys2Proof/Laws/Step.lean ====
section
/-! SUPPORT. What every operation, and so every step, carries along: the size, the status, the output
and memory's invariant when it finishes; the faulting instruction's address and the reason when it
faults. -/

namespace Sys2Proof.Machine

/-! ## Memory stays inside itself -/

theorem Memory.within_write {m : Memory} {a size : Nat} (v : Byte) (ha : a < size)
    (h : Memory.within m size = true) : Memory.within (Memory.write m a v) size = true := by
  induction m with
  | nil =>
    simp only [Memory.write]
    split <;> simp [Memory.within, ha]
  | cons c t ih =>
    obtain ⟨b, w⟩ := c
    simp only [Memory.within, List.all_cons, Bool.and_eq_true, decide_eq_true_eq] at h ih
    simp only [Memory.write]
    repeat' split
    all_goals simp only [Memory.within, List.all_cons, Bool.and_eq_true, decide_eq_true_eq]
    · exact h
    · exact ⟨ha, h⟩
    · exact h.2
    · exact ⟨ha, h.2⟩
    · exact ⟨h.1, ih h.2⟩

theorem Memory.within_writeBytes {m : Memory} {a size : Nat} (bs : List Byte)
    (ha : a + bs.length ≤ size) (h : Memory.within m size = true) :
    Memory.within (Memory.writeBytes m a bs) size = true := by
  induction bs generalizing m a with
  | nil => exact h
  | cons b bs ih =>
    simp only [List.length_cons] at ha
    exact ih (by omega) (Memory.within_write b (by omega) h)

/-- The parts of `State.inv`. -/
theorem State.inv_iff {s : State} :
    s.inv = true ↔ Memory.wf s.mem = true ∧ Memory.within s.mem s.memSize = true ∧
      8 ≤ s.memSize ∧ s.memSize ≤ 2 ^ 32 := by
  unfold State.inv Config.minMemSize Config.maxMemSize
  rw [Bool.and_eq_true, Bool.and_eq_true, Bool.and_eq_true, decide_eq_true_iff, decide_eq_true_iff,
    and_assoc, and_assoc]
  exact Iff.rfl

/-! ## What a finished operation carries along -/

/-- The size, the status and the output are the same and the invariant is kept. -/
structure Carries (s u : State) : Prop where
  memSize : u.memSize = s.memSize
  status : u.status = s.status
  haltFlag : u.haltFlag = s.haltFlag
  inv : s.inv = true → u.inv = true

theorem Carries.refl (s : State) : Carries s s := ⟨rfl, rfl, rfl, id⟩

theorem Carries.trans {s u w : State} (h : Carries s u) (k : Carries u w) : Carries s w :=
  ⟨k.memSize.trans h.memSize, k.status.trans h.status, k.haltFlag.trans h.haltFlag,
    fun hs => k.inv (h.inv hs)⟩

theorem carries_of_mem {s u : State} (hm : u.mem = s.mem) (hz : u.memSize = s.memSize)
    (hst : u.status = s.status) (hh : u.haltFlag = s.haltFlag) : Carries s u :=
  ⟨hz, hst, hh, fun h => by simpa only [State.inv, hm, hz] using h⟩

theorem carries_setReg (s : State) (r : Reg) (v : Word) : Carries s (s.setReg r v) :=
  carries_of_mem rfl rfl rfl rfl
theorem carries_setAddr (s : State) (r : Reg) (a : Addr) : Carries s (s.setAddr r a) :=
  carries_of_mem rfl rfl rfl rfl
theorem carries_setz (s : State) (t : ScalarType) (r : Reg) (v : Word) : Carries s (s.setz t r v) :=
  carries_of_mem rfl rfl rfl rfl
theorem carries_setnz (s : State) (t : ScalarType) (r : Reg) (v : Word) :
    Carries s (s.setnz t r v) := carries_of_mem rfl rfl rfl rfl
theorem carries_setFsz (s : State) (w : Word) : Carries s (s.setFsz w) :=
  carries_of_mem rfl rfl rfl rfl
theorem carries_setCtgt (s : State) (c : Option Addr) : Carries s (s.setCtgt c) :=
  carries_of_mem rfl rfl rfl rfl

/-- The fetch sets the output to Continue and carries the rest. -/
theorem afterFetch_inv {s : State} (n : Nat) (h : s.inv = true) : (s.afterFetch n).inv = true := h

/-- A fault that the instruction at `pc0` raises in execution, in a memory of `size` bytes: it names
the instruction, it is not one of decoding, and if it is out of range its bytes are. -/
structure FaultOf (pc0 : Addr) (size : Nat) (f : Fault) : Prop where
  pc0 : f.pc0 = pc0
  range : ∀ a n acc p, f = .outOfRange a n acc p → size < a + n ∧ 1 ≤ n ∧ n ≤ 8
  tag : ∀ b a p, f ≠ .unknownTypeTag b a p
  opcode : ∀ b a, f ≠ .unknownOpcode b a

theorem faultOf_outOfRange {pc0 : Addr} {size a n : Nat} {acc : Access} (h : size < a + n)
    (h1 : 1 ≤ n) (h8 : n ≤ 8) : FaultOf pc0 size (.outOfRange a n acc pc0) :=
  ⟨rfl, fun _ _ _ _ e => by cases e; exact ⟨h, h1, h8⟩, by simp, by simp⟩

/-! ## The operations -/

theorem memRead_fault {pc0 : Addr} {s : State} {addr n : Nat} {f : Fault} (h1 : 1 ≤ n) (h8 : n ≤ 8)
    (h : memRead pc0 s addr n = .error f) : FaultOf pc0 s.memSize f := by
  rcases memRead_cases pc0 s addr n with ⟨-, e⟩ | ⟨hr, e⟩
  · rw [e] at h; cases h
  · rw [e] at h; cases h; exact faultOf_outOfRange hr h1 h8

theorem memWrite_fault {pc0 : Addr} {s : State} {addr n : Nat} {v : Word} {f : Fault} (h1 : 1 ≤ n)
    (h8 : n ≤ 8) (h : memWrite pc0 s addr n v = .error f) : FaultOf pc0 s.memSize f := by
  rcases memWrite_cases pc0 s addr n v with ⟨-, e⟩ | ⟨hr, e⟩
  · rw [e] at h; cases h
  · rw [e] at h; cases h; exact faultOf_outOfRange hr h1 h8

theorem memWrite_carries {pc0 : Addr} {s u : State} {addr n : Nat} {v : Word}
    (h : memWrite pc0 s addr n v = .ok u) : Carries s u := by
  rcases memWrite_cases pc0 s addr n v with ⟨hr, e⟩ | ⟨-, e⟩
  · rw [e] at h
    cases h
    refine ⟨rfl, rfl, rfl, fun hi => ?_⟩
    rw [State.inv_iff] at hi ⊢
    exact ⟨Memory.wf_writeBytes _ _ hi.1, Memory.within_writeBytes _ (by simpa using hr) hi.2.1,
      hi.2.2⟩
  · rw [e] at h; cases h

theorem push_carries {pc0 : Addr} {t : ScalarType} {v : Word} {s u : State}
    (h : push pc0 t v s = .ok u) : Carries s u := by
  simp only [push] at h
  split at h
  · rename_i s1 e
    cases h
    exact (memWrite_carries e).trans ((carries_setAddr _ _ _).trans (carries_setFsz _ _))
  · cases h

theorem push_fault {pc0 : Addr} {t : ScalarType} {v : Word} {s : State} {f : Fault}
    (h : push pc0 t v s = .error f) : FaultOf pc0 s.memSize f := by
  simp only [push] at h
  split at h
  · cases h
  · rename_i e
    cases h
    exact memWrite_fault (ScalarType.width_pos t) (ScalarType.width_le t) e

theorem pop_carries {pc0 : Addr} {t : ScalarType} {v : Word} {s u : State}
    (h : pop pc0 t s = .ok (v, u)) : Carries s u := by
  simp only [pop] at h
  split at h
  · cases h
    exact (carries_setAddr _ _ _).trans (carries_setFsz _ _)
  · cases h

theorem pop_fault {pc0 : Addr} {t : ScalarType} {s : State} {f : Fault}
    (h : pop pc0 t s = .error f) : FaultOf pc0 s.memSize f := by
  simp only [pop] at h
  split at h
  · cases h
  · rename_i e
    cases h
    exact memRead_fault (ScalarType.width_pos t) (ScalarType.width_le t) e

theorem saveRegs_carries {pc0 : Addr} {rs : List Reg} {s u : State}
    (h : saveRegs pc0 rs s = .ok u) : Carries s u := by
  induction rs generalizing s with
  | nil => cases h; exact Carries.refl _
  | cons r rs ih =>
    simp only [saveRegs] at h
    split at h
    · rename_i e
      exact (push_carries e).trans (ih h)
    · cases h

theorem saveRegs_fault {pc0 : Addr} {rs : List Reg} {s : State} {f : Fault}
    (h : saveRegs pc0 rs s = .error f) : FaultOf pc0 s.memSize f := by
  induction rs generalizing s with
  | nil => cases h
  | cons r rs ih =>
    simp only [saveRegs] at h
    split at h
    · rename_i e
      rw [← (push_carries e).memSize]
      exact ih h
    · rename_i e
      cases h
      exact push_fault e

theorem restoreRegs_carries {pc0 : Addr} {rs : List Reg} {s u : State}
    (h : restoreRegs pc0 rs s = .ok u) : Carries s u := by
  induction rs generalizing s with
  | nil => cases h; exact Carries.refl _
  | cons r rs ih =>
    simp only [restoreRegs] at h
    split at h
    · rename_i e
      exact (pop_carries e).trans ((carries_setReg _ _ _).trans (ih h))
    · cases h

theorem restoreRegs_fault {pc0 : Addr} {rs : List Reg} {s : State} {f : Fault}
    (h : restoreRegs pc0 rs s = .error f) : FaultOf pc0 s.memSize f := by
  induction rs generalizing s with
  | nil => cases h
  | cons r rs ih =>
    simp only [restoreRegs] at h
    split at h
    · rename_i e
      have := ih h
      rwa [State.setReg_memSize, (pop_carries e).memSize] at this
    · rename_i e
      cases h
      exact pop_fault e

theorem pushState_carries {pc0 : Addr} {s u : State} (h : pushState pc0 s = .ok u) :
    Carries s u := by
  simp only [pushState] at h
  split at h
  · rename_i e1
    split at h
    · rename_i e2
      cases h
      exact (saveRegs_carries e1).trans ((push_carries e2).trans ((carries_setAddr _ _ _).trans
        ((carries_setAddr _ _ _).trans (carries_setFsz _ _))))
    · cases h
  · cases h

theorem pushState_fault {pc0 : Addr} {s : State} {f : Fault} (h : pushState pc0 s = .error f) :
    FaultOf pc0 s.memSize f := by
  simp only [pushState] at h
  split at h
  · rename_i e1
    split at h
    · cases h
    · rename_i e2
      cases h
      rw [← (saveRegs_carries e1).memSize]
      exact push_fault e2
  · rename_i e1
    cases h
    exact saveRegs_fault e1

theorem callTo_carries {pc0 a : Addr} {s u : State} (h : callTo pc0 a s = .ok u) :
    Carries s u := by
  simp only [callTo] at h
  split at h
  · rename_i e
    cases h
    exact (carries_setCtgt s (some a)).trans ((pushState_carries e).trans (carries_setAddr _ _ _))
  · cases h

theorem callTo_fault {pc0 a : Addr} {s : State} {f : Fault} (h : callTo pc0 a s = .error f) :
    FaultOf pc0 s.memSize f := by
  simp only [callTo] at h
  split at h
  · cases h
  · rename_i e
    cases h
    have := pushState_fault e
    exact this

theorem discardBytes_carries {pc0 : Addr} {n : Nat} {s u : State}
    (h : discardBytes pc0 n s = .ok u) : Carries s u := by
  simp only [discardBytes] at h
  split at h
  · cases h
  · cases h
    exact carries_setAddr _ _ _

theorem discardBytes_fault {pc0 : Addr} {n : Nat} {s : State} {f : Fault}
    (h : discardBytes pc0 n s = .error f) : FaultOf pc0 s.memSize f := by
  simp only [discardBytes] at h
  split at h
  · cases h
    exact faultOf_outOfRange (by omega) (by omega) (by omega)
  · cases h

theorem popState_carries {pc0 : Addr} {s u : State} (h : popState pc0 s = .ok u) :
    Carries s u := by
  simp only [popState] at h
  split at h
  · rename_i e1
    split at h
    · rename_i e2
      split at h
      · cases h
      · split at h
        · rename_i e3
          cases h
          exact (carries_setAddr s .sp s.fp).trans ((pop_carries e1).trans
            ((restoreRegs_carries e2).trans ((discardBytes_carries e3).trans
              ((carries_setAddr _ _ _).trans (carries_setFsz _ _)))))
        · cases h
    · cases h
  · cases h

theorem popState_fault {pc0 : Addr} {s : State} {f : Fault} (h : popState pc0 s = .error f) :
    FaultOf pc0 s.memSize f := by
  simp only [popState] at h
  split at h
  · rename_i e1
    have z1 := (pop_carries e1).memSize
    split at h
    · rename_i e2
      have z2 := (restoreRegs_carries e2).memSize
      split at h
      · cases h
        exact ⟨rfl, by simp, by simp, by simp⟩
      · split at h
        · cases h
        · rename_i e3
          cases h
          have := discardBytes_fault e3
          rwa [z2, z1] at this
    · rename_i e2
      cases h
      have := restoreRegs_fault e2
      rwa [z1] at this
  · rename_i e1
    cases h
    have := pop_fault e1
    exact this

theorem finish_eq_next {x : Except Fault State} {u : State} : finish x = .next u ↔ x = .ok u := by
  cases x <;> simp [finish]

theorem finish_eq_fault {x : Except Fault State} {f : Fault} : finish x = .fault f ↔ x = .error f := by
  cases x <;> simp [finish]

theorem finish_ne_refused (x : Except Fault State) (r : Refusal) : finish x ≠ .refused r := by
  cases x <;> simp [finish]

/-! ## Every instruction -/

/-- What every instruction that finishes carries along; the output is Halt for HLT alone. -/
theorem exec_carries {i : Instr} {s u : State} (h : exec i s = .next u) :
    u.memSize = s.memSize ∧ u.status = s.status ∧ (u.haltFlag = true ↔ i = .hlt) ∧
      (s.inv = true → u.inv = true) := by
  have key : ∀ n, ∀ j : Instr, j ≠ .hlt → Carries (s.afterFetch n) u →
      u.memSize = s.memSize ∧ u.status = s.status ∧ (u.haltFlag = true ↔ j = .hlt) ∧
        (s.inv = true → u.inv = true) := by
    intro n j hj c
    refine ⟨c.memSize, c.status, ?_, fun hi => c.inv (afterFetch_inv n hi)⟩
    rw [c.haltFlag]
    simp [hj]
  cases i with
  | hlt =>
    simp only [exec, execHlt] at h
    cases h
    exact ⟨rfl, rfl, by simp, fun hi => hi⟩
  | movLitReg t lit d =>
    simp only [exec, execMovLitReg] at h
    cases h
    exact key _ _ (by simp) (carries_setz _ _ _ _)
  | movRegReg t r d =>
    simp only [exec, execMovRegReg] at h
    cases h
    exact key _ _ (by simp) (carries_setz _ _ _ _)
  | movRegMem t r a =>
    simp only [exec, execMovRegMem, finish_eq_next] at h
    exact key _ _ (by simp) (memWrite_carries h)
  | movMemReg t a d =>
    simp only [exec, execMovMemReg] at h
    split at h
    · cases h
      exact key _ _ (by simp) (carries_setz _ _ _ _)
    · cases h
  | addRegReg t x y =>
    simp only [exec, execAddRegReg] at h
    cases h
    exact key _ _ (by simp) (carries_setz _ _ _ _)
  | jmpNotEq t lit a =>
    simp only [exec, execJmpNotEq, Host.Outcome.next.injEq] at h
    subst h
    apply key (6 + t.width) _ (by simp)
    split
    · exact carries_setAddr _ _ _
    · exact Carries.refl _
  | pshLit t lit =>
    simp only [exec, execPshLit, finish_eq_next] at h
    exact key _ _ (by simp) (push_carries h)
  | pshReg t r =>
    simp only [exec, execPshReg, finish_eq_next] at h
    exact key _ _ (by simp) (push_carries h)
  | pop t d =>
    simp only [exec, execPop] at h
    split at h
    · rename_i e
      cases h
      exact key _ _ (by simp) ((pop_carries e).trans (carries_setnz _ _ _ _))
    · cases h
  | calLit a =>
    simp only [exec, execCalLit, finish_eq_next] at h
    exact key _ _ (by simp) (callTo_carries h)
  | calReg r =>
    simp only [exec, execCalReg, finish_eq_next] at h
    exact key _ _ (by simp) (callTo_carries h)
  | ret =>
    simp only [exec, execRet, finish_eq_next] at h
    exact key 1 _ (by simp) ((carries_setCtgt _ _).trans (popState_carries h))
  | tailcall =>
    simp only [exec, execTailcall] at h
    split at h
    · cases h
      exact key 1 _ (by simp) (carries_setAddr _ _ _)
    · cases h

/-- What every fault of an instruction says. -/
theorem exec_fault {i : Instr} {s : State} {f : Fault} (h : exec i s = .fault f) :
    FaultOf s.pc s.memSize f := by
  cases i with
  | hlt => simp only [exec, execHlt] at h; cases h
  | movLitReg t lit d => simp only [exec, execMovLitReg] at h; cases h
  | movRegReg t r d => simp only [exec, execMovRegReg] at h; cases h
  | movRegMem t r a =>
    simp only [exec, execMovRegMem, finish_eq_fault] at h
    have := memWrite_fault (ScalarType.width_pos t) (ScalarType.width_le t) h
    exact this
  | movMemReg t a d =>
    simp only [exec, execMovMemReg] at h
    split at h
    · cases h
    · rename_i e
      cases h
      have := memRead_fault (ScalarType.width_pos t) (ScalarType.width_le t) e
      exact this
  | addRegReg t x y => simp only [exec, execAddRegReg] at h; cases h
  | jmpNotEq t lit a => simp only [exec, execJmpNotEq] at h; cases h
  | pshLit t lit =>
    simp only [exec, execPshLit, finish_eq_fault] at h
    have := push_fault h
    exact this
  | pshReg t r =>
    simp only [exec, execPshReg, finish_eq_fault] at h
    have := push_fault h
    exact this
  | pop t d =>
    simp only [exec, execPop] at h
    split at h
    · cases h
    · rename_i e
      cases h
      have := pop_fault e
      exact this
  | calLit a =>
    simp only [exec, execCalLit, finish_eq_fault] at h
    have := callTo_fault h
    exact this
  | calReg r =>
    simp only [exec, execCalReg, finish_eq_fault] at h
    have := callTo_fault h
    exact this
  | ret =>
    simp only [exec, execRet, finish_eq_fault] at h
    have := popState_fault h
    exact this
  | tailcall =>
    simp only [exec, execTailcall] at h
    split at h
    · cases h
    · cases h
      exact ⟨rfl, by simp, by simp, by simp⟩

theorem exec_ne_refused (i : Instr) (s : State) (r : Refusal) : exec i s ≠ .refused r := by
  cases i <;>
    simp only [exec, execHlt, execMovLitReg, execMovRegReg, execMovRegMem, execMovMemReg,
      execAddRegReg, execJmpNotEq, execPshLit, execPshReg, execPop, execCalLit, execCalReg, execRet,
      execTailcall, ne_eq, finish_ne_refused, not_false_eq_true, reduceCtorEq] <;>
    split <;> simp

/-! ## The step -/

/-- Everything a step can do. -/
theorem step_cases (s : State) :
    (∃ f, s.status = .fault f ∧ step s = .fault f) ∨
    (s.status = .run ∧ ∃ i, decodeAt s = .ok i ∧ step s = exec i s) ∨
    (s.status = .run ∧ ∃ e, decodeAt s = .error e ∧ step s = .fault (DecodeError.toFault s.pc e)) := by
  cases hs : s.status with
  | fault f => exact .inl ⟨f, rfl, by simp [step, hs]⟩
  | run =>
    cases hd : decodeAt s with
    | ok i => exact .inr (.inl ⟨rfl, i, rfl, by simp [step, hs, hd]⟩)
    | error e => exact .inr (.inr ⟨rfl, e, rfl, by simp [step, hs, hd]⟩)

theorem fetchFromMem_some {s : State} {off n : Nat}
    (h : (s.pc + BitVec.ofNat 32 off).toNat + n ≤ s.memSize) :
    fetchFromMem s off n =
      some (beValue (Memory.readBytes s.mem (s.pc + BitVec.ofNat 32 off).toNat n)) :=
  State.load_eq_some h

theorem fetchFromMem_none {s : State} {off n : Nat}
    (h : s.memSize < (s.pc + BitVec.ofNat 32 off).toNat + n) : fetchFromMem s off n = none :=
  State.load_eq_none h

theorem fetchFromMem_eq_none {s : State} {off n : Nat} :
    fetchFromMem s off n = none ↔ s.memSize < (s.pc + BitVec.ofNat 32 off).toNat + n := by
  constructor
  · intro h
    by_contra hc
    rw [fetchFromMem_some (by omega)] at h
    cases h
  · exact fetchFromMem_none

/-- A one-byte field is the byte. -/
theorem fetchFromMem_byte {s : State} {off : Nat}
    (h : (s.pc + BitVec.ofNat 32 off).toNat < s.memSize) :
    fetchFromMem s off 1 = some (s.byte (s.pc + BitVec.ofNat 32 off).toNat).toNat := by
  rw [fetchFromMem_some (by omega)]
  simp [Memory.readBytes, beValue_singleton, State.byte]

end Sys2Proof.Machine
end

