-- ==== Sys2Proof/Laws/Fields.lean ====
section
/-! SUPPORT. The laws of an instruction's fields (R82): they lie end to end, and what the decoder
answers where only the first bytes of an instruction can be fetched (R112, R195). -/

namespace Sys2Proof.Machine

/-- The fields are as long as the instruction. -/
theorem fieldsOf_total (i : Instr) : ((fieldsOf i).map Prod.snd).sum = i.length := by
  cases i <;> simp [fieldsOf, Instr.length] <;> omega

/-- Every field lies in the instruction and holds a byte. -/
theorem fieldsOf_within {i : Instr} {p : Nat × Nat} (h : p ∈ fieldsOf i) :
    0 < p.2 ∧ p.1 + p.2 ≤ i.length := by
  cases i <;> simp only [fieldsOf, List.mem_cons, List.not_mem_nil, or_false] at h <;>
    rcases h with rfl | rfl | rfl | rfl <;>
    simp [Instr.length, ScalarType.width_pos] <;> omega

/-- An instruction that lies in memory has no field outside it. -/
theorem firstFieldOutside_none {s : State} {i : Instr} (h : s.pc.toNat + i.length ≤ s.memSize) :
    firstFieldOutside s i = none := by
  rw [firstFieldOutside, List.find?_eq_none]
  intro p hp
  have := (fieldsOf_within hp).2
  simp only [decide_eq_true_eq]
  omega

/-- The first field of a list is missing, or it is fetched and the rest is in question. -/
theorem fields_cons {fetch fetch' : Nat → Nat → Option Nat} {missing : Nat × Nat → Bool}
    {off n : Nat} {ps : List (Nat × Nat)}
    (present : ∀ p ∈ (off, n) :: ps, missing p = false → fetch' p.1 p.2 = fetch p.1 p.2)
    (absent : ∀ p, ((off, n) :: ps).find? missing = some p → fetch' p.1 p.2 = none) :
    (((off, n) :: ps).find? missing = some (off, n) ∧
        fetchField fetch' off n = .error (.truncated off n)) ∨
      (((off, n) :: ps).find? missing = ps.find? missing ∧
        fetchField fetch' off n = fetchField fetch off n ∧
        (∀ p ∈ ps, missing p = false → fetch' p.1 p.2 = fetch p.1 p.2) ∧
        (∀ p, ps.find? missing = some p → fetch' p.1 p.2 = none)) := by
  cases hm : missing (off, n) with
  | true =>
    have hf := List.find?_cons_of_pos (p := missing) (l := ps) hm
    exact .inl ⟨hf, fetchField_error (absent _ hf)⟩
  | false =>
    have hf := List.find?_cons_of_neg (p := missing) (l := ps)
      (by simp [hm] : ¬ missing (off, n) = true)
    refine .inr ⟨hf, ?_, fun p hp => present p (.tail _ hp), fun p hp => absent p (hf.trans hp)⟩
    rw [fetchField, fetchField, present _ (.head _) hm]

/-- A decoder whose fetch answers as another's, but for missing fields, decodes the same instruction
or stops at the first field, in stream order, that is missing. -/
theorem decodeWith_first_missing {fetch fetch' : Nat → Nat → Option Nat} {i : Instr}
    {missing : Nat × Nat → Bool} (h : decodeWith fetch = .ok i)
    (present : ∀ p ∈ fieldsOf i, missing p = false → fetch' p.1 p.2 = fetch p.1 p.2)
    (absent : ∀ p, (fieldsOf i).find? missing = some p → fetch' p.1 p.2 = none) :
    decodeWith fetch' =
      match (fieldsOf i).find? missing with
      | none => .ok i
      | some p => .error (.truncated p.1 p.2) := by
  rw [decodeWith_eq_ok] at h
  obtain ⟨v, op, hv, hop, h⟩ := h
  cases op <;>
    simp only [decodeOperands, bind_eq_ok, Except.ok.injEq, fetchType_eq_ok, fetchLit_eq_ok,
      fetchAddr_eq_ok, fetchReg_eq_ok] at h
  case hlt | ret | tailcall =>
    subst h
    rcases fields_cons present absent with ⟨f, e⟩ | ⟨f, e, -, -⟩ <;> rw [fieldsOf, f] <;>
      simp [decodeWith, decodeOperands, e, fetchField_ok hv, hop, bind, Except.bind]
  case calLit | calReg =>
    obtain ⟨a, ⟨w, h1, rfl⟩, rfl⟩ := h
    rcases fields_cons present absent with ⟨f0, e0⟩ | ⟨f0, e0, present, absent⟩ <;>
      rw [fieldsOf, f0]
    · simp [decodeWith, e0, bind, Except.bind]
    rcases fields_cons present absent with ⟨f1, e1⟩ | ⟨f1, e1, -, -⟩ <;> rw [f1] <;>
      simp [decodeWith, decodeOperands, fetchAddr, fetchReg, e0, e1, fetchField_ok hv,
        fetchField_ok h1, hop, bind, Except.bind]
  case pshLit | pshReg | pop =>
    obtain ⟨t, ⟨w, h1, ht⟩, a, ⟨x, h2, rfl⟩, rfl⟩ := h
    rcases fields_cons present absent with ⟨f0, e0⟩ | ⟨f0, e0, present, absent⟩ <;>
      rw [fieldsOf, f0]
    · simp [decodeWith, e0, bind, Except.bind]
    rcases fields_cons present absent with ⟨f1, e1⟩ | ⟨f1, e1, present, absent⟩ <;> rw [f1]
    · simp [decodeWith, decodeOperands, fetchType, e0, e1, fetchField_ok hv, hop, bind,
        Except.bind]
    rcases fields_cons present absent with ⟨f2, e2⟩ | ⟨f2, e2, -, -⟩ <;> rw [f2] <;>
      simp [decodeWith, decodeOperands, fetchType, fetchLit, fetchReg, e0, e1, e2,
        fetchField_ok hv, fetchField_ok h1, fetchField_ok h2, hop, ht, bind, Except.bind]
  all_goals
    obtain ⟨t, ⟨w, h1, ht⟩, a, ⟨x, h2, rfl⟩, b, ⟨y, h3, rfl⟩, rfl⟩ := h
    rcases fields_cons present absent with ⟨f0, e0⟩ | ⟨f0, e0, present, absent⟩ <;>
      rw [fieldsOf, f0]
    · simp [decodeWith, e0, bind, Except.bind]
    rcases fields_cons present absent with ⟨f1, e1⟩ | ⟨f1, e1, present, absent⟩ <;> rw [f1]
    · simp [decodeWith, decodeOperands, fetchType, e0, e1, fetchField_ok hv, hop, bind,
        Except.bind]
    rcases fields_cons present absent with ⟨f2, e2⟩ | ⟨f2, e2, present, absent⟩ <;> rw [f2]
    · simp [decodeWith, decodeOperands, fetchType, fetchLit, fetchAddr, fetchReg, e0, e1, e2,
        fetchField_ok hv, fetchField_ok h1, hop, ht, bind, Except.bind]
    rcases fields_cons present absent with ⟨f3, e3⟩ | ⟨f3, e3, -, -⟩ <;> rw [f3] <;>
      simp [decodeWith, decodeOperands, fetchType, fetchLit, fetchAddr, fetchReg, e0, e1, e2, e3,
        fetchField_ok hv, fetchField_ok h1, fetchField_ok h2, fetchField_ok h3, hop, ht, bind,
        Except.bind]

end Sys2Proof.Machine
end

