-- ==== Sys2Proof/Laws/Float.lean ====
section
/-! SUPPORT. The laws of IEEE-754 patterns and of rounding (R8, R143): a packed pattern's parts, the
units of a magnitude pattern, and what rounding a shift leaves. -/

namespace Sys2Proof.Machine

variable (f : FloatFormat)

/-! ## Patterns and their parts -/

theorem FloatFormat.signWeight_pos : 0 < f.signWeight := by
  unfold FloatFormat.signWeight; positivity

theorem FloatFormat.mag_lt (p : Nat) : f.mag p < f.signWeight := Nat.mod_lt _ f.signWeight_pos

theorem FloatFormat.infMag_add : f.infMag + 2 ^ f.fracBits = f.signWeight := by
  unfold FloatFormat.infMag FloatFormat.signWeight
  rw [pow_add, Nat.sub_mul, Nat.one_mul]
  have : 2 ^ f.fracBits ≤ 2 ^ f.expBits * 2 ^ f.fracBits := Nat.le_mul_of_pos_left _ (by positivity)
  omega

theorem FloatFormat.infMag_lt : f.infMag < f.signWeight := by
  have := f.infMag_add
  have : 0 < 2 ^ f.fracBits := by positivity
  omega

theorem FloatFormat.mag_pack {m : Nat} (neg : Bool) (h : m < f.signWeight) :
    f.mag (f.pack neg m) = m := by
  cases neg <;> simp [FloatFormat.mag, FloatFormat.pack, Nat.mod_eq_of_lt h]

theorem FloatFormat.sign_pack {m : Nat} (neg : Bool) (h : m < f.signWeight) :
    f.sign (f.pack neg m) = neg := by
  cases neg
  · simp [FloatFormat.sign, FloatFormat.pack, Nat.div_eq_of_lt h]
  · simp [FloatFormat.sign, FloatFormat.pack, Nat.add_div_left _ f.signWeight_pos,
      Nat.div_eq_of_lt h]

theorem FloatFormat.pack_lt {m : Nat} (neg : Bool) (h : m < f.signWeight) :
    f.pack neg m < 2 * f.signWeight := by
  cases neg <;> simp only [FloatFormat.pack, Bool.false_eq_true, if_false, if_true] <;> omega

/-- The units of a pattern are those of its magnitude. -/
theorem FloatFormat.units_eq (p : Nat) : f.units p = f.units (f.mag p) := by
  have : f.mag (f.mag p) = f.mag p := Nat.mod_eq_of_lt (f.mag_lt p)
  simp only [FloatFormat.units, this]

theorem FloatFormat.natAbs_value (p : Nat) : (f.value p).natAbs = f.units p := by
  unfold FloatFormat.value
  split <;> simp

/-! ## Units of a magnitude pattern -/

/-- Subnormal data and the first binade are their own patterns. -/
theorem FloatFormat.units_small {m : Nat} (h : m < f.signWeight) (hm : m < 2 ^ (f.fracBits + 1)) :
    f.units m = m := by
  have hmag : f.mag m = m := Nat.mod_eq_of_lt h
  simp only [FloatFormat.units, hmag]
  have hpos : 0 < 2 ^ f.fracBits := by positivity
  rw [pow_succ] at hm
  by_cases hlt : m < 2 ^ f.fracBits
  · simp [Nat.div_eq_of_lt hlt, Nat.mod_eq_of_lt hlt]
  · have h1 : m / 2 ^ f.fracBits = 1 := by
      rw [Nat.div_eq_iff hpos]
      omega
    have h2 := Nat.div_add_mod m (2 ^ f.fracBits)
    rw [h1] at h2
    simp only [h1, Nat.one_ne_zero, if_false, Nat.sub_self, pow_zero, Nat.mul_one]
    omega

/-- A significand `q` of the binade with exponent `k`, the carry into the next binade included. -/
theorem FloatFormat.units_scaled {k q : Nat} (h : k * 2 ^ f.fracBits + q < f.signWeight)
    (hq : 2 ^ f.fracBits ≤ q) (hq2 : q ≤ 2 ^ (f.fracBits + 1)) :
    f.units (k * 2 ^ f.fracBits + q) = q * 2 ^ k := by
  have hmag : f.mag (k * 2 ^ f.fracBits + q) = k * 2 ^ f.fracBits + q := Nat.mod_eq_of_lt h
  have hpos : 0 < 2 ^ f.fracBits := by positivity
  simp only [FloatFormat.units, hmag]
  rw [Nat.mul_comm k, Nat.mul_add_div hpos, Nat.mul_add_mod]
  rw [pow_succ] at hq2
  rcases Nat.lt_or_ge q (2 ^ f.fracBits * 2) with h2 | h2
  · have h1 : q / 2 ^ f.fracBits = 1 := by
      rw [Nat.div_eq_iff hpos]
      omega
    have h3 := Nat.div_add_mod q (2 ^ f.fracBits)
    rw [h1] at h3 ⊢
    rw [if_neg (by omega), Nat.add_sub_cancel, ← h3]
    simp
  · have hq' : q = 2 ^ f.fracBits * 2 := by omega
    subst hq'
    rw [Nat.mul_div_cancel_left _ hpos, Nat.mul_mod_right, if_neg (by omega)]
    rw [show k + 2 - 1 = k + 1 by omega, pow_succ]
    ring

/-- Every datum's units are below the binade with exponent `k` or a multiple of its spacing. -/
theorem FloatFormat.units_lt_or_dvd (p k : Nat) :
    f.units p < 2 ^ (f.fracBits + k) ∨ 2 ^ k ∣ f.units p := by
  have hpos : 0 < 2 ^ f.fracBits := by positivity
  have hm : f.mag p % 2 ^ f.fracBits < 2 ^ f.fracBits := Nat.mod_lt _ hpos
  simp only [FloatFormat.units]
  split
  · left
    exact Nat.lt_of_lt_of_le hm (Nat.pow_le_pow_right (by omega) (by omega))
  · rename_i he
    rcases Nat.lt_or_ge (f.mag p / 2 ^ f.fracBits - 1) k with h | h
    · left
      have h1 : 2 ^ f.fracBits + f.mag p % 2 ^ f.fracBits < 2 ^ (f.fracBits + 1) := by
        rw [pow_succ]; omega
      calc _ < 2 ^ (f.fracBits + 1) * 2 ^ (f.mag p / 2 ^ f.fracBits - 1) :=
            Nat.mul_lt_mul_of_pos_right h1 (by positivity)
        _ ≤ _ := by
            rw [← pow_add]
            exact Nat.pow_le_pow_right (by omega) (by omega)
    · right
      exact Dvd.dvd.mul_left (pow_dvd_pow 2 h) _

/-! ## Rounding -/

/-- Rounding a shift: the result is one of the two neighbours, no farther than half a step, and even
when it is half a step away. -/
theorem roundShift_spec (n k : Nat) :
    (roundShift n k = n / 2 ^ k ∨ roundShift n k = n / 2 ^ k + 1) ∧
      2 * (roundShift n k * 2 ^ k) ≤ 2 * n + 2 ^ k ∧ 2 * n ≤ 2 * (roundShift n k * 2 ^ k) + 2 ^ k ∧
      (2 * (roundShift n k * 2 ^ k) = 2 * n + 2 ^ k ∨ 2 * n = 2 * (roundShift n k * 2 ^ k) + 2 ^ k →
        roundShift n k % 2 = 0) := by
  have h := Nat.div_add_mod n (2 ^ k)
  have hr : n % 2 ^ k < 2 ^ k := Nat.mod_lt _ (by positivity)
  simp only [roundShift]
  rw [Nat.mul_comm] at h
  split
  · rw [Nat.add_mul, Nat.one_mul]
    refine ⟨.inr rfl, ?_, ?_, ?_⟩ <;> omega
  · refine ⟨.inl rfl, ?_, ?_, ?_⟩ <;> omega

/-- A rounded shift lies no farther from `n` than any multiple of the step. -/
theorem roundShift_nearest (n k j : Nat) :
    ((roundShift n k * 2 ^ k : Nat) - (n : Int)).natAbs ≤ ((j * 2 ^ k : Nat) - (n : Int)).natAbs := by
  obtain ⟨-, h1, h2, -⟩ := roundShift_spec n k
  generalize roundShift n k = R at *
  rcases Nat.lt_trichotomy R j with h | h | h
  · have := Nat.mul_le_mul_right (2 ^ k) h
    rw [Nat.succ_mul] at this
    omega
  · subst h; omega
  · have := Nat.mul_le_mul_right (2 ^ k) h
    rw [Nat.succ_mul] at this
    omega

theorem FloatFormat.roundMag_le (he : 2 ≤ f.expBits) (n : Nat) : f.roundMag n ≤ f.infMag := by
  simp only [FloatFormat.roundMag]
  split
  · rename_i h
    have h2 : 2 ^ 2 ≤ 2 ^ f.expBits := Nat.pow_le_pow_right (by omega) he
    have : 2 ^ (f.fracBits + 1) ≤ f.infMag := by
      unfold FloatFormat.infMag
      rw [pow_succ, Nat.mul_comm]
      exact Nat.mul_le_mul_right _ (by omega)
    omega
  · exact Nat.min_le_left _ _

theorem FloatFormat.roundMag_lt (he : 2 ≤ f.expBits) (n : Nat) : f.roundMag n < f.signWeight :=
  Nat.lt_of_le_of_lt (f.roundMag_le he n) f.infMag_lt

end Sys2Proof.Machine
end

