-- ==== Sys2Proof/Laws/Frames.lean ====
section
/-! SUPPORT. The laws of the terms that the statements' frames and contents are written in: operands
read after the fetch, bytes stored and bytes loaded (R53, R54, R116). -/

namespace Sys2Proof.Machine

/-- What an instruction of `n` bytes reads from a source selector. -/
theorem get_afterFetch (s : State) (n : Nat) (t : ScalarType) (r : Reg) :
    (s.afterFetch n).get t r = lowBytes t.width (operandSlot s n r) := by
  simp only [State.get, operandSlot, State.getReg_afterFetch]

theorem getTarget_afterFetch (s : State) (n : Nat) (r : Reg) :
    (s.afterFetch n).getTarget r = (operandSlot s n r).setWidth 32 := by
  rw [getTarget_eq]
  simp only [State.addrOf, State.getReg_afterFetch, operandSlot]

@[simp] theorem sp_afterFetch (s : State) (n : Nat) : (s.afterFetch n).sp = s.sp := by
  simp [State.sp]

@[simp] theorem fp_afterFetch (s : State) (n : Nat) : (s.afterFetch n).fp = s.fp := by
  simp [State.fp]

/-- Memory after a store holds the value stored. -/
theorem holdsValue_of_writeBytes {s u : State} {a n : Nat} (v : Word) (h : Memory.wf s.mem = true)
    (hm : u.mem = Memory.writeBytes s.mem a (beBytes n v.toNat)) : HoldsValue u a n v := by
  intro k hk
  simp only [State.byte, hm]
  rw [Memory.read_writeBytes h a _ k (by simpa using hk), getElem_beBytes _ _ _ hk]

/-- Memory after a store is unchanged outside it. -/
theorem keepsMemoryOutside_of_writeBytes {s u : State} {a n v : Nat}
    (hm : u.mem = Memory.writeBytes s.mem a (beBytes n v)) : KeepsMemoryOutside a n s u := by
  intro b hb
  simp only [State.byte, hm]
  exact Memory.read_writeBytes_outside _ _ _ _ (by simpa using hb)

/-- Bytes are the big-endian bytes of their value. -/
theorem beBytes_beValue (bs : List Byte) : beBytes bs.length (beValue bs) = bs := by
  induction bs with
  | nil => rfl
  | cons b bs ih =>
    have hlt := beValue_lt bs
    simp only [List.length_cons, beBytes, beValue_cons]
    congr 1
    · rw [Nat.mul_comm, Nat.mul_add_div (by positivity), Nat.div_eq_of_lt hlt]
      simp
    · conv_rhs => rw [← ih]
      apply List.ext_getElem (by simp)
      intro j h1 _
      have hj : j < bs.length := by simpa using h1
      rw [getElem_beBytes _ _ _ hj, getElem_beBytes _ _ _ hj]
      apply BitVec.eq_of_toNat_eq
      simp only [BitVec.toNat_ofNat]
      have e : 256 ^ bs.length = 256 ^ (bs.length - 1 - j) * (256 * 256 ^ j) := by
        rw [← pow_succ', ← pow_add]; congr 1; omega
      rw [e, ← mul_assoc, mul_comm b.toNat, mul_assoc, Nat.mul_add_div (by positivity),
        show b.toNat * (256 * 256 ^ j) = 256 * (b.toNat * 256 ^ j) by ring]
      exact Nat.mul_add_mod ..

theorem beValue_readBytes_lt (m : Memory) (a n : Nat) :
    beValue (Memory.readBytes m a n) < 2 ^ (8 * n) := by
  have := beValue_lt (Memory.readBytes m a n)
  rwa [Memory.length_readBytes, ← pow_8_mul] at this

theorem toNat_beValue_readBytes (m : Memory) (a : Nat) {n : Nat} (hn : n ≤ 8) :
    (BitVec.ofNat 64 (beValue (Memory.readBytes m a n))).toNat =
      beValue (Memory.readBytes m a n) := by
  rw [BitVec.toNat_ofNat]
  exact Nat.mod_eq_of_lt (Nat.lt_of_lt_of_le (beValue_readBytes_lt m a n) (pow_8_mul_le hn))

/-- Memory holds the value whose low bytes a load gives. -/
theorem holdsValue_of_readBytes (s : State) (a n : Nat) (v : Word)
    (hv : v.toNat % 2 ^ (8 * n) = beValue (Memory.readBytes s.mem a n)) : HoldsValue s a n v := by
  intro k hk
  rw [← getElem_beBytes n v.toNat k hk]
  have h1 : beBytes n v.toNat = Memory.readBytes s.mem a n := by
    have := beBytes_beValue (Memory.readBytes s.mem a n)
    rw [Memory.length_readBytes, ← hv, ← toNat_lowBytes, beBytes_lowBytes] at this
    exact this
  simp only [h1]
  exact (Memory.getElem_readBytes _ _ _ _ hk).symm

/-- A load of what a store put gives the value's low bytes. -/
theorem beValue_read_after_write {m : Memory} (h : m.wf = true) (a n v : Nat) :
    beValue (Memory.readBytes (Memory.writeBytes m a (beBytes n v)) a n) = v % 2 ^ (8 * n) := by
  have := Memory.readBytes_writeBytes h a (beBytes n v)
  rw [length_beBytes] at this
  rw [this, beValue_beBytes, pow_8_mul]

/-! ## Primitives that finished -/

theorem push_eq_ok {pc0 : Addr} {t : ScalarType} {v : Word} {s u : State}
    (h : push pc0 t v s = .ok u) : u = pushed t v s ∧ s.sp.toNat + t.width ≤ s.memSize := by
  rcases push_cases pc0 t v s with ⟨h1, e⟩ | ⟨-, e⟩
  · rw [e] at h; cases h; exact ⟨rfl, h1⟩
  · rw [e] at h; cases h

theorem pop_eq_ok {pc0 : Addr} {t : ScalarType} {v : Word} {s u : State}
    (h : pop pc0 t s = .ok (v, u)) :
    v = popValue t s ∧ u = popped t s ∧ s.sp.toNat + t.width + t.width ≤ s.memSize := by
  rcases pop_cases pc0 t s with ⟨h1, e⟩ | ⟨-, e⟩
  · rw [e] at h; cases h; exact ⟨rfl, rfl, h1⟩
  · rw [e] at h; cases h

theorem pushState_eq_ok {pc0 : Addr} {s u : State} (h : pushState pc0 s = .ok u) :
    FramePushed s u ∧ ∀ k, k < 10 → frameAddr s.sp k + 8 ≤ s.memSize := by
  by_cases hall : ∀ k, k < 10 → frameAddr s.sp k + 8 ≤ s.memSize
  · obtain ⟨u', h', F⟩ := pushState_ok (pc0 := pc0) hall
    rw [h] at h'; cases h'; exact ⟨F, hall⟩
  · exfalso
    push Not at hall
    have hex : ∃ k, k < 10 ∧ s.memSize < frameAddr s.sp k + 8 := hall
    have hm := Nat.find_spec hex
    rw [pushState_error (pc0 := pc0) hm.1 (fun j hj => by
      have := Nat.find_min hex hj
      push Not at this
      exact this (by omega)) hm.2] at h
    cases h

theorem popState_eq_ok {pc0 : Addr} {s u : State} (hz : s.memSize ≤ 2 ^ 32)
    (h : popState pc0 s = .ok u) :
    FramePopped s u ∧ s.fp.toNat + 88 ≤ s.memSize ∧ 80 ≤ (frameField s 1).toNat ∧
      ((frameField s 1).toNat = 80 ∨ s.fp.toNat + (frameField s 1).toNat < s.memSize) := by
  by_cases h1 : s.fp.toNat + 88 ≤ s.memSize
  · by_cases h2 : 80 ≤ (frameField s 1).toNat
    · by_cases h3 : (frameField s 1).toNat = 80 ∨ s.fp.toNat + (frameField s 1).toNat < s.memSize
      · obtain ⟨u', h', F⟩ := popState_ok (pc0 := pc0) hz h1 h2 h3
        rw [h] at h'; cases h'; exact ⟨F, h1, h2, h3⟩
      · rw [popState_error_discard hz h1 (by omega) (by omega)] at h; cases h
    · rw [popState_error_size hz h1 (by omega)] at h; cases h
  · exfalso
    have hex : ∃ k, 1 ≤ k ∧ k ≤ 10 ∧ s.memSize < s.fp.toNat + 8 * k + 8 :=
      ⟨10, by omega, by omega, by omega⟩
    have hm := Nat.find_spec hex
    have hmin := Nat.find_min hex (m := Nat.find hex - 1)
    rw [popState_error_read hz hm.1 hm.2.1 (by
      by_cases hk : Nat.find hex = 1
      · exact .inl hk
      · right
        by_contra hc
        exact hmin (by omega) ⟨by omega, by omega, by omega⟩) hm.2.2] at h
    cases h

end Sys2Proof.Machine
end

