-- ==== Sys2Proof/Laws/Host.lean ====
section
/-! SUPPORT. The laws of the host's operations: the memory that construction builds and the placing of
an instruction keep the invariant; names and registers correspond (R27, R66, R220). -/

namespace Sys2Proof.Machine

/-! ## Construction -/

theorem within_memoryOf (f : Nat → Byte) (a n m : Nat) (h : a + n ≤ m) :
    Memory.within (memoryOf f a n) m = true := by
  induction n generalizing a with
  | zero => rfl
  | succ n ih =>
    simp only [memoryOf]
    split
    · exact ih _ (by omega)
    · simp only [Memory.within, List.all_cons, Bool.and_eq_true, decide_eq_true_eq]
      exact ⟨by omega, ih _ (by omega)⟩

theorem wfFrom_memoryOf (f : Nat → Byte) (a n : Nat) : Memory.wfFrom a (memoryOf f a n) = true := by
  induction n generalizing a with
  | zero => rfl
  | succ n ih =>
    simp only [memoryOf]
    split
    · exact Memory.wfFrom_mono (by omega) (ih _)
    · rename_i h
      simp only [Memory.wfFrom, Bool.and_eq_true, decide_eq_true_eq]
      exact ⟨⟨by omega, h⟩, ih _⟩

theorem read_memoryOf (f : Nat → Byte) (a n b : Nat) (h1 : a ≤ b) (h2 : b < a + n) :
    Memory.read (memoryOf f a n) b = f b := by
  induction n generalizing a with
  | zero => omega
  | succ n ih =>
    simp only [memoryOf]
    by_cases hab : a = b
    · subst hab
      split
      · rename_i h
        rw [h]
        exact Memory.read_below (wfFrom_memoryOf f (a + 1) n) (by omega)
      · simp [Memory.read]
    · split
      · exact ih _ (by omega) (by omega)
      · simp only [Memory.read]
        rw [if_neg (by omega)]
        exact ih _ (by omega) (by omega)

theorem memoryOf_unlisted (a n : Nat) : memoryOf (fun _ => Config.unlistedByte) a n = [] := by
  induction n generalizing a with
  | zero => rfl
  | succ n ih => simpa [memoryOf] using ih (a + 1)

/-- Memory is in its canonical form at reset. -/
theorem reset_mem_wf : Memory.wf State.reset.mem = true := by decide

/-! ## Stores and placed bytes -/

/-- A host store keeps the invariant and everything but memory. -/
theorem hostStore_carries {t : ScalarType} {addr : Nat} {v : HostValue} {s u : State}
    (h : hostStore t addr v s = .ok u) : Carries s u ∧ u = s.setMem u.mem := by
  rcases Nat.lt_or_ge s.memSize (addr + t.width) with hr | hr
  · simp [hostStore, State.store_eq_none _ hr] at h
  · simp only [hostStore, State.store_eq_some _ hr] at h
    cases h
    refine ⟨⟨rfl, rfl, rfl, fun hi => ?_⟩, rfl⟩
    rw [State.inv_iff] at hi ⊢
    exact ⟨Memory.wf_writeBytes _ _ hi.1, Memory.within_writeBytes _ (by simpa using hr) hi.2.1,
      hi.2.2⟩

/-- Placing bytes keeps the invariant. -/
theorem placeBytes_carries (s : State) (a : Addr) (bs : List Byte) :
    Carries s (placeBytes s a bs) := by
  induction bs generalizing s a with
  | nil => exact Carries.refl s
  | cons b bs ih =>
    refine Carries.trans ?_ (ih _ _)
    split
    · rename_i h
      refine ⟨rfl, rfl, rfl, fun hi => ?_⟩
      rw [State.inv_iff] at hi ⊢
      exact ⟨Memory.wf_write _ _ hi.1, Memory.within_write _ h hi.2.1, hi.2.2⟩
    · exact Carries.refl s

/-! ## Names -/

@[simp] theorem regOfName_name (r : Reg) : regOfName (Reg.name r) = some r := by
  cases r <;> decide

theorem regOfName_eq_none {name : String} (h : ∀ r : Reg, Reg.name r ≠ name) :
    regOfName name = none := by
  simp only [regOfName, List.find?_eq_none, beq_iff_eq]
  exact fun r _ => h r

end Sys2Proof.Machine
end

