-- ==== Sys2Proof/Laws/Report.lean ====
section
/-! SUPPORT. The laws of the reported outcome and of a run (R110, R119). -/

namespace Sys2Proof.Machine

@[simp] theorem afterSteps_zero (s : State) : afterSteps 0 s = s := rfl

@[simp] theorem afterSteps_succ (n : Nat) (s : State) :
    afterSteps (n + 1) s = afterSteps n (transition s).1 := rfl

/-- Everything a step can report: it commits and continues, commits and halts, or faults and commits
the status alone. -/
theorem transition_cases (s : State) :
    (∃ u, step s = .next u ∧ u.haltFlag = false ∧ transition s = (u, .cont)) ∨
    (∃ u, step s = .next u ∧ u.haltFlag = true ∧ transition s = (u, .halt)) ∨
    (∃ f, step s = .fault f ∧ transition s = (s.takeFault f, .fault f)) := by
  rcases step_cases s with ⟨f, -, h⟩ | ⟨-, i, -, h⟩ | ⟨-, e, -, h⟩
  · exact .inr (.inr ⟨f, h, by simp [transition, h]⟩)
  · cases hx : exec i s with
    | refused r => exact absurd hx (exec_ne_refused i s r)
    | fault f => exact .inr (.inr ⟨f, h.trans hx, by simp [transition, h, hx]⟩)
    | next u =>
      cases hh : u.haltFlag with
      | false => exact .inl ⟨u, h.trans hx, hh, by simp [transition, h, hx, hh]⟩
      | true => exact .inr (.inl ⟨u, h.trans hx, hh, by simp [transition, h, hx, hh]⟩)
  · exact .inr (.inr ⟨_, h, by simp [transition, h]⟩)

/-- A run of at most one step more ends at this step, or goes on. -/
theorem runToEnd_succ {n : Nat} {s t : State} {r : StepResult} :
    runToEnd (n + 1) s = some (t, r) ↔
      ((transition s).2 = .cont ∧ runToEnd n (transition s).1 = some (t, r)) ∨
        (transition s = (t, r) ∧ r ≠ .cont) := by
  rw [runToEnd]
  rcases transition s with ⟨u, o⟩
  cases o <;> simp <;> aesop

end Sys2Proof.Machine
end

