-- ==== Sys2Proof/Tests/Slice0.lean ====
section
/-! SUPPORT. Tests, their expected results from the spec's vectors (95_test_vectors.md, named in each
comment) and encoding tables, and the witnesses that the statements' hypotheses can be met. -/

namespace Sys2Proof.Tests

open Sys2Proof Sys2Proof.Machine

/-! ## Small states and outcomes -/

/-- The reset state of a 256-byte machine with bytes put at `a`. -/
def put (a : Nat) (bs : List Byte) (s : State) : State := s.setMem (Memory.writeBytes s.mem a bs)

/-- Bytes at 0, where `ip` is after reset. -/
def code (bs : List Byte) : State := put 0 bs State.reset

/-- Bytes at `a`, with `ip` there. -/
def codeAt (a : Nat) (bs : List Byte) : State :=
  (put a bs State.reset).setAddr .ip (BitVec.ofNat 32 a)

/-- The step gives a next state of which `p` holds. -/
def steps (s : State) (p : State → Bool) : Bool :=
  match step s with
  | .next t => p t
  | .fault _ => false
  | .refused _ => false

/-- The step faults so. -/
def faults (s : State) (f : Fault) : Bool :=
  match step s with
  | .next _ => false
  | .fault g => decide (g = f)
  | .refused _ => false

/-- The bytes at `a`, lowest first. -/
def bytesAt (s : State) (a n : Nat) : List Byte := Memory.readBytes s.mem a n

/-! ## Well-formedness: a literal that does not fit its type is refused -/

theorem test_wellFormed_accepts :
    (Instr.movLitReg .ubyte 0xFF .r1).wellFormed = true ∧
    (Instr.jmpNotEq .uword 0xFFFF 0).wellFormed = true ∧
    (Instr.pshLit .float 0xFFFFFFFF).wellFormed = true := by decide

theorem test_wellFormed_refuses_movLitReg :
    (Instr.movLitReg .ubyte 0x100 .r1).wellFormed = false := by decide

theorem test_wellFormed_refuses_jmpNotEq :
    (Instr.jmpNotEq .uword 0x10000 0).wellFormed = false := by decide

theorem test_wellFormed_refuses_pshLit :
    (Instr.pshLit .float 0x100000000).wellFormed = false := by decide

/-! ## Decoding: words written out from R82, R86, R87, R88, bit by bit -/

/-- 0x00. -/
theorem test_decode_hlt : decodeBytes [0b00000000] = .ok .hlt := by decide

/-- 0x10, tag `uword` 0x02, literal 0x1234, selector `r3` 4. -/
theorem test_decode_movLitReg :
    decodeBytes [0b00010000, 0b00000010, 0b00010010, 0b00110100, 0b00000100]
      = .ok (.movLitReg .uword 0x1234 .r3) := by decide

/-- 0x11, tag `byte` 0x05, `ip` 0 to `bp` 12. -/
theorem test_decode_movRegReg :
    decodeBytes [0b00010001, 0b00000101, 0b00000000, 0b00001100]
      = .ok (.movRegReg .byte .ip .bp) := by decide

/-- 0x12, tag `double` 0x10, `r8` 9, address 0x01020304. -/
theorem test_decode_movRegMem :
    decodeBytes [0b00010010, 0b00010000, 0b00001001, 0b00000001, 0b00000010, 0b00000011, 0b00000100]
      = .ok (.movRegMem .double .r8 0x01020304) := by decide

/-- 0x13, tag `long` 0x08, address 0x80000001, `acc` 1. -/
theorem test_decode_movMemReg :
    decodeBytes [0b00010011, 0b00001000, 0b10000000, 0b00000000, 0b00000000, 0b00000001, 0b00000001]
      = .ok (.movMemReg .long 0x80000001 .acc) := by decide

/-- 0x14, tag `float` 0x09, `sp` 10 and `fp` 11. -/
theorem test_decode_addRegReg :
    decodeBytes [0b00010100, 0b00001001, 0b00001010, 0b00001011]
      = .ok (.addRegReg .float .sp .fp) := by decide

/-- 0x15, tag `word` 0x06, literal 0x8001, address 0x000000FE. -/
theorem test_decode_jmpNotEq :
    decodeBytes [0b00010101, 0b00000110, 0b10000000, 0b00000001,
      0b00000000, 0b00000000, 0b00000000, 0b11111110]
      = .ok (.jmpNotEq .word 0x8001 0xFE) := by decide

/-- 0x17, tag `int` 0x07, literal 0x80000001. -/
theorem test_decode_pshLit :
    decodeBytes [0b00010111, 0b00000111, 0b10000000, 0b00000000, 0b00000000, 0b00000001]
      = .ok (.pshLit .int 0x80000001) := by decide

/-- 0x18, tag `uint` 0x03, selector 0xFF = 255, 255 mod 13 = 8: `r7`. -/
theorem test_decode_pshReg :
    decodeBytes [0b00011000, 0b00000011, 0b11111111] = .ok (.pshReg .uint .r7) := by decide

/-- 0x1A, tag `ubyte` 0x01, selector 0x0D = 13: `ip`. -/
theorem test_decode_pop :
    decodeBytes [0b00011010, 0b00000001, 0b00001101] = .ok (.pop .ubyte .ip) := by decide

/-- 0x5E, address 0xFFFFFFF0. -/
theorem test_decode_calLit :
    decodeBytes [0b01011110, 0b11111111, 0b11111111, 0b11111111, 0b11110000]
      = .ok (.calLit 0xFFFFFFF0) := by decide

/-- 0x5F, `r4` 5. -/
theorem test_decode_calReg : decodeBytes [0b01011111, 0b00000101] = .ok (.calReg .r4) := by decide

/-- 0x60. -/
theorem test_decode_ret : decodeBytes [0b01100000] = .ok .ret := by decide

/-- 0x61 (D4). -/
theorem test_decode_tailcall : decodeBytes [0b01100001] = .ok .tailcall := by decide

/-- R90, X2: bytes between the assigned ones. -/
theorem test_decode_unassigned :
    decodeBytes [0x16] = .error (.unknownOpcode 0x16) ∧
    decodeBytes [0x19] = .error (.unknownOpcode 0x19) ∧
    decodeBytes [0x1B] = .error (.unknownOpcode 0x1B) := by decide

/-- R91, E9, X3: 0x0A and 0x00 are no tags. -/
theorem test_decode_bad_tag :
    decodeBytes [0x10, 0x0A, 0x02] = .error (.unknownTypeTag 0x0A) ∧
    decodeBytes [0x10, 0x00, 0x02] = .error (.unknownTypeTag 0x00) := by decide

/-- The host's numbering: byte 0 is the opcode, the bits above `nbits` are 0. -/
theorem test_decodeTableWord :
    decodeTableWord 8 0x00 = some .hlt ∧ decodeTableWord 8 0x5E = some (.calLit 0) ∧
    decodeTableWord 24 0x02031A = some (.pop .uint .r1) := by decide

/-! ## One step of each instruction -/

/-- E1. -/
theorem test_hlt :
    steps (code [0x00]) (fun t => decide (t.getReg .ip = 1 ∧ t.haltFlag = true ∧ t.sp = 248)) = true := by
  decide

/-- E5: a selector that wraps to `ip` is a jump. -/
theorem test_movLitReg_ip :
    steps (code [0x10, 0x03, 0, 0, 0, 0x40, 0x0D])
      (fun t => decide (t.getReg .ip = 0x40 ∧ t.haltFlag = false)) = true := by decide

/-- M2: no sign extension; M1: the slot is zeroed. -/
theorem test_movLitReg_zeroes :
    steps ((code [0x10, 0x05, 0xFF, 0x02]).setReg .r1 0xFFFFFFFFFFFFFFFF)
      (fun t => decide (t.getReg .r1 = 0xFF ∧ t.getReg .ip = 4)) = true := by decide

/-- M4: the source is read before the destination is zeroed. -/
theorem test_movRegReg_same :
    steps ((code [0x11, 0x03, 0x02, 0x02]).setReg .r1 0x1122334455667788)
      (fun t => decide (t.getReg .r1 = 0x55667788)) = true := by decide

/-- M3. -/
theorem test_movRegReg_narrow :
    steps (((code [0x11, 0x02, 0x02, 0x03]).setReg .r1 0x1122334455667788).setReg .r2
        0xFFFFFFFFFFFFFFFF)
      (fun t => decide (t.getReg .r2 = 0x7788 ∧ t.getReg .r1 = 0x1122334455667788)) = true := by
  decide

/-- M5: the last eight bytes of memory. -/
theorem test_movRegMem :
    steps ((code [0x12, 0x04, 0x02, 0, 0, 0, 0xF8]).setReg .r1 0x0102030405060708)
      (fun t => decide (bytesAt t 248 8 = [1, 2, 3, 4, 5, 6, 7, 8] ∧ t.getReg .ip = 7)) = true := by
  decide

/-- M6. -/
theorem test_movRegMem_fault :
    faults (code [0x12, 0x04, 0x02, 0, 0, 0, 0xF9]) (.outOfRange 249 8 .write 0) = true := by decide

/-- M10: a negative `word` is not sign-extended. -/
theorem test_movMemReg :
    steps ((put 0x64 [0xDE, 0xAD, 0xBE, 0xEF] (code [0x13, 0x06, 0, 0, 0, 0x64, 0x05])).setReg .r4
        0xFFFFFFFFFFFFFFFF)
      (fun t => decide (t.getReg .r4 = 0xDEAD)) = true := by decide

/-- M11: the address plus the width is not reduced mod 2^32. -/
theorem test_movMemReg_fault :
    faults (code [0x13, 0x03, 0xFF, 0xFF, 0xFF, 0xFE, 0x02]) (.outOfRange 0xFFFFFFFE 4 .read 0)
      = true := by decide

/-- ADD_REG_REG `t` r1 r2, from these registers, leaves this in `acc` (the vectors of 2.3). -/
def adds (tag : Byte) (a b c : Word) : Bool :=
  steps ((((code [0x14, tag, 0x02, 0x03]).setReg .acc 0xFFFFFFFFFFFFFFFF).setReg .r1 a).setReg .r2 b)
    (fun t => decide (t.getReg .acc = c ∧ t.getReg .ip = 4))

/-- A1 to A6. -/
theorem test_add_integers :
    adds 0x03 0xFFFFFFFF 1 0 = true ∧ adds 0x04 0xFFFFFFFF 1 0x100000000 = true ∧
    adds 0x01 0xFF 1 0 = true ∧ adds 0x05 0x7F 1 0x80 = true ∧
    adds 0x07 0x80000000 0x80000000 0 = true ∧
    adds 0x03 0xFFFFFFFF3F800000 0x40000000 0x7F800000 = true := by decide

/-- A7 to A16, A18, A19. -/
theorem test_add_floats :
    adds 0x09 0x3F800000 0x40000000 0x40400000 = true ∧
    adds 0x09 0xFFFFFFFF3F800000 0x40000000 0x40400000 = true ∧
    adds 0x09 0x7F7FFFFF 0x7F7FFFFF 0x7F800000 = true ∧
    adds 0x09 0x3F800000 0x33800000 0x3F800000 = true ∧
    adds 0x09 0x3F800001 0x33800000 0x3F800002 = true ∧
    adds 0x09 0x80000000 0 0 = true ∧ adds 0x09 0x80000000 0x80000000 0x80000000 = true ∧
    adds 0x09 0x3F800000 0xBF800000 0 = true ∧ adds 0x09 1 1 2 = true ∧
    adds 0x09 0x7F800000 0x3F800000 0x7F800000 = true ∧
    adds 0x10 0x3FF0000000000000 0x3CA0000000000000 0x3FF0000000000000 = true ∧
    adds 0x10 0x3FF0000000000001 0x3CA0000000000000 0x3FF0000000000002 = true := by decide +kernel

/-- With this `acc`, the instruction leaves `ip` at `pc`. -/
def jumps (acc : Word) (bs : List Byte) (pc : Word) : Bool :=
  steps ((code bs).setReg .acc acc) (fun t => decide (t.getReg .ip = pc))

/-- B1, B2, B3, B7. -/
theorem test_jmpNotEq_integers :
    jumps 0x1FF [0x15, 0x01, 0xFF, 0, 0, 0, 0x40] 7 = true ∧
    jumps 0x1FF [0x15, 0x02, 0x00, 0xFF, 0, 0, 0, 0x40] 0x40 = true ∧
    jumps 0 [0x15, 0x04, 0, 0, 0, 0, 0, 0, 0, 0, 0, 0, 0, 0x40] 14 = true ∧
    jumps 0xFF [0x15, 0x05, 0xFF, 0, 0, 0, 0x40] 7 = true := by decide

/-- B4, B5, B6: a NaN differs from itself, the zeros are equal. -/
theorem test_jmpNotEq_floats :
    jumps 0x7FC00000 [0x15, 0x09, 0x7F, 0xC0, 0, 0, 0, 0, 0, 0x40] 0x40 = true ∧
    jumps 0x80000000 [0x15, 0x09, 0, 0, 0, 0, 0, 0, 0, 0x40] 10 = true ∧
    jumps 0x3F800000 [0x15, 0x09, 0x3F, 0x80, 0, 0, 0, 0, 0, 0x40] 10 = true := by decide +kernel

/-- K1. -/
theorem test_pshLit :
    steps (code [0x17, 0x03, 0xAA, 0xBB, 0xCC, 0xDD])
      (fun t => decide (bytesAt t 248 4 = [0xAA, 0xBB, 0xCC, 0xDD] ∧ t.getReg .sp = 244 ∧
        t.fsz = 4 ∧ t.getReg .ip = 6)) = true := by decide

/-- K11: `sp` wraps. -/
theorem test_pshLit_wraps :
    steps ((codeAt 0x20 [0x17, 0x03, 1, 2, 3, 4]).setAddr .sp 2)
      (fun t => decide (bytesAt t 2 4 = [1, 2, 3, 4] ∧ t.getReg .sp = 0xFFFFFFFE)) = true := by decide

/-- K8: the old `sp` is pushed. -/
theorem test_pshReg_sp :
    steps (code [0x18, 0x03, 0x0A])
      (fun t => decide (bytesAt t 248 4 = [0, 0, 0, 0xF8] ∧ t.getReg .sp = 244)) = true := by decide

/-- K9: `ip` as a source is the address of the next instruction. -/
theorem test_pshReg_ip :
    steps (codeAt 0x20 [0x18, 0x03, 0x00])
      (fun t => decide (bytesAt t 248 4 = [0, 0, 0, 0x23])) = true := by decide

/-- K5: POP does not zero the slot. -/
theorem test_pop_keeps_upper :
    steps ((((put 248 [1] (code [0x1A, 0x01, 0x02])).setReg .r1 0xFFFFFFFFFFFFFFFF).setAddr .sp
        247).setFsz 1)
      (fun t => decide (t.getReg .r1 = 0xFFFFFFFFFFFFFF01 ∧ t.getReg .sp = 248 ∧ t.fsz = 0)) = true := by
  decide

/-- K10: the register write comes after the pop. -/
theorem test_pop_sp :
    steps (((put 244 [0, 0, 0, 0x80] (code [0x1A, 0x03, 0x0A])).setAddr .sp 240).setFsz 4)
      (fun t => decide (t.getReg .sp = 0x80 ∧ t.fsz = 0)) = true := by decide

/-- C2: the frame's last word at 0, `sp` wraps. -/
theorem test_calLit :
    steps ((codeAt 0x80 [0x5E, 0, 0, 0, 0x20]).setAddr .sp 72)
      (fun t => decide (bytesAt t 0 16 = [0, 0, 0, 0, 0, 0, 0, 0x50, 0, 0, 0, 0, 0, 0, 0, 0x85] ∧
        t.getReg .sp = 0xFFFFFFF8 ∧ t.getReg .fp = 0xFFFFFFF8 ∧ t.getReg .bp = 72 ∧
        t.ctgt = some 0x20 ∧ t.getReg .ip = 0x20)) = true := by decide

/-- C3: the tenth write leaves memory. -/
theorem test_calLit_fault :
    faults ((codeAt 0x80 [0x5E, 0, 0, 0, 0x20]).setAddr .sp 64) (.outOfRange 0xFFFFFFF8 8 .write 0x80)
      = true := by decide

/-- C1. -/
theorem test_calReg :
    steps ((codeAt 0x10 [0x5F, 0x05]).setReg .r4 0xFFFFFFFF00000040)
      (fun t => decide (bytesAt t 224 8 = [0xFF, 0xFF, 0xFF, 0xFF, 0, 0, 0, 0x40] ∧
        bytesAt t 176 16 = [0, 0, 0, 0, 0, 0, 0, 0x50, 0, 0, 0, 0, 0, 0, 0, 0x12] ∧
        t.getReg .sp = 168 ∧ t.getReg .fp = 168 ∧ t.getReg .bp = 248 ∧ t.fsz = 0 ∧
        t.ctgt = some 0x40 ∧ t.getReg .ip = 0x40)) = true := by decide

/-- A frame at 168 with this size and this return address, `fp` = 160, and RET at 0. -/
def retState (size ret : Byte) : State :=
  (put 168 [0, 0, 0, 0, 0, 0, 0, size, 0, 0, 0, 0, 0, 0, 0, ret] (code [0x60])).setAddr .fp 160

/-- C8: fifteen discards, the last at 255. -/
theorem test_ret :
    steps ((retState 95 0x44).setCtgt (some 0x20))
      (fun t => decide (t.getReg .ip = 0x44 ∧ t.getReg .sp = 255 ∧ t.getReg .fp = 255 ∧ t.fsz = 0 ∧
        t.ctgt = none ∧ t.getReg .r1 = 0)) = true := by decide

/-- C4, C7, C9. -/
theorem test_ret_faults :
    faults (code [0x60]) (.outOfRange 256 8 .read 0) = true ∧
    faults (retState 79 0) (.badFrameSize 79 168 0) = true ∧
    faults (retState 96 0) (.outOfRange 256 1 .read 0) = true := by decide

/-- C6. -/
theorem test_tailcall :
    steps ((codeAt 0x27 [0x61]).setCtgt (some 0x10))
      (fun t => decide (t.getReg .ip = 0x10 ∧ t.ctgt = some 0x10 ∧ t.getReg .sp = 248)) = true := by
  decide

/-- C5. -/
theorem test_tailcall_fault : faults (code [0x61]) (.noCallTarget 0) = true := by decide

/-! ## Faults of the fetch -/

/-- X1, X3, M12, X5 (second step). -/
theorem test_fetch_faults :
    faults (code [0xFF]) (.unknownOpcode 0xFF 0) = true ∧
    faults (code [0x10, 0x00, 0x00, 0x02]) (.unknownTypeTag 0x00 1 0) = true ∧
    faults (codeAt 252 [0x10, 0x03, 0, 0]) (.outOfRange 254 4 .read 252) = true ∧
    faults (State.reset.setAddr .ip 256) (.outOfRange 256 1 .read 256) = true := by decide

/-- X6: the order of the checks. -/
theorem test_fault_priority :
    faults (codeAt 254 [0x10, 0x0A]) (.unknownTypeTag 0x0A 255 254) = true ∧
    faults (codeAt 255 [0xFF]) (.unknownOpcode 0xFF 255) = true ∧
    faults (codeAt 253 [0x10, 0x03, 0x00]) (.outOfRange 255 4 .read 253) = true := by decide

/-- X4: a fault is returned again, and nothing but the status changed. -/
theorem test_fault_latches :
    (transition (code [0xFF])).1 = (code [0xFF]).takeFault (.unknownOpcode 0xFF 0) ∧
    faults (transition (code [0xFF])).1 (.unknownOpcode 0xFF 0) = true := by decide

/-! ## The host's accessors -/

/-- X7, X8. -/
theorem test_host_registers :
    hostGet .uint "r9" 0 State.reset = .error (.unknownRegister "r9") ∧
    hostGet .uint "r1" 4 (State.reset.setReg .r1 0x1122334455667788) = .ok (.integer 0x11223344) ∧
    hostGet .uword "r1" 1 (State.reset.setReg .r1 0x1122334455667788) = .ok (.integer 0x6677) ∧
    hostGet .uint "r1" 5 State.reset = .error (.regOffsetRange "r1" 5 .uint) := by decide

/-- S2: the bare accessor leaves the upper bytes; with `zero` before it they are 0. -/
theorem test_host_set :
    (hostSet .ubyte "r1" (.integer 1) 0 (State.reset.setReg .r1 0xFFFFFFFFFFFFFFFF)).map
      (fun t => t.getReg .r1) = .ok 0xFFFFFFFFFFFFFF01 ∧
    (hostZero "r1" (State.reset.setReg .r1 0xFFFFFFFFFFFFFFFF)).map (fun t => t.getReg .r1)
      = .ok 0 := by decide

/-- X9, and S1's `get<byte>` of 0xFF. -/
theorem test_host_memory :
    hostLoad .uint 253 State.reset = .error (.outOfRange 253 4 .read) ∧
    hostLoad .ubyte 255 State.reset = .ok (.integer 0) ∧
    hostLoad .byte 255 (put 255 [0xFF] State.reset) = .ok (.integer (-1)) := by decide

/-- R222: a program and its entry point. -/
theorem test_host_load_program :
    (hostLoadProgram [0x10, 0x01] 1 State.reset).map (fun t => (bytesAt t 0 2, t.getReg .ip))
      = .ok ([0x10, 0x01], 1) := by decide

/-- `withFetchWord` puts the instruction where the next step runs it. -/
theorem test_withFetchWord :
    steps (State.reset.withFetchWord 24 0x02031A) (fun t => decide (t.getReg .sp = 252)) = true := by
  decide

/-! ## The statements' hypotheses can be met -/

/-- A longest literal, and the instruction with no operands. -/
theorem witness_DecodeInvertsEncode :
    (Instr.jmpNotEq .ulong 0xFFFFFFFFFFFFFFFF 0xFFFFFFFF).wellFormed = true ∧
    (Instr.hlt).wellFormed = true := by decide

theorem witness_DecodingReadsOnlyTheInstruction :
    decodeBytes [0x17, 0x01, 0xAA, 0xFF] = .ok (.pshLit .ubyte 0xAA) ∧
    decodeBytes [0x61] = .ok .tailcall := by decide

theorem witness_SelectorByteWrapsModulo13 :
    ScalarType.ubyte.fits 0xFF = true ∧ ScalarType.double.fits 0xFFFFFFFFFFFFFFFF = true := by decide

theorem witness_StepRunsDecodedInstruction :
    State.reset.status = .run ∧ decodeAt State.reset = .ok .hlt := by decide

/-- The four bytes that end at the end of memory; the selector 0x0F is another byte for `r1`. -/
theorem witness_StepRunsTheBytesAtPc :
    let s := codeAt 252 [0x10, 0x01, 0xFF, 0x0F]
    s.status = .run ∧
      decodeBytes [0x10, 0x01, 0xFF, 0x0F] = .ok (.movLitReg .ubyte 0xFF .r1) ∧
      HoldsBytes s s.pc.toNat [0x10, 0x01, 0xFF, 0x0F] ∧ s.memSize ≤ 2 ^ 32 := by
  unfold HoldsBytes
  decide

/-- The last byte of memory. -/
theorem witness_UnassignedOpcodeFaults :
    let s := codeAt 255 [0xFF]
    s.status = .run ∧ s.pc.toNat < s.memSize ∧
      s.byte s.pc.toNat ∉ ([0x00, 0x10, 0x11, 0x12, 0x13, 0x14, 0x15, 0x17, 0x18, 0x1A, 0x5E, 0x5F,
        0x60, 0x61] : List Byte) := by decide

/-- A tag that is the last byte of memory (X6). -/
theorem witness_UnassignedTypeTagFaults_typed :
    let s := codeAt 254 [0x10, 0x0A]
    s.status = .run ∧ s.pc.toNat < s.memSize ∧ s.byte s.pc.toNat = 0x10 ∧
      (s.pc + 1).toNat < s.memSize ∧
      s.byte (s.pc + 1).toNat ∉ ([0x01, 0x02, 0x03, 0x04, 0x05, 0x06, 0x07, 0x08, 0x09, 0x10] :
        List Byte) := by decide

theorem witness_UnassignedTypeTagFaults_untyped :
    let s := codeAt 255 [0x5E]
    s.status = .run ∧ s.pc.toNat < s.memSize ∧ s.byte s.pc.toNat = 0x5E := by decide

/-- The first address outside memory (X5). -/
theorem witness_OpcodeFetchOutsideMemoryFaults :
    let s := State.reset.setAddr .ip 256
    s.status = .run ∧ s.memSize ≤ s.pc.toNat := by decide

/-- M12: the literal, four bytes at offset 2, is the first field outside. -/
theorem witness_StraddlingInstructionFaults :
    let s := codeAt 252 [0x10, 0x03, 0x00, 0x00]
    let bs : List Byte := [0x10, 0x03, 0x00, 0x00, 0x12, 0x34, 0x0F]
    let i := Instr.movLitReg .uint 0x1234 .r1
    s.status = .run ∧ decodeBytes bs = .ok i ∧ s.memSize ≤ 2 ^ 32 ∧ s.pc.toNat < s.memSize ∧
      s.memSize < s.pc.toNat + i.length ∧
      (∀ k, (h : k < bs.length) → s.pc.toNat + k < s.memSize → s.byte (s.pc.toNat + k) = bs[k]) ∧
      firstFieldOutside s i = some (2, 4) ∧ s.pc.toNat + 2 < 2 ^ 32 := by decide

/-- A fault of a running machine, one of a faulted machine, one out of range. -/
theorem witness_FaultCommitsNothingAndLatches :
    faults (code [0xFF]) (.unknownOpcode 0xFF 0) = true ∧
    faults ((code [0x00]).takeFault (.noCallTarget 7)) (.noCallTarget 7) = true := by decide

theorem witness_FaultNamesItsInstruction :
    (codeAt 5 [0x61]).status = .run ∧ faults (codeAt 5 [0x61]) (.noCallTarget 5) = true := by decide

theorem witness_OutOfRangeOnlyOutsideMemory :
    (code [0x1A, 0x04, 0x02]).status = .run ∧
    faults (code [0x1A, 0x04, 0x02]) (.outOfRange 256 8 .read 0) = true := by decide

theorem witness_StepOutputIsHaltExactlyForHlt_hlt :
    (code [0x00]).status = .run ∧ decodeAt (code [0x00]) = .ok .hlt ∧
    steps (code [0x00]) (fun _ => true) = true := by decide

theorem witness_StepOutputIsHaltExactlyForHlt_other :
    (code [0x17, 0x01, 0xAA]).status = .run ∧
    decodeAt (code [0x17, 0x01, 0xAA]) = .ok (.pshLit .ubyte 0xAA) ∧
    steps (code [0x17, 0x01, 0xAA]) (fun _ => true) = true := by decide

/-- A run that ends at the HLT, its second step, and one that ends at an unassigned opcode. -/
theorem witness_RunEndsAtFirstHaltOrFault :
    ((runToEnd 2 (code [0x17, 0x01, 0xAA, 0x00])).map (fun p => p.2)) = some .halt ∧
    runToEnd 1 (code [0x17, 0x01, 0xAA, 0x00]) = none ∧
    ((runToEnd 1 (code [0xFF])).map (fun p => p.2)) = some (.fault (.unknownOpcode 0xFF 0)) := by
  decide

theorem witness_MovLitRegWritesZeroExtendedLiteral :
    ScalarType.byte.fits 0xFF = true ∧ ScalarType.long.fits 0x8000000000000000 = true := by decide

/-- The last eight bytes, and the last byte, of memory (M5, M7). -/
theorem witness_MovRegMemStoresBigEndian :
    Memory.wf State.reset.mem = true ∧
    (248 : Addr).toNat + ScalarType.ulong.width ≤ State.reset.memSize ∧
    (255 : Addr).toNat + ScalarType.ubyte.width ≤ State.reset.memSize := by decide

theorem witness_MovMemRegLoadsZeroExtended :
    (248 : Addr).toNat + ScalarType.double.width ≤ State.reset.memSize ∧
    (0 : Addr).toNat + ScalarType.byte.width ≤ State.reset.memSize := by decide

/-- M6, M8. -/
theorem witness_MemoryMovesFaultOutsideMemory :
    State.reset.memSize < (249 : Addr).toNat + ScalarType.ulong.width ∧
    State.reset.memSize < (256 : Addr).toNat + ScalarType.ubyte.width := by decide

theorem witness_IntegerAdditionWraps :
    ScalarType.byte.kind ≠ .floating ∧ ScalarType.ulong.kind ≠ .floating := by decide

theorem witness_FloatAdditionCompletesAndNaNCases :
    formatOf .float = some binary32 ∧ formatOf .double = some binary64 := by decide

/-- 1.0 in `r1`, +infinity in `r2`, the operands of ADD_REG_REG float. -/
def floatOperands (a b : Word) : State := (State.reset.setReg .r1 a).setReg .r2 b

/-- The low four bytes that ADD_REG_REG float reads from a selector. -/
def floatOperand (s : State) (r : Reg) : Nat :=
  (operandSlot s 4 r).toNat % 2 ^ (8 * ScalarType.float.width)

/-- Each operand the infinity, the other finite; and both the same infinity. -/
theorem witness_FloatAdditionOfInfinities :
    (let s := floatOperands 0x3F800000 0x7F800000
     binary32.isFinite (floatOperand s .r1) ∧ binary32.isInf (floatOperand s .r2) = true) ∧
    (let s := floatOperands 0xFF800000 0xFF800000
     binary32.isInf (floatOperand s .r1) = true ∧ floatOperand s .r2 = floatOperand s .r1) := by
  unfold FloatFormat.isFinite
  decide

/-- A10, a tie; A9, a sum beyond the range. -/
theorem witness_FloatAdditionRoundsToNearestEven :
    (let s := floatOperands 0x3F800000 0x33800000
     binary32.isFinite (floatOperand s .r1) ∧ binary32.isFinite (floatOperand s .r2) ∧
      binary32.value (floatOperand s .r1) + binary32.value (floatOperand s .r2) ≠ 0 ∧
      (binary32.value (floatOperand s .r1) + binary32.value (floatOperand s .r2)).natAbs
        < binary32.maxUnits + binary32.halfTopUlp) ∧
    (let s := floatOperands 0x7F7FFFFF 0x7F7FFFFF
     binary32.isFinite (floatOperand s .r1) ∧ binary32.isFinite (floatOperand s .r2) ∧
      binary32.maxUnits + binary32.halfTopUlp ≤
        (binary32.value (floatOperand s .r1) + binary32.value (floatOperand s .r2)).natAbs) := by
  unfold FloatFormat.isFinite
  decide +kernel

/-- A13, A14. -/
theorem witness_FloatAdditionZeroSign :
    (let s := floatOperands 0x80000000 0x80000000
     binary32.isFinite (floatOperand s .r1) ∧ binary32.isFinite (floatOperand s .r2) ∧
      binary32.value (floatOperand s .r1) + binary32.value (floatOperand s .r2) = 0) ∧
    (let s := floatOperands 0x3F800000 0xBF800000
     binary32.isFinite (floatOperand s .r1) ∧ binary32.isFinite (floatOperand s .r2) ∧
      binary32.value (floatOperand s .r1) + binary32.value (floatOperand s .r2) = 0) := by
  unfold FloatFormat.isFinite
  decide +kernel

theorem witness_JmpNotEqComparesIntegerBits :
    ScalarType.byte.kind ≠ .floating ∧ ScalarType.byte.fits 0xFF = true := by decide

/-- A NaN; the two zeros; two data that are neither (B4, B5, B6). -/
theorem witness_JmpNotEqComparesFloatsByIeee :
    formatOf .float = some binary32 ∧ ScalarType.float.fits 0x7FC00000 = true ∧
    binary32.isNaN 0x7FC00000 = true ∧
    (binary32.mag 0 = 0 ∧ binary32.mag 0x80000000 = 0) ∧
    (binary32.isNaN 0x3F800000 = false ∧ binary32.mag 0x3F800000 ≠ 0) := by decide

/-- The widest push at reset ends at the end of memory. -/
theorem witness_PshLitStoresAtSpThenLowersIt :
    Memory.wf State.reset.mem = true ∧
    State.reset.sp.toNat + ScalarType.ulong.width ≤ State.reset.memSize := by decide

/-- Address 0, from which `sp` wraps. -/
theorem witness_PshRegStoresOldRegisterValue :
    Memory.wf State.reset.mem = true ∧
    (State.reset.setAddr .sp 0).sp.toNat + ScalarType.ulong.width ≤ State.reset.memSize := by decide

/-- K7: `sp` = 248 and four bytes. -/
theorem witness_PopReplacesOnlyLowBytes :
    State.reset.sp.toNat + 2 * ScalarType.uint.width ≤ State.reset.memSize := by decide

/-- A push at 249 and, K6, a pop of eight bytes at reset. -/
theorem witness_StackAccessFaultsOutsideMemory :
    State.reset.memSize < (State.reset.setAddr .sp 249).sp.toNat + ScalarType.ulong.width ∧
    State.reset.memSize < State.reset.sp.toNat + 2 * ScalarType.ulong.width := by decide

/-- Whether an instruction executes to a next state. -/
def completes (i : Instr) (s : State) : Bool :=
  match exec i s with
  | .next _ => true
  | .fault _ => false
  | .refused _ => false

/-- `sp` as low as the width allows. -/
theorem witness_PopUndoesPush :
    (State.reset.setAddr .sp 8).inv = true ∧
    ScalarType.ulong.width ≤ (State.reset.setAddr .sp 8).sp.toNat ∧
    completes (.pshLit .ulong 0xAA) (State.reset.setAddr .sp 8) = true ∧
    completes (.pshReg .ulong .r1) (State.reset.setAddr .sp 8) = true := by decide

/-- The pushes of P4, widest first. -/
theorem witness_NonIncreasingPushesPopBack :
    let ps : List (ScalarType × Word) :=
      [(.ulong, 0x1122334455667788), (.uint, 0xAABBCCDD), (.ubyte, 0x5A)]
    State.reset.inv = true ∧ (ps.map (fun p => p.1.width)).Pairwise (· ≥ ·) ∧
      (ps.map (fun p => p.1.width)).sum ≤ State.reset.sp.toNat ∧
      (pushAll 0 ps State.reset).toOption.isSome = true := by decide

/-- K4: two pushes of increasing width, which overlap, and their pops; and a push that takes `sp` below
0, whose pop faults. -/
theorem witness_PushesThenPopsRestoreSpAndCounter :
    (let ps : List (ScalarType × Word) := [(.ubyte, 0x5A), (.uint, 0xAABBCCDD)]
     (pushAll 0 ps State.reset).toOption.isSome = true ∧
      (ps.map (fun p => p.1.width)).sum ≤ State.reset.sp.toNat ∧
      (pushAll 0 ps State.reset >>= popAll 0 [.uint, .ubyte]).toOption.isSome = true) ∧
    (pushAll 0 [(.uint, 0)] (State.reset.setAddr .sp 0)).toOption.isSome = true := by decide

/-- The whole frame at reset, and C2, whose last word is at address 0. -/
theorem witness_CalLitPushesFrameAndJumps :
    Memory.wf State.reset.mem = true ∧
    (∀ k, k < 10 → frameAddr State.reset.sp k + 8 ≤ State.reset.memSize) ∧
    (∀ k, k < 10 → frameAddr (State.reset.setAddr .sp 72).sp k + 8 ≤ State.reset.memSize) := by
  decide

theorem witness_CalRegPushesFrameAndJumps :
    Memory.wf State.reset.mem = true ∧
    (∀ k, k < 10 → frameAddr State.reset.sp k + 8 ≤ State.reset.memSize) := by decide

/-- The first write outside, and C3, the tenth. -/
theorem witness_CallFaultsOnFirstWriteOutside :
    State.reset.memSize < frameAddr (State.reset.setAddr .sp 249).sp 0 + 8 ∧
    ((∀ j, j < 9 → frameAddr (State.reset.setAddr .sp 64).sp j + 8 ≤ State.reset.memSize) ∧
      State.reset.memSize < frameAddr (State.reset.setAddr .sp 64).sp 9 + 8) := by decide

theorem witness_TailcallJumpsToRememberedTarget :
    (State.reset.setCtgt (some 0x10)).ctgt = some 0x10 ∧ State.reset.ctgt = none := by decide

/-- No discarded byte; and C8, the last discarded byte the last of memory. -/
theorem witness_RetRestoresFrame :
    (let s := retState 80 0x44
     s.memSize ≤ 2 ^ 32 ∧ s.fp.toNat + 88 ≤ s.memSize ∧ (frameField s 1).toNat = 80) ∧
    (let s := retState 95 0x44
     s.memSize ≤ 2 ^ 32 ∧ s.fp.toNat + 88 ≤ s.memSize ∧ 80 ≤ (frameField s 1).toNat ∧
      s.fp.toNat + (frameField s 1).toNat < s.memSize) := by decide

/-- C4, the first read; a frame whose tenth read is the first outside; C7; C9. -/
theorem witness_RetFaultsInOrder :
    (State.reset.memSize ≤ 2 ^ 32 ∧ State.reset.memSize < State.reset.fp.toNat + 8 * 1 + 8) ∧
    (let s := State.reset.setAddr .fp 169
     s.fp.toNat + 8 * 10 ≤ s.memSize ∧ s.memSize < s.fp.toNat + 8 * 10 + 8) ∧
    (let s := retState 79 0
     s.fp.toNat + 88 ≤ s.memSize ∧ (frameField s 1).toNat < 80) ∧
    (let s := retState 96 0
     s.fp.toNat + 88 ≤ s.memSize ∧ 80 < (frameField s 1).toNat ∧
      s.memSize ≤ s.fp.toNat + (frameField s 1).toNat) := by decide

theorem witness_DiscardLoopEqualsClosedForm :
    State.reset.memSize ≤ 2 ^ 32 ∧ State.reset.getReg .sp = zextAddr State.reset.sp := by decide

theorem witness_StepKeepsFrameChain :
    let s := code [0x5E, 0, 0, 0, 0x20]
    s.inv = true ∧ s.status = .run ∧ FrameChain s ∧ decodeAt s = .ok (.calLit 0x20) ∧
      setsStackPointer (.calLit 0x20) = false ∧ steps s (fun _ => true) = true := by
  unfold FrameChain
  decide

/-- The caller of P3's shape: eight bytes pushed, `sp` = 240, `fsz` = 8. -/
def caller : State := (State.reset.setAddr .sp 240).setFsz 8

theorem witness_ReturnAfterCallRestoresCaller :
    caller.inv = true ∧ completes (.calLit 0x20) caller = true ∧
    completes (.calReg .r4) caller = true ∧ 80 ≤ caller.sp.toNat ∧
    caller.fsz.toNat + 80 < 2 ^ 64 ∧ caller.sp.toNat + caller.fsz.toNat < caller.memSize ∧
    FrameChain caller := by
  unfold FrameChain
  decide

theorem witness_OnlyTransfersLeaveSequence :
    completes .hlt State.reset = true ∧ completes (.jmpNotEq .ubyte 1 0x40) State.reset = true := by
  decide

/-- A push that changes memory. -/
theorem witness_OnlyStoresPushesAndCallsWriteMemory :
    completes (.pshLit .ubyte 0xAA) State.reset = true ∧
    (match exec (.pshLit .ubyte 0xAA) State.reset with
     | .next u => decide (u.mem ≠ State.reset.mem)
     | .fault _ => false
     | .refused _ => false) = true := by decide

/-- A call that changes the target and, in a frame with bytes pushed, the counter. -/
theorem witness_OnlyStackAndCallsWriteHiddenState :
    (match exec (.calLit 0x20) caller with
     | .next u => decide (u.ctgt ≠ caller.ctgt ∧ u.fsz ≠ caller.fsz)
     | .fault _ => false
     | .refused _ => false) = true := by decide

theorem witness_StepKeepsInvariant :
    (code [0x17, 0x04, 1, 2, 3, 4, 5, 6, 7, 8]).inv = true ∧
    steps (code [0x17, 0x04, 1, 2, 3, 4, 5, 6, 7, 8]) (fun _ => true) = true := by decide

/-- The last bytes inside and the first outside. -/
theorem witness_MemWriteStoresBigEndian :
    Memory.wf State.reset.mem = true ∧ 248 + 8 ≤ State.reset.memSize ∧
    State.reset.memSize < 249 + 8 := by decide

theorem witness_MemReadLoadsBigEndian :
    8 ∈ ([1, 2, 4, 8] : List Nat) ∧ 248 + 8 ≤ State.reset.memSize ∧
    State.reset.memSize < 249 + 8 := by decide

theorem witness_MixedWidthAccessSeesBytes :
    Memory.wf State.reset.mem = true ∧
    (State.reset.store 248 8 0x1122334455667788).isSome = true ∧ 6 + 2 ≤ 8 := by decide

/-- The smallest and the largest size. -/
theorem witness_ConstructionHoldsItsParameters :
    (8 ≤ 8 ∧ 8 ≤ 2 ^ 32) ∧ (8 ≤ 2 ^ 32 ∧ 2 ^ 32 ≤ 2 ^ 32) := by decide

/-- A machine of the smallest size, as constructed. -/
theorem witness_LaunchStatesAreClean : Launch (State.construct 8 []) :=
  .construct (memSize := 8) (memInit := fun _ => 0) rfl

theorem witness_HostSetReadsBackAndZeroClears :
    HostValue.ofType .byte (.integer (-128)) = true ∧ 7 + ScalarType.byte.width ≤ 8 ∧
    HostValue.ofType .ulong (.integer 18446744073709551615) = true ∧
    0 + ScalarType.ulong.width ≤ 8 ∧ HostValue.ofType .float (.datum 0x7FC00001) = true := by decide

theorem witness_HostRegisterErrors :
    (∀ r, r ∈ Reg.all → Reg.name r ≠ "r9") ∧ (Reg.name .r1 = "r1" ∧ 8 < 5 + ScalarType.uint.width) := by
  decide

/-- X9: the last byte inside, and a `uint` that leaves memory. -/
theorem witness_HostStoreThenLoad :
    Memory.wf State.reset.mem = true ∧ HostValue.ofType .ubyte (.integer 255) = true ∧
    255 + ScalarType.ubyte.width ≤ State.reset.memSize ∧
    State.reset.memSize < 253 + ScalarType.uint.width := by decide

end Sys2Proof.Tests
end

section
/-! PROOFS. Decoding a list of bytes field by field: each field is found behind the bytes before it
(R80, R82), and a selector byte `b`, whatever its value, gives the register of index `b mod 13`
(R26). -/

namespace Sys2Proof

/-! ## A field behind a prefix of the bytes -/

/-- R80, R82: a field directly after `pre` is read whole, whatever bytes follow it. -/
theorem fieldOfBytes_append (pre field rest : List Byte) :
    fieldOfBytes (pre ++ (field ++ rest)) pre.length field.length = some (beValue field) := by
  rw [fieldOfBytes, if_pos (by simp), List.drop_left, List.take_left]

theorem fieldOfBytes_byte (pre : List Byte) (b : Byte) (rest : List Byte) :
    fieldOfBytes (pre ++ b :: rest) pre.length 1 = some b.toNat := by
  rw [← beValue_singleton b]
  exact fieldOfBytes_append pre [b] rest

theorem fetchType_tag (o : Byte) (t : ScalarType) (rest : List Byte) :
    fetchType (fieldOfBytes (o :: t.tag :: rest)) = .ok t :=
  fetchType_ok (fieldOfBytes_byte [o] t.tag rest) (ScalarType.ofTag_tag t)

theorem fetchReg_append (pre : List Byte) (b : Byte) (rest : List Byte) :
    fetchReg (fieldOfBytes (pre ++ b :: rest)) pre.length = .ok (Reg.ofSelector b) :=
  fetchReg_ok (fieldOfBytes_byte pre b rest)

theorem fetchLit_append (pre : List Byte) {t : ScalarType} {lit : Word} (h : t.fits lit = true)
    (rest : List Byte) :
    fetchLit (fieldOfBytes (pre ++ (litBytes t lit ++ rest))) pre.length t = .ok lit := by
  apply fetchLit_ok
  rw [← beValue_litBytes h, ← length_litBytes t lit]
  exact fieldOfBytes_append pre (litBytes t lit) rest

theorem fetchAddr_append (pre : List Byte) (a : Addr) (rest : List Byte) :
    fetchAddr (fieldOfBytes (pre ++ (addrBytes a ++ rest))) pre.length = .ok a := by
  apply fetchAddr_ok
  rw [← beValue_addrBytes a]
  exact fieldOfBytes_append pre (addrBytes a) rest

/-- A selector behind a literal, at the offset where the decoder looks for it. -/
theorem fetchReg_after_lit (o p : Byte) (t : ScalarType) (lit : Word) (b : Byte)
    (rest : List Byte) :
    fetchReg (fieldOfBytes (o :: p :: (litBytes t lit ++ b :: rest))) (2 + t.width) =
      .ok (Reg.ofSelector b) := by
  have hlen : (o :: p :: litBytes t lit).length = 2 + t.width := by
    simp only [List.length_cons, length_litBytes]
    omega
  rw [← hlen]
  exact fetchReg_append (o :: p :: litBytes t lit) b rest

/-- A selector behind an address, at the offset where the decoder looks for it. -/
theorem fetchReg_after_addr (o p : Byte) (a : Addr) (b : Byte) (rest : List Byte) :
    fetchReg (fieldOfBytes (o :: p :: (addrBytes a ++ b :: rest))) 6 = .ok (Reg.ofSelector b) := by
  simpa using fetchReg_append (o :: p :: addrBytes a) b rest

/-! ## The instructions with selectors, their fields in stream order (R82) -/

theorem decodeBytes_opcode (op : Opcode) (bs : List Byte) :
    decodeBytes (op.byte :: bs) = decodeOperands (fieldOfBytes (op.byte :: bs)) op :=
  decodeWith_opcode (fieldOfBytes_byte [] op.byte bs) (Opcode.ofByte_byte op)

section
variable (t : ScalarType) (a : Addr) (b c : Byte) (rest : List Byte)

theorem decodeBytes_movLitReg {lit : Word} (h : t.fits lit = true) :
    decodeBytes (Opcode.movLitReg.byte :: t.tag :: (litBytes t lit ++ b :: rest)) =
      .ok (.movLitReg t lit (.ofSelector b)) := by
  simp only [decodeBytes_opcode, decodeOperands, bind_eq_ok]
  exact ⟨t, fetchType_tag _ t _, lit, fetchLit_append [_, _] h _,
    _, fetchReg_after_lit _ _ t lit b rest, rfl⟩

theorem decodeBytes_movRegReg :
    decodeBytes (Opcode.movRegReg.byte :: t.tag :: b :: c :: rest) =
      .ok (.movRegReg t (.ofSelector b) (.ofSelector c)) := by
  simp only [decodeBytes_opcode, decodeOperands, bind_eq_ok]
  exact ⟨t, fetchType_tag _ t _, _, fetchReg_append [_, _] b _,
    _, fetchReg_append [_, _, _] c _, rfl⟩

theorem decodeBytes_movRegMem :
    decodeBytes (Opcode.movRegMem.byte :: t.tag :: b :: (addrBytes a ++ rest)) =
      .ok (.movRegMem t (.ofSelector b) a) := by
  simp only [decodeBytes_opcode, decodeOperands, bind_eq_ok]
  exact ⟨t, fetchType_tag _ t _, _, fetchReg_append [_, _] b _,
    a, fetchAddr_append [_, _, _] a _, rfl⟩

theorem decodeBytes_movMemReg :
    decodeBytes (Opcode.movMemReg.byte :: t.tag :: (addrBytes a ++ b :: rest)) =
      .ok (.movMemReg t a (.ofSelector b)) := by
  simp only [decodeBytes_opcode, decodeOperands, bind_eq_ok]
  exact ⟨t, fetchType_tag _ t _, a, fetchAddr_append [_, _] a _,
    _, fetchReg_after_addr _ _ a b rest, rfl⟩

theorem decodeBytes_addRegReg :
    decodeBytes (Opcode.addRegReg.byte :: t.tag :: b :: c :: rest) =
      .ok (.addRegReg t (.ofSelector b) (.ofSelector c)) := by
  simp only [decodeBytes_opcode, decodeOperands, bind_eq_ok]
  exact ⟨t, fetchType_tag _ t _, _, fetchReg_append [_, _] b _,
    _, fetchReg_append [_, _, _] c _, rfl⟩

theorem decodeBytes_pshReg :
    decodeBytes (Opcode.pshReg.byte :: t.tag :: b :: rest) = .ok (.pshReg t (.ofSelector b)) := by
  simp only [decodeBytes_opcode, decodeOperands, bind_eq_ok]
  exact ⟨t, fetchType_tag _ t _, _, fetchReg_append [_, _] b _, rfl⟩

theorem decodeBytes_pop :
    decodeBytes (Opcode.pop.byte :: t.tag :: b :: rest) = .ok (.pop t (.ofSelector b)) := by
  simp only [decodeBytes_opcode, decodeOperands, bind_eq_ok]
  exact ⟨t, fetchType_tag _ t _, _, fetchReg_append [_, _] b _, rfl⟩

theorem decodeBytes_calReg :
    decodeBytes (Opcode.calReg.byte :: b :: rest) = .ok (.calReg (.ofSelector b)) := by
  simp only [decodeBytes_opcode, decodeOperands, bind_eq_ok]
  exact ⟨_, fetchReg_append [_] b _, rfl⟩

end

/-- Settles O4: the registers are `Reg.ofSelector` of the two bytes, and each instruction decodes to
them by its own lemma. -/
theorem selectorByteWrapsModulo13 : Obligations.SelectorByteWrapsModulo13 := by
  intro t lit a b c rest hfits
  exact ⟨.ofSelector b, .ofSelector c, Reg.index_ofSelector b, Reg.index_ofSelector c,
    decodeBytes_movLitReg t b rest hfits,
    decodeBytes_movRegReg t b c rest,
    decodeBytes_movRegMem t a b rest,
    decodeBytes_movMemReg t a b rest,
    decodeBytes_addRegReg t b c rest,
    decodeBytes_pshReg t b rest,
    decodeBytes_pop t b rest,
    decodeBytes_calReg b rest⟩

end Sys2Proof
end

section
/-! PROOFS. `MemRead` and `MemWrite` (R53, R54): inside memory the bytes are the value's, most
significant first, and outside it they fault. -/

namespace Sys2Proof.Machine

/-- Replacing the memory writes nothing else of the state. -/
theorem setMem_keeps_rest (s : State) (m : Memory) :
    KeepsRegs [] s (s.setMem m) ∧ KeepsHidden s (s.setMem m) ∧ KeepsControl s (s.setMem m) :=
  ⟨fun _ _ => State.getReg_setMem .., ⟨rfl, rfl⟩, ⟨rfl, rfl⟩⟩

/-- R53: what `MemRead` gives is below `2 ^ (8 * n)` and has the bytes at the address, when `n` bytes
fit a word. -/
theorem memRead_value_holds (s : State) (addr : Nat) {n : Nat} (hn : n ≤ 8) :
    let v : Word := BitVec.ofNat 64 (beValue (Memory.readBytes s.mem addr n))
    v.toNat < 2 ^ (8 * n) ∧ HoldsValue s addr n v := by
  have hv := toNat_beValue_readBytes s.mem addr hn
  have hlt := beValue_readBytes_lt s.mem addr n
  refine ⟨by rwa [hv], holdsValue_of_readBytes s addr n _ ?_⟩
  rw [hv, Nat.mod_eq_of_lt hlt]

/-- Settles O50: a store that lies in memory replaces the memory by one with the value's bytes
written at the address. -/
theorem memWriteStoresBigEndian : Obligations.MemWriteStoresBigEndian := by
  intro pc0 s addr n v hwf
  refine ⟨memWrite_error v, fun hin => ⟨_, memWrite_ok v hin, ?_⟩⟩
  obtain ⟨hregs, hhidden, hcontrol⟩ :=
    setMem_keeps_rest s (Memory.writeBytes s.mem addr (beBytes n v.toNat))
  exact ⟨holdsValue_of_writeBytes v hwf rfl, keepsMemoryOutside_of_writeBytes rfl,
    hregs, hhidden, hcontrol⟩

/-- Settles O51: each of the four widths fits a word, so the word read is the value of the bytes. -/
theorem memReadLoadsBigEndian : Obligations.MemReadLoadsBigEndian := by
  intro pc0 s addr n hn
  have hfit : n ≤ 8 := by
    simp only [List.mem_cons, List.not_mem_nil, or_false] at hn
    omega
  exact ⟨memRead_error, fun hin => ⟨_, memRead_ok hin, memRead_value_holds s addr hfit⟩⟩

end Sys2Proof.Machine
end

section
/-! PROOFS. A step whose instruction does not decode (R90, R110): what it faults with, and the state
it leaves (R196). -/

namespace Sys2Proof.Machine

/-- R110: a running machine faults as its decoder does. -/
theorem step_of_decode_error {s : State} {e : DecodeError} (hrun : s.status = .run)
    (h : decodeAt s = .error e) : step s = .fault (DecodeError.toFault s.pc e) := by
  simp [step, hrun, h]

/-- R196: a step that faults commits the status alone. -/
theorem transition_of_fault {s : State} {f : Fault} (h : step s = .fault f) :
    transition s = (s.takeFault f, .fault f) := by
  simp [transition, h]

/-- R110: the opcode field is the byte at `pc`. -/
theorem fetchFromMem_opcode {s : State} (hpc : s.pc.toNat < s.memSize) :
    fetchFromMem s 0 1 = some (s.byte s.pc.toNat).toNat := by
  have hbase : s.pc + BitVec.ofNat 32 0 = s.pc := BitVec.add_zero _
  have hbyte := fetchFromMem_byte (s := s) (off := 0) (by rwa [hbase])
  rwa [hbase] at hbyte

/-- Settles O7: the bytes listed are those of `Opcode.all`, so the byte at `pc` selects no opcode and
the decoder stops at it. -/
theorem unassignedOpcodeFaults : Obligations.UnassignedOpcodeFaults := by
  intro s hrun hpc hbyte
  have hnone : Opcode.ofByte (s.byte s.pc.toNat) = none := Opcode.ofByte_eq_none.mpr hbyte
  have hdecode : decodeAt s = .error (.unknownOpcode (s.byte s.pc.toNat)) :=
    decodeWith_unknown (fetchFromMem_opcode hpc) hnone
  have hstep := step_of_decode_error hrun hdecode
  exact ⟨hstep, transition_of_fault hstep⟩

end Sys2Proof.Machine
end

section
/-! PROOFS. The encoder and the decoder (R80 to R88): decoding inverts encoding; what is decoded is
well formed and has all its fields among the bytes it was decoded from. -/

namespace Sys2Proof

open Machine (fieldsOf fieldsOf_within decodeWith_first_missing)

/-! ## Decoding what was encoded -/

section
variable (t : ScalarType) (a : Addr) (rest : List Byte)

theorem decodeBytes_jmpNotEq {lit : Word} (h : t.fits lit = true) :
    decodeBytes (Opcode.jmpNotEq.byte :: t.tag :: (litBytes t lit ++ (addrBytes a ++ rest))) =
      .ok (.jmpNotEq t lit a) := by
  have haddr := fetchAddr_append (Opcode.jmpNotEq.byte :: t.tag :: litBytes t lit) a rest
  rw [List.length_cons, List.length_cons, length_litBytes, Nat.add_comm t.width,
    Nat.add_comm _ 1, ← Nat.add_assoc] at haddr
  simp only [decodeBytes_opcode, decodeOperands, bind_eq_ok]
  exact ⟨t, fetchType_tag _ t _, lit, fetchLit_append [_, _] h _, a, haddr, rfl⟩

theorem decodeBytes_pshLit {lit : Word} (h : t.fits lit = true) :
    decodeBytes (Opcode.pshLit.byte :: t.tag :: (litBytes t lit ++ rest)) =
      .ok (.pshLit t lit) := by
  simp only [decodeBytes_opcode, decodeOperands, bind_eq_ok]
  exact ⟨t, fetchType_tag _ t _, lit, fetchLit_append [_, _] h _, rfl⟩

theorem decodeBytes_calLit :
    decodeBytes (Opcode.calLit.byte :: (addrBytes a ++ rest)) = .ok (.calLit a) := by
  simp only [decodeBytes_opcode, decodeOperands, bind_eq_ok]
  exact ⟨a, fetchAddr_append [_] a rest, rfl⟩

end

/-- Settles O1: each instruction's bytes are those of the decoding lemma for its opcode, every
selector canonical. -/
theorem decodeInvertsEncode : Obligations.DecodeInvertsEncode := by
  intro i rest hwf
  cases i with
  | hlt => exact decodeBytes_opcode .hlt rest
  | ret => exact decodeBytes_opcode .ret rest
  | tailcall => exact decodeBytes_opcode .tailcall rest
  | movLitReg t lit d =>
    simpa [encode, Instr.opcode, Instr.operandBytes] using
      decodeBytes_movLitReg t d.selector rest hwf
  | movRegReg t s d =>
    simpa [encode, Instr.opcode, Instr.operandBytes] using
      decodeBytes_movRegReg t s.selector d.selector rest
  | movRegMem t s a =>
    simpa [encode, Instr.opcode, Instr.operandBytes] using decodeBytes_movRegMem t a s.selector rest
  | movMemReg t a d =>
    simpa [encode, Instr.opcode, Instr.operandBytes] using decodeBytes_movMemReg t a d.selector rest
  | addRegReg t x y =>
    simpa [encode, Instr.opcode, Instr.operandBytes] using
      decodeBytes_addRegReg t x.selector y.selector rest
  | jmpNotEq t lit a =>
    simpa [encode, Instr.opcode, Instr.operandBytes] using decodeBytes_jmpNotEq t a rest hwf
  | pshLit t lit =>
    simpa [encode, Instr.opcode, Instr.operandBytes] using decodeBytes_pshLit t rest hwf
  | pshReg t s =>
    simpa [encode, Instr.opcode, Instr.operandBytes] using decodeBytes_pshReg t s.selector rest
  | pop t d =>
    simpa [encode, Instr.opcode, Instr.operandBytes] using decodeBytes_pop t d.selector rest
  | calLit a => simpa [encode, Instr.opcode, Instr.operandBytes] using decodeBytes_calLit a rest
  | calReg s =>
    simpa [encode, Instr.opcode, Instr.operandBytes] using decodeBytes_calReg s.selector rest

/-! ## What is decoded -/

/-- A literal fetched as a field of its type's width fits the type (R84). -/
theorem fits_of_fetchLit {fetch : Nat → Nat → Option Nat}
    (hlt : ∀ off n v, fetch off n = some v → v < 256 ^ n) {off : Nat} {t : ScalarType} {lit : Word}
    (h : fetchLit fetch off t = .ok lit) : t.fits lit = true := by
  obtain ⟨v, hv, rfl⟩ := fetchLit_eq_ok.mp h
  have hw : v < 2 ^ (8 * t.width) := Machine.pow_8_mul _ ▸ hlt _ _ _ hv
  simp only [ScalarType.fits, decide_eq_true_eq, BitVec.toNat_ofNat]
  exact Nat.lt_of_le_of_lt (Nat.mod_le _ _) hw

/-- Only the literals of three instructions are in question: each was fetched as one. -/
theorem wellFormed_of_decodeWith {fetch : Nat → Nat → Option Nat}
    (hlt : ∀ off n v, fetch off n = some v → v < 256 ^ n) {i : Instr}
    (h : decodeWith fetch = .ok i) : i.wellFormed = true := by
  obtain ⟨-, op, -, -, h⟩ := decodeWith_eq_ok.mp h
  cases op <;> simp only [decodeOperands, bind_eq_ok, Except.ok.injEq] at h
  case movLitReg | jmpNotEq =>
    obtain ⟨t, -, lit, hlit, _, -, rfl⟩ := h
    exact fits_of_fetchLit hlt hlit
  case pshLit =>
    obtain ⟨t, -, lit, hlit, rfl⟩ := h
    exact fits_of_fetchLit hlt hlit
  case hlt | ret | tailcall => subst h; rfl
  case calLit | calReg => obtain ⟨_, -, rfl⟩ := h; rfl
  case pshReg | pop => obtain ⟨_, -, _, -, rfl⟩ := h; rfl
  all_goals obtain ⟨_, -, _, -, _, -, rfl⟩ := h; rfl

/-- Every field of a decoded instruction was there to be fetched. -/
theorem field_of_decodeWith {fetch : Nat → Nat → Option Nat} {i : Instr}
    (h : decodeWith fetch = .ok i) {p : Nat × Nat} (hp : p ∈ fieldsOf i) :
    fetch p.1 p.2 ≠ none := by
  have hfirst := decodeWith_first_missing (fetch' := fetch)
    (missing := fun q => (fetch q.1 q.2).isNone) h (fun _ _ _ => rfl)
    (fun q hq => by simpa using List.find?_some hq)
  cases hf : (fieldsOf i).find? (fun q => (fetch q.1 q.2).isNone) with
  | none => simpa using List.find?_eq_none.mp hf p hp
  | some q => rw [h, hf] at hfirst; cases hfirst

/-- R82: the last field ends where the instruction does. -/
theorem exists_field_end (i : Instr) : ∃ p ∈ fieldsOf i, p.1 + p.2 = i.length := by
  cases i <;> simp [fieldsOf, Instr.length] <;> omega

theorem fieldOfBytes_lt {bs : List Byte} {off n v : Nat} (h : fieldOfBytes bs off n = some v) :
    v < 256 ^ n := by
  rw [fieldOfBytes, Option.ite_none_right_eq_some, Option.some.injEq] at h
  obtain ⟨hin, rfl⟩ := h
  have hlen : ((bs.drop off).take n).length = n := by simp; omega
  simpa only [hlen] using Machine.beValue_lt ((bs.drop off).take n)

theorem fieldOfBytes_ne_none {bs : List Byte} {off n : Nat} :
    fieldOfBytes bs off n ≠ none ↔ off + n ≤ bs.length := by
  simp [fieldOfBytes]

/-- R82: an instruction is no longer than the bytes it is decoded from. -/
theorem length_le_of_decodeBytes {bs : List Byte} {i : Instr} (h : decodeBytes bs = .ok i) :
    i.length ≤ bs.length := by
  obtain ⟨p, hp, hend⟩ := exists_field_end i
  exact hend ▸ fieldOfBytes_ne_none.mp (field_of_decodeWith h hp)

/-- A decoder whose fetch answers as another's on an instruction's fields decodes it too. -/
theorem decodeWith_congr {fetch fetch' : Nat → Nat → Option Nat} {i : Instr}
    (h : decodeWith fetch = .ok i)
    (hfields : ∀ p ∈ fieldsOf i, fetch' p.1 p.2 = fetch p.1 p.2) : decodeWith fetch' = .ok i := by
  have hnone : (fieldsOf i).find? (fun _ => false) = none := by simp
  have hfirst := decodeWith_first_missing (fetch' := fetch') (missing := fun _ => false) h
    (fun p hp _ => hfields p hp) (fun p hp => by cases hnone.symm.trans hp)
  rwa [hnone] at hfirst

/-- A field inside the first `len` bytes is the same whatever bytes follow them. -/
theorem fieldOfBytes_take_append {bs : List Byte} (rest : List Byte) {len off n : Nat}
    (hlen : len ≤ bs.length) (hin : off + n ≤ len) :
    fieldOfBytes (bs.take len ++ rest) off n = fieldOfBytes bs off n := by
  have htake : (bs.take len).length = len := by simpa using hlen
  rw [fieldOfBytes, fieldOfBytes, if_pos (by simp; omega), if_pos (by omega),
    List.drop_append_of_le_length (by omega), List.take_append_of_le_length (by simp; omega),
    List.drop_take, List.take_take, Nat.min_eq_left (by omega)]

/-- Settles O2: a decoded instruction's fields lie in its first `i.length` bytes, and the decoder
asks for no others. -/
theorem decodingReadsOnlyTheInstruction : Obligations.DecodingReadsOnlyTheInstruction := by
  intro bs rest i h
  have hlen := length_le_of_decodeBytes h
  exact ⟨wellFormed_of_decodeWith (fun _ _ _ => fieldOfBytes_lt) h, hlen,
    decodeWith_congr h fun p hp => fieldOfBytes_take_append rest hlen (fieldsOf_within hp).2⟩

/-- Settles O3: each of the seven words is decoded by evaluation. -/
theorem specWordsDecode : Obligations.SpecWordsDecode := by
  unfold Obligations.SpecWordsDecode
  decide

end Sys2Proof
end

section
/-! PROOFS. The step and its faults (R110 to R118, R190 to R198): which instruction a step runs,
what it faults with when the instruction does not decode, and what every step keeps. -/

namespace Sys2Proof

/-! ## Where a decoder fails -/

theorem bind_eq_error {ε α β : Type} {x : Except ε α} {g : α → Except ε β} {e : ε} :
    (x >>= g) = .error e ↔ x = .error e ∨ ∃ a, x = .ok a ∧ g a = .error e := by
  cases x <;> simp [bind, Except.bind]

/-- R88, R90: the opcodes whose second field is a type tag (R81). -/
def typedOpcodes : List Opcode :=
  [.movLitReg, .movRegReg, .movRegMem, .movMemReg, .addRegReg, .jmpNotEq, .pshLit, .pshReg, .pop]

/-- R81: the opcodes without a type tag. -/
def untypedOpcodes : List Opcode := [.hlt, .calLit, .calReg, .ret, .tailcall]

/-- R81, R113: in a typed instruction nothing is fetched before its type is known. -/
theorem decodeOperands_of_fetchType_error {fetch : Nat → Nat → Option Nat} {op : Opcode}
    {e : DecodeError} (hop : op ∈ typedOpcodes) (h : fetchType fetch = .error e) :
    decodeOperands fetch op = .error e := by
  cases op <;> simp [typedOpcodes] at hop <;> simp [decodeOperands, h, bind, Except.bind]

/-- A failing field fetch stops for want of the field. -/
theorem fetchField_eq_error {fetch : Nat → Nat → Option Nat} {off n : Nat} {e : DecodeError} :
    fetchField fetch off n = .error e ↔ fetch off n = none ∧ e = .truncated off n := by
  cases h : fetch off n <;> simp [fetchField, h, eq_comm]

theorem fetchAddr_eq_error {fetch : Nat → Nat → Option Nat} {off : Nat} {e : DecodeError} :
    fetchAddr fetch off = .error e ↔ fetch off 4 = none ∧ e = .truncated off 4 := by
  simp [fetchAddr, bind_eq_error, fetchField_eq_error]

theorem fetchReg_eq_error {fetch : Nat → Nat → Option Nat} {off : Nat} {e : DecodeError} :
    fetchReg fetch off = .error e ↔ fetch off 1 = none ∧ e = .truncated off 1 := by
  simp [fetchReg, bind_eq_error, fetchField_eq_error]

theorem fetchLit_eq_error {fetch : Nat → Nat → Option Nat} {off : Nat} {t : ScalarType}
    {e : DecodeError} :
    fetchLit fetch off t = .error e ↔ fetch off t.width = none ∧ e = .truncated off t.width := by
  simp [fetchLit, bind_eq_error, fetchField_eq_error]

/-- R91: an untyped instruction has no tag to be unassigned. -/
theorem decodeOperands_untyped_error {fetch : Nat → Nat → Option Nat} {op : Opcode} (b : Byte)
    (hop : op ∈ untypedOpcodes) : decodeOperands fetch op ≠ .error (.unknownTypeTag b) := by
  cases op <;> simp [untypedOpcodes] at hop <;>
    simp [decodeOperands, bind_eq_error, fetchAddr_eq_error, fetchReg_eq_error]

/-- If the decoding stops for want of a field, that field cannot be fetched, and it has one to eight
bytes. -/
def TruncatesSoundly {α : Type} (fetch : Nat → Nat → Option Nat) (x : Except DecodeError α) :
    Prop :=
  ∀ off n, x = .error (.truncated off n) → fetch off n = none ∧ 1 ≤ n ∧ n ≤ 8

section
variable {fetch : Nat → Nat → Option Nat}

theorem TruncatesSoundly.ok {α : Type} (a : α) : TruncatesSoundly fetch (.ok a) := by
  rintro off n ⟨⟩

theorem TruncatesSoundly.bind {α β : Type} {x : Except DecodeError α}
    {g : α → Except DecodeError β} (hx : TruncatesSoundly fetch x)
    (hg : ∀ a, TruncatesSoundly fetch (g a)) : TruncatesSoundly fetch (x >>= g) := by
  intro off n h
  rcases bind_eq_error.mp h with h | ⟨a, -, h⟩
  · exact hx off n h
  · exact hg a off n h

theorem TruncatesSoundly.field (off : Nat) {n : Nat} (h1 : 1 ≤ n) (h8 : n ≤ 8) :
    TruncatesSoundly fetch (fetchField fetch off n) := by
  intro off' n' h
  obtain ⟨hnone, ⟨⟩⟩ := fetchField_eq_error.mp h
  exact ⟨hnone, h1, h8⟩

theorem TruncatesSoundly.reg (off : Nat) : TruncatesSoundly fetch (fetchReg fetch off) :=
  (field off (by omega) (by omega)).bind fun _ => ok _

theorem TruncatesSoundly.addr (off : Nat) : TruncatesSoundly fetch (fetchAddr fetch off) :=
  (field off (by omega) (by omega)).bind fun _ => ok _

theorem TruncatesSoundly.lit (off : Nat) (t : ScalarType) :
    TruncatesSoundly fetch (fetchLit fetch off t) :=
  (field off (Machine.ScalarType.width_pos t) (Machine.ScalarType.width_le t)).bind fun _ => ok _

theorem TruncatesSoundly.type : TruncatesSoundly fetch (fetchType fetch) := by
  refine (field 1 (by omega) (by omega)).bind fun v => ?_
  cases ScalarType.ofTag (BitVec.ofNat 8 v) with
  | none => rintro off n ⟨⟩
  | some t => exact ok t

/-- R82, R112: every operand is fetched by one of the four fetches above. -/
theorem TruncatesSoundly.operands (op : Opcode) :
    TruncatesSoundly fetch (decodeOperands fetch op) := by
  cases op with
  | hlt | ret | tailcall => exact ok _
  | calLit => exact (addr _).bind fun _ => ok _
  | calReg => exact (reg _).bind fun _ => ok _
  | pshLit => exact type.bind fun _ => (lit _ _).bind fun _ => ok _
  | pshReg | pop => exact type.bind fun _ => (reg _).bind fun _ => ok _
  | movLitReg => exact type.bind fun _ => (lit _ _).bind fun _ => (reg _).bind fun _ => ok _
  | movRegReg | addRegReg =>
    exact type.bind fun _ => (reg _).bind fun _ => (reg _).bind fun _ => ok _
  | movRegMem => exact type.bind fun _ => (reg _).bind fun _ => (addr _).bind fun _ => ok _
  | movMemReg => exact type.bind fun _ => (addr _).bind fun _ => (reg _).bind fun _ => ok _
  | jmpNotEq => exact type.bind fun _ => (lit _ _).bind fun _ => (addr _).bind fun _ => ok _

theorem TruncatesSoundly.decode : TruncatesSoundly fetch (decodeWith fetch) := by
  refine (field 0 (by omega) (by omega)).bind fun v => ?_
  cases Opcode.ofByte (BitVec.ofNat 8 v) with
  | none => rintro off n ⟨⟩
  | some op => exact operands op

end

end Sys2Proof

namespace Sys2Proof.Machine

/-! ## The instruction a step runs -/

/-- Settles O5: of the two ways a running machine's step can go, the bytes decode. -/
theorem stepRunsDecodedInstruction : Obligations.StepRunsDecodedInstruction := by
  intro s i hrun hdecode
  simp [step, hrun, hdecode]

/-- An instruction that completed a step was decoded, by a machine that had not faulted. -/
theorem step_eq_next {s u : State} (h : step s = .next u) :
    s.status = .run ∧ ∃ i, decodeAt s = .ok i ∧ exec i s = .next u := by
  rcases step_cases s with ⟨f, -, e⟩ | ⟨hrun, i, hi, e⟩ | ⟨-, e', -, e⟩
  · cases e.symm.trans h
  · exact ⟨hrun, i, hi, e.symm.trans h⟩
  · cases e.symm.trans h

/-- Settles O49: the instruction that ran carries the size and the invariant along, and leaves the
status at RUN. -/
theorem stepKeepsInvariant : Obligations.StepKeepsInvariant := by
  intro s u hinv h
  obtain ⟨hrun, i, -, hexec⟩ := step_eq_next h
  obtain ⟨hsize, hstatus, -, hkeep⟩ := exec_carries hexec
  exact ⟨hkeep hinv, hsize, hstatus.trans hrun⟩

/-- The address of a field that does not lie beyond 2^32 is not reduced (R56). -/
theorem toNat_pc_add {s : State} {off : Nat} (h : s.pc.toNat + off < 2 ^ 32) :
    (s.pc + BitVec.ofNat 32 off).toNat = s.pc.toNat + off := by
  rw [BitVec.toNat_add, BitVec.toNat_ofNat, Nat.add_mod_mod, Nat.mod_eq_of_lt h]

/-- Where memory from `pc` up agrees with a list of bytes, so do the fields fetched from them. -/
theorem fetchFromMem_eq_fieldOfBytes {s : State} {bs : List Byte} {off n : Nat}
    (hz : s.memSize ≤ 2 ^ 32) (hn : 0 < n) (hmem : s.pc.toNat + off + n ≤ s.memSize)
    (hlen : off + n ≤ bs.length)
    (hbytes : ∀ k, (h : k < bs.length) → s.pc.toNat + k < s.memSize →
      s.byte (s.pc.toNat + k) = bs[k]) :
    fetchFromMem s off n = fieldOfBytes bs off n := by
  have haddr := toNat_pc_add (s := s) (off := off) (by omega)
  rw [fetchFromMem_some (by rw [haddr]; omega), fieldOfBytes, if_pos hlen, haddr]
  congr 2
  apply List.ext_getElem (by simp; omega)
  intro k hk _
  have hk : k < n := by simpa using hk
  rw [Memory.getElem_readBytes _ _ _ _ hk, List.getElem_take, List.getElem_drop, Nat.add_assoc]
  exact hbytes (off + k) (by omega) (by omega)

/-- Settles O6: memory at `pc` gives the decoder every field of the bytes it was decoded from. -/
theorem stepRunsTheBytesAtPc : Obligations.StepRunsTheBytesAtPc := by
  intro s i bs hrun hdecode ⟨hin, hbytes⟩ hz
  have hlen := length_le_of_decodeBytes hdecode
  refine stepRunsDecodedInstruction s i hrun (decodeWith_congr hdecode fun p hp => ?_)
  obtain ⟨hpos, hend⟩ := fieldsOf_within hp
  exact fetchFromMem_eq_fieldOfBytes hz hpos (by omega) (by omega) fun k hk _ => hbytes k hk

/-- Settles O16: every use of the state goes through the fetch, which sets the output anew. -/
theorem haltFlagIsNeverRead : Obligations.HaltFlagIsNeverRead := by
  intro s b
  have hexec : ∀ i, exec i { s with haltFlag := b } = exec i s := by
    intro i
    cases i <;> rfl
  have hdecode : decodeAt { s with haltFlag := b } = decodeAt s := rfl
  have hpc : State.pc { s with haltFlag := b } = s.pc := rfl
  simp only [step, hdecode, hexec, hpc]

/-- Settles O14: a step that is no `exec` faults, and `exec` refuses nothing. -/
theorem noStepIsRefused : Obligations.NoStepIsRefused := by
  intro s r h
  rcases step_cases s with ⟨f, -, e⟩ | ⟨-, i, -, e⟩ | ⟨-, e', -, e⟩
  · cases e.symm.trans h
  · exact exec_ne_refused i s r (e.symm.trans h)
  · cases e.symm.trans h

/-! ## The faults of the fetch -/

/-- Settles O9: the first field fetched is the opcode byte, at `pc`. -/
theorem opcodeFetchOutsideMemoryFaults : Obligations.OpcodeFetchOutsideMemoryFaults := by
  intro s hrun hpc
  have hbase : s.pc + BitVec.ofNat 32 0 = s.pc := BitVec.add_zero _
  have hnone : fetchFromMem s 0 1 = none := fetchFromMem_none (by rw [hbase]; omega)
  have hdecode : decodeAt s = .error (.truncated 0 1) :=
    bind_eq_error.mpr (.inl (fetchField_error hnone))
  rw [step_of_decode_error hrun hdecode, DecodeError.toFault, hbase]

/-- Settles O10: the decoder stops at the first field, in stream order, that does not lie in memory;
there is one, because the last field ends where the instruction does. -/
theorem straddlingInstructionFaults : Obligations.StraddlingInstructionFaults := by
  intro s i bs hrun hdecode hz hpc hend hbytes
  have hlen := length_le_of_decodeBytes hdecode
  obtain ⟨last, hlast, hlastEnd⟩ := exists_field_end i
  have hsome : (firstFieldOutside s i).isSome = true :=
    List.find?_isSome.mpr ⟨last, hlast, by simp only [decide_eq_true_eq]; omega⟩
  obtain ⟨⟨off, n⟩, hfirst⟩ := Option.isSome_iff_exists.mp hsome
  refine ⟨off, n, hfirst, fun hoff => ?_⟩
  have hfirst' := hfirst
  rw [firstFieldOutside] at hfirst'
  have hdec := decodeWith_first_missing (fetch' := fetchFromMem s) hdecode
    (missing := fun p => decide (s.memSize < s.pc.toNat + p.1 + p.2))
    (fun p hp hin => by
      obtain ⟨hpos, hpend⟩ := fieldsOf_within hp
      rw [decide_eq_false_iff_not] at hin
      exact fetchFromMem_eq_fieldOfBytes hz hpos (by omega) (by omega) hbytes)
    (fun p hp => by
      cases hp.symm.trans hfirst'
      have hout := List.find?_some hfirst'
      rw [decide_eq_true_eq] at hout
      exact fetchFromMem_none (by rw [toNat_pc_add hoff]; exact hout))
  rw [hfirst'] at hdec
  rw [step_of_decode_error hrun hdec, DecodeError.toFault, toNat_pc_add hoff]

/-- Settles O8: a typed opcode's decoding stops at its tag, the byte at `pc + 1`; no decoding of an
untyped one and no execution raises this fault. -/
theorem unassignedTypeTagFaults : Obligations.UnassignedTypeTagFaults := by
  intro s hrun hpc
  have hopcode : ∀ op : Opcode, op.byte = s.byte s.pc.toNat →
      decodeAt s = decodeOperands (fetchFromMem s) op := fun op hop =>
    decodeWith_opcode (fetchFromMem_opcode hpc) (hop ▸ Opcode.ofByte_byte op)
  constructor
  · intro htyped htagIn htag
    obtain ⟨op, hop, hbyte⟩ := List.mem_map.mp (show _ ∈ typedOpcodes.map Opcode.byte from htyped)
    have hnone : ScalarType.ofTag (s.byte (s.pc + 1).toNat) = none :=
      ScalarType.ofTag_eq_none.mpr htag
    have hdecode : decodeAt s = .error (.unknownTypeTag (s.byte (s.pc + 1).toNat)) :=
      (hopcode op hbyte).trans (decodeOperands_of_fetchType_error hop
        (fetchType_unknown (fetchFromMem_byte (off := 1) htagIn) hnone))
    have hstep := step_of_decode_error hrun hdecode
    exact ⟨hstep, transition_of_fault hstep⟩
  · intro huntyped b a p h
    obtain ⟨op, hop, hbyte⟩ :=
      List.mem_map.mp (show _ ∈ untypedOpcodes.map Opcode.byte from huntyped)
    rcases step_cases s with ⟨f, hfault, -⟩ | ⟨-, i, -, e⟩ | ⟨-, e', hdecode, e⟩
    · cases hrun.symm.trans hfault
    · exact (exec_fault (e.symm.trans h)).tag b a p rfl
    · rw [hopcode op hbyte] at hdecode
      cases e' with
      | unknownTypeTag c => exact decodeOperands_untyped_error c hop hdecode
      | unknownOpcode c => cases e.symm.trans h
      | truncated off n => cases e.symm.trans h

/-! ## What every fault says -/

/-- Settles O12: a fault of the fetch and a fault of `exec` both carry the `pc` they started
from. -/
theorem faultNamesItsInstruction : Obligations.FaultNamesItsInstruction := by
  intro s f hrun h
  rcases step_cases s with ⟨f', hfault, -⟩ | ⟨-, i, -, e⟩ | ⟨-, e', -, e⟩
  · cases hrun.symm.trans hfault
  · exact (exec_fault (e.symm.trans h)).pc0
  · cases e.symm.trans h
    cases e' <;> rfl

/-- Settles O13: a field fetch faults only for a field outside memory, `exec` only as `FaultOf`
says. -/
theorem outOfRangeOnlyOutsideMemory : Obligations.OutOfRangeOnlyOutsideMemory := by
  intro s a n acc p hrun h
  rcases step_cases s with ⟨f', hfault, -⟩ | ⟨-, i, -, e⟩ | ⟨-, e', hdecode, e⟩
  · cases hrun.symm.trans hfault
  · exact (exec_fault (e.symm.trans h)).range a n acc p rfl
  · cases e' with
    | unknownTypeTag c => cases e.symm.trans h
    | unknownOpcode c => cases e.symm.trans h
    | truncated off m =>
      cases e.symm.trans h
      obtain ⟨hnone, h1, h8⟩ := TruncatesSoundly.decode _ _ hdecode
      exact ⟨fetchFromMem_eq_none.mp hnone, h1, h8⟩

/-- Settles O11: the state after a fault differs in the status alone, and a faulted machine's step
is its fault. -/
theorem faultCommitsNothingAndLatches : Obligations.FaultCommitsNothingAndLatches := by
  intro s f h
  have hlatched : step (s.takeFault f) = .fault f := by simp [step]
  exact ⟨transition_of_fault h, transition_of_fault hlatched⟩

/-! ## The reported outcome and a run -/

theorem transition_of_next {s u : State} (h : step s = .next u) :
    transition s = (u, if u.haltFlag then .halt else .cont) := by
  simp [transition, h]

/-- Settles O15: a completed instruction leaves the halt output set exactly when it is HLT. -/
theorem stepOutputIsHaltExactlyForHlt : Obligations.StepOutputIsHaltExactlyForHlt := by
  intro s u i hrun hdecode h
  have hexec : exec i s = .next u := (stepRunsDecodedInstruction s i hrun hdecode).symm.trans h
  obtain ⟨-, -, hflag, -⟩ := exec_carries hexec
  rw [transition_of_next h]
  exact ⟨fun hi => by rw [if_pos (hflag.mpr hi)],
    fun hi => by rw [if_neg (fun hf => hi (hflag.mp hf))]⟩

/-- The two ways a run ends at a step from `e` (R119): normally, at a HLT, or at a fault. -/
def EndsAt (e t : State) (r : StepResult) : Prop :=
  (r = .halt ∧ e.status = .run ∧ decodeAt e = .ok .hlt ∧ step e = .next t) ∨
    (∃ f, r = .fault f ∧ step e = .fault f ∧ t = { e with status := .fault f })

/-- R119: those are the steps whose outcome is not Continue. -/
theorem transition_ends_iff {e t : State} {r : StepResult} :
    transition e = (t, r) ∧ r ≠ .cont ↔ EndsAt e t r := by
  constructor
  · rintro ⟨htr, hr⟩
    rcases transition_cases e with ⟨u, -, -, h⟩ | ⟨u, hstep, hflag, h⟩ | ⟨f, hstep, h⟩ <;>
      cases h.symm.trans htr
    · exact absurd rfl hr
    · obtain ⟨hrun, i, hdecode, hexec⟩ := step_eq_next hstep
      obtain ⟨-, -, hhalt, -⟩ := exec_carries hexec
      exact .inl ⟨rfl, hrun, hhalt.mp hflag ▸ hdecode, hstep⟩
    · exact .inr ⟨f, rfl, hstep, rfl⟩
  · rintro (⟨rfl, hrun, hdecode, hstep⟩ | ⟨f, rfl, hstep, rfl⟩)
    · exact ⟨(stepOutputIsHaltExactlyForHlt e t .hlt hrun hdecode hstep).1 rfl, by simp⟩
    · exact ⟨transition_of_fault hstep, by simp⟩

/-- Settles O17, by induction on the steps allowed: a run ends at this step, or continues and ends
in the run from the next state. -/
theorem runEndsAtFirstHaltOrFault : Obligations.RunEndsAtFirstHaltOrFault := by
  intro n s t r
  change _ ↔ ∃ k, k < n ∧ (∀ j, j < k → (transition (afterSteps j s)).2 = .cont) ∧
    EndsAt (afterSteps k s) t r
  induction n generalizing s with
  | zero => simp [runToEnd]
  | succ n ih =>
    rw [runToEnd_succ, ih, transition_ends_iff]
    constructor
    · rintro (⟨hcont, k, hk, hbefore, hend⟩ | hend)
      · refine ⟨k + 1, by omega, fun j hj => ?_, hend⟩
        cases j with
        | zero => exact hcont
        | succ j => exact hbefore j (by omega)
      · exact ⟨0, by omega, fun j hj => absurd hj (by omega), hend⟩
    · rintro ⟨k, hk, hbefore, hend⟩
      cases k with
      | zero => exact .inr hend
      | succ k =>
        exact .inl ⟨hbefore 0 (by omega), k, by omega,
          fun j hj => hbefore (j + 1) (by omega), hend⟩

end Sys2Proof.Machine
end

section
/-! PROOFS. HLT, the four moves and TAILCALL (R118, R130 to R134, R176): what each writes, and its
frame. -/

namespace Sys2Proof.Machine

/-! ## Frames of the writes that follow a fetch -/

theorem getReg_ip_afterFetch (s : State) (n : Nat) :
    (s.afterFetch n).getReg .ip = zextAddr (s.pc + BitVec.ofNat 32 n) := by
  simp

theorem keepsRegs_afterFetch (s : State) (n : Nat) : KeepsRegs [.ip] s (s.afterFetch n) := by
  intro r hr
  simp only [List.mem_singleton] at hr
  simp [hr]

theorem keepsRegs_setz_afterFetch (s : State) (n : Nat) (t : ScalarType) (d : Reg) (v : Word) :
    KeepsRegs [d, .ip] s ((s.afterFetch n).setz t d v) := by
  intro r hr
  simp only [List.mem_cons, List.not_mem_nil, or_false, not_or] at hr
  simp [hr.1, hr.2]

theorem getReg_ip_setz_afterFetch (s : State) (n : Nat) (t : ScalarType) {d : Reg} (v : Word)
    (hd : d ≠ .ip) :
    ((s.afterFetch n).setz t d v).getReg .ip = zextAddr (s.pc + BitVec.ofNat 32 n) := by
  simp [Ne.symm hd]

/-- A jump after the fetch. -/
theorem keepsRegs_setAddr_ip_afterFetch (s : State) (n : Nat) (a : Addr) :
    KeepsRegs [.ip] s ((s.afterFetch n).setAddr .ip a) := by
  intro r hr
  simp only [List.mem_singleton] at hr
  simp [hr]

/-! ## HLT and TAILCALL -/

/-- Settles O18: HLT's state is the state after its fetch with the output at Halt. -/
theorem hltOnlyAdvancesPc : Obligations.HltOnlyAdvancesPc := by
  intro s
  exact ⟨_, rfl, rfl, getReg_ip_afterFetch s 1, keepsRegs_afterFetch s 1, fun _ => rfl,
    ⟨rfl, rfl⟩, ⟨rfl, rfl⟩⟩

/-- Settles O40: the two cases of the remembered target. -/
theorem tailcallJumpsToRememberedTarget : Obligations.TailcallJumpsToRememberedTarget := by
  intro s
  constructor
  · intro a ha
    refine ⟨(s.afterFetch 1).setAddr .ip a, by simp [exec, execTailcall, ha], by simp,
      keepsRegs_setAddr_ip_afterFetch s 1 a, fun _ => rfl, ⟨rfl, rfl⟩, ⟨rfl, rfl⟩⟩
  · intro hnone
    simp [exec, execTailcall, hnone]

/-! ## Moves to a register -/

/-- Settles O19: a literal that fits is its own low bytes. -/
theorem movLitRegWritesZeroExtendedLiteral : Obligations.MovLitRegWritesZeroExtendedLiteral := by
  intro t lit d s hfits
  refine ⟨_, rfl, ?_, getReg_ip_setz_afterFetch s (3 + t.width) t lit,
    keepsRegs_setz_afterFetch s (3 + t.width) t d lit, fun _ => rfl, ⟨rfl, rfl⟩, ⟨rfl, rfl⟩⟩
  rw [State.getReg_setz, if_pos rfl, lowBytes_of_fits hfits]

/-- Settles O20: what the source selector reads after the fetch is `operandSlot`. -/
theorem movRegRegCopiesLowBytes : Obligations.MovRegRegCopiesLowBytes := by
  intro t src d s
  refine ⟨_, rfl, ?_, getReg_ip_setz_afterFetch s 4 t _, keepsRegs_setz_afterFetch s 4 t d _,
    fun _ => rfl, ⟨rfl, rfl⟩, ⟨rfl, rfl⟩⟩
  rw [State.getReg_setz, if_pos rfl, get_afterFetch, lowBytes_lowBytes, toNat_lowBytes]

/-- Settles O22: the word loaded is below `2^(8W)`, so zero-extending it changes nothing. -/
theorem movMemRegLoadsZeroExtended : Obligations.MovMemRegLoadsZeroExtended := by
  intro t a d s hin
  obtain ⟨hlt, hholds⟩ := memRead_value_holds s a.toNat (ScalarType.width_le t)
  refine ⟨(s.afterFetch 7).setz t d
      (BitVec.ofNat 64 (beValue (Memory.readBytes s.mem a.toNat t.width))),
    ?_, ?_, ?_, getReg_ip_setz_afterFetch s 7 t _, keepsRegs_setz_afterFetch s 7 t d _,
    fun _ => rfl, ⟨rfl, rfl⟩, ⟨rfl, rfl⟩⟩
  · simp only [exec, execMovMemReg, memRead_ok (s := s.afterFetch 7) hin, State.afterFetch_mem]
  · rwa [State.getReg_setz, if_pos rfl, lowBytes_of_lt hlt]
  · rwa [State.getReg_setz, if_pos rfl, lowBytes_of_lt hlt]

/-! ## Moves to memory, and out of it -/

/-- Settles O21: the bytes of the register's low bytes are the register's low bytes. -/
theorem movRegMemStoresBigEndian : Obligations.MovRegMemStoresBigEndian := by
  intro t src a s hwf hin
  have hbytes : beBytes t.width ((s.afterFetch 7).get t src).toNat =
      beBytes t.width (operandSlot s 7 src).toNat := by
    rw [get_afterFetch, beBytes_lowBytes]
  have hexec := finish_eq_next.mpr
    (memWrite_ok (pc0 := s.pc) (s := s.afterFetch 7) ((s.afterFetch 7).get t src) hin)
  rw [hbytes] at hexec
  exact ⟨_, hexec, holdsValue_of_writeBytes _ hwf rfl, keepsMemoryOutside_of_writeBytes rfl,
    getReg_ip_afterFetch s 7, keepsRegs_afterFetch s 7, ⟨rfl, rfl⟩, ⟨rfl, rfl⟩⟩

/-- Settles O23: the fetch leaves memory and its size alone, so the access faults as it would have
before. -/
theorem memoryMovesFaultOutsideMemory : Obligations.MemoryMovesFaultOutsideMemory := by
  intro t r a s hout
  have hread := memRead_error (pc0 := s.pc) (s := s.afterFetch 7) hout
  have hwrite := memWrite_error (pc0 := s.pc) (s := s.afterFetch 7) ((s.afterFetch 7).get t r) hout
  constructor
  · simp only [exec, execMovRegMem, hwrite, finish]
  · simp only [exec, execMovMemReg, hread]

end Sys2Proof.Machine
end

section
/-! PROOFS. ADD_REG_REG on integers and JMP_NOT_EQ (R142, R150 to R152). -/

namespace Sys2Proof.Machine

/-! ## Addition -/

/-- ADD_REG_REG's next state: `acc` takes the sum of the two operands as read after the fetch. -/
def afterAdd (t : ScalarType) (x y : Reg) (s : State) : State :=
  (s.afterFetch 4).setz t .acc
    (aluAdd t (lowBytes t.width (operandSlot s 4 x)) (lowBytes t.width (operandSlot s 4 y)))

theorem exec_addRegReg (t : ScalarType) (x y : Reg) (s : State) :
    exec (.addRegReg t x y) s = .next (afterAdd t x y s) := by
  simp only [exec, execAddRegReg, afterAdd, get_afterFetch]

theorem getReg_acc_afterAdd (t : ScalarType) (x y : Reg) (s : State) :
    (afterAdd t x y s).getReg .acc = lowBytes t.width
      (aluAdd t (lowBytes t.width (operandSlot s 4 x)) (lowBytes t.width (operandSlot s 4 y))) := by
  simp [afterAdd]

/-- R141: nothing but `acc` and `ip` is written. -/
theorem afterAdd_frame (t : ScalarType) (x y : Reg) (s : State) :
    (afterAdd t x y s).getReg .ip = zextAddr (s.pc + 4) ∧
      KeepsRegs [.acc, .ip] s (afterAdd t x y s) ∧ KeepsMemory s (afterAdd t x y s) ∧
      KeepsHidden s (afterAdd t x y s) ∧ KeepsControl s (afterAdd t x y s) :=
  ⟨getReg_ip_setz_afterFetch s 4 t _ (by decide), keepsRegs_setz_afterFetch s 4 t .acc _,
    fun _ => rfl, ⟨rfl, rfl⟩, ⟨rfl, rfl⟩⟩

theorem aluAdd_of_integer {t : ScalarType} (h : t.kind ≠ .floating) (a b : Word) :
    aluAdd t a b = addInt t a b := by
  cases t with
  | float | double => exact absurd rfl h
  | _ => rfl

/-- R142: the sum of two patterns of the width, modulo `2^(8W)`. -/
theorem toNat_addInt (t : ScalarType) (v w : Word) :
    (addInt t (lowBytes t.width v) (lowBytes t.width w)).toNat =
      (v.toNat % 2 ^ (8 * t.width) + w.toNat % 2 ^ (8 * t.width)) % 2 ^ (8 * t.width) := by
  have hdvd : 2 ^ (8 * t.width) ∣ 2 ^ 64 :=
    pow_dvd_pow 2 (by have := ScalarType.width_le t; omega)
  rw [addInt, toNat_lowBytes, BitVec.toNat_add, toNat_lowBytes, toNat_lowBytes,
    Nat.mod_mod_of_dvd _ hdvd]

/-- R8: the two's-complement value of a wrapped sum is the true sum wrapped into the signed
range. -/
theorem signedOf_add_mod {n a b : Nat} (hn : 0 < n) (ha : a < 2 ^ n) (hb : b < 2 ^ n) :
    signedOf n ((a + b) % 2 ^ n) =
      if (2 : Int) ^ (n - 1) ≤ signedOf n a + signedOf n b then signedOf n a + signedOf n b - 2 ^ n
      else if signedOf n a + signedOf n b < -(2 ^ (n - 1)) then signedOf n a + signedOf n b + 2 ^ n
      else signedOf n a + signedOf n b := by
  have hhalf : 2 ^ n = 2 * 2 ^ (n - 1) := by rw [← pow_succ', Nat.sub_add_cancel hn]
  have hcast : (2 : Int) ^ n = 2 * 2 ^ (n - 1) := by rw [← pow_succ', Nat.sub_add_cancel hn]
  have hpow : (2 : Int) ^ (n - 1) = ((2 ^ (n - 1) : Nat) : Int) := by push_cast; rfl
  have hwrap : (a + b) % 2 ^ n = if a + b < 2 ^ n then a + b else a + b - 2 ^ n := by
    split
    · exact Nat.mod_eq_of_lt (by assumption)
    · rw [Nat.mod_eq_sub_mod (by omega), Nat.mod_eq_of_lt (by omega)]
  rw [hwrap]
  simp only [signedOf, hcast, hpow, hhalf] at *
  generalize 2 ^ (n - 1) = half at *
  split_ifs <;> omega

/-- Settles O24: `acc` is the sum modulo `2^N`, and reading it as a signed number wraps the true
signed sum. -/
theorem integerAdditionWraps : Obligations.IntegerAdditionWraps := by
  intro t x y s hkind n a b
  have hacc : ((afterAdd t x y s).getReg .acc).toNat = (a + b) % 2 ^ n := by
    rw [getReg_acc_afterAdd, aluAdd_of_integer hkind, addInt, lowBytes_lowBytes, ← addInt,
      toNat_addInt]
  have hn : 0 < n := by have := ScalarType.width_pos t; omega
  refine ⟨_, exec_addRegReg t x y s, hacc, ?_, afterAdd_frame t x y s⟩
  rw [hacc]
  exact signedOf_add_mod hn (Nat.mod_lt _ (by positivity)) (Nat.mod_lt _ (by positivity))

/-! ## The conditional jump -/

/-- JMP_NOT_EQ's next state: the target when the patterns differ. -/
def afterJump (t : ScalarType) (lit : Word) (a : Addr) (s : State) : State :=
  if neq t lit (s.get t .acc) then (s.afterFetch (6 + t.width)).setAddr .ip a
  else s.afterFetch (6 + t.width)

theorem exec_jmpNotEq (t : ScalarType) (lit : Word) (a : Addr) (s : State) :
    exec (.jmpNotEq t lit a) s = .next (afterJump t lit a s) := by
  have hacc : (s.afterFetch (6 + t.width)).get t .acc = s.get t .acc := by simp [State.get]
  simp only [exec, execJmpNotEq, afterJump, hacc]

theorem getReg_ip_afterJump (t : ScalarType) (lit : Word) (a : Addr) (s : State) :
    (afterJump t lit a s).getReg .ip =
      if neq t lit (s.get t .acc) then zextAddr a
      else zextAddr (s.pc + BitVec.ofNat 32 (6 + t.width)) := by
  unfold afterJump
  split <;> simp

/-- R150: nothing but `ip` is written, whether the jump is taken or not. -/
theorem afterJump_frame (t : ScalarType) (lit : Word) (a : Addr) (s : State) :
    KeepsRegs [.ip] s (afterJump t lit a s) ∧ KeepsMemory s (afterJump t lit a s) ∧
      KeepsHidden s (afterJump t lit a s) ∧ KeepsControl s (afterJump t lit a s) := by
  unfold afterJump
  split
  · exact ⟨keepsRegs_setAddr_ip_afterFetch s _ a, fun _ => rfl, ⟨rfl, rfl⟩, ⟨rfl, rfl⟩⟩
  · exact ⟨keepsRegs_afterFetch s _, fun _ => rfl, ⟨rfl, rfl⟩, ⟨rfl, rfl⟩⟩

theorem neq_of_integer {t : ScalarType} (h : t.kind ≠ .floating) (p q : Word) :
    neq t p q = decide (p ≠ q) := by
  cases t with
  | float | double => exact absurd rfl h
  | _ => rfl

theorem neq_of_formatOf {t : ScalarType} {f : FloatFormat} (h : formatOf t = some f) (p q : Word) :
    neq t p q = f.neq p.toNat q.toNat := by
  cases t <;> cases h <;> rfl

/-- Settles O29: the patterns differ exactly when their numbers do. -/
theorem jmpNotEqComparesIntegerBits : Obligations.JmpNotEqComparesIntegerBits := by
  intro t lit a s hkind hfits
  refine ⟨_, exec_jmpNotEq t lit a s, ?_, afterJump_frame t lit a s⟩
  rw [getReg_ip_afterJump, neq_of_integer hkind, ← toNat_get s t .acc]
  by_cases h : lit = s.get t .acc
  · simp [← h]
  · simp [h, BitVec.toNat_inj]

/-- R152: a NaN differs from everything. -/
theorem FloatFormat.neq_nan {f : FloatFormat} {p q : Nat}
    (h : f.isNaN p = true ∨ f.isNaN q = true) : f.neq p q = true := by
  rw [FloatFormat.neq, if_pos (by simpa using h)]

/-- R152: `neq` of two zeros. A zero is no NaN, because an infinity's magnitude is above 0. -/
theorem FloatFormat.neq_zeros {f : FloatFormat} {p q : Nat} (h : f.mag p = 0 ∧ f.mag q = 0) :
    f.neq p q = false := by
  simp [FloatFormat.neq, FloatFormat.isNaN, h.1, h.2]

/-- Settles O30: the three cases of R152. -/
theorem jmpNotEqComparesFloatsByIeee : Obligations.JmpNotEqComparesFloatsByIeee := by
  intro t f lit a s hf hfits p q
  refine ⟨_, exec_jmpNotEq t lit a s, ?_⟩
  rw [getReg_ip_afterJump, neq_of_formatOf hf, toNat_get]
  refine ⟨fun hnan => ?_, fun hzero => ?_, fun hp hq hzero => ?_, afterJump_frame t lit a s⟩
  · rw [if_pos (FloatFormat.neq_nan hnan)]
  · rw [FloatFormat.neq_zeros hzero]
    rfl
  · change (if f.neq p q = true then _ else _) = _
    by_cases h : p = q <;> simp [FloatFormat.neq, hp, hq, hzero, h]

end Sys2Proof.Machine
end

section
/-! PROOFS. ADD_REG_REG on `float` and `double` (R143, R144): the IEEE-754 sum of two patterns, its
special cases, and its rounding to nearest, ties to even. -/

namespace Sys2Proof.Machine

/-! ## The sum of two patterns -/

section
variable {f : FloatFormat} {a b p : Nat}

theorem FloatFormat.isNaN_eq_false_iff : f.isNaN p = false ↔ f.mag p ≤ f.infMag := by
  simp [FloatFormat.isNaN]

theorem FloatFormat.not_isNaN_of_isInf (h : f.isInf p = true) : f.isNaN p = false :=
  FloatFormat.isNaN_eq_false_iff.mpr (of_decide_eq_true h).le

theorem FloatFormat.not_isNaN_of_isFinite (h : f.isFinite p) : f.isNaN p = false :=
  FloatFormat.isNaN_eq_false_iff.mpr (Nat.le_of_lt h)

theorem FloatFormat.not_isInf_of_isFinite (h : f.isFinite p) : f.isInf p = false :=
  decide_eq_false (Nat.ne_of_lt h)

/-- R143, R144: the additions whose result is a NaN. -/
theorem FloatFormat.sum_eq_none_iff :
    f.sum a b = none ↔ f.isNaN a = true ∨ f.isNaN b = true ∨
      (f.isInf a = true ∧ f.isInf b = true ∧ f.sign a ≠ f.sign b) := by
  unfold FloatFormat.sum
  cases f.isNaN a <;> cases f.isNaN b <;> cases f.isInf a <;> cases f.isInf b <;> simp

theorem FloatFormat.sum_of_inf_left (ha : f.isInf a = true) (hb : f.isFinite b ∨ b = a) :
    f.sum a b = some a := by
  have hna := FloatFormat.not_isNaN_of_isInf ha
  rcases hb with hb | rfl
  · simp [FloatFormat.sum, ha, hna, FloatFormat.not_isNaN_of_isFinite hb,
      FloatFormat.not_isInf_of_isFinite hb]
  · simp [FloatFormat.sum, ha, hna]

theorem FloatFormat.sum_of_inf_right (hb : f.isInf b = true) (ha : f.isFinite a ∨ a = b) :
    f.sum a b = some b := by
  have hnb := FloatFormat.not_isNaN_of_isInf hb
  rcases ha with ha | rfl
  · simp [FloatFormat.sum, hb, hnb, FloatFormat.not_isNaN_of_isFinite ha,
      FloatFormat.not_isInf_of_isFinite ha]
  · simp [FloatFormat.sum, hb, hnb]

theorem FloatFormat.sum_of_isFinite (ha : f.isFinite a) (hb : f.isFinite b) :
    f.sum a b = some (f.sumFinite a b) := by
  simp [FloatFormat.sum, FloatFormat.not_isNaN_of_isFinite ha, FloatFormat.not_isNaN_of_isFinite hb,
    FloatFormat.not_isInf_of_isFinite ha, FloatFormat.not_isInf_of_isFinite hb]

/-- A finite sum is a sign and a magnitude that is no NaN's. -/
theorem FloatFormat.sumFinite_eq_pack (he : 2 ≤ f.expBits) (a b : Nat) :
    ∃ neg m, f.sumFinite a b = f.pack neg m ∧ m ≤ f.infMag := by
  simp only [FloatFormat.sumFinite]
  split
  · exact ⟨_, _, rfl, Nat.zero_le _⟩
  · exact ⟨_, _, rfl, f.roundMag_le he _⟩

/-- A sum that is not left to `nan_add` is an operand or a finite sum: a pattern, and no NaN. -/
theorem FloatFormat.sum_eq_some (he : 2 ≤ f.expBits) (ha : a < 2 * f.signWeight)
    (hb : b < 2 * f.signWeight) (h : f.sum a b = some p) :
    p < 2 * f.signWeight ∧ f.isNaN p = false := by
  have hnan : ¬ (f.sum a b = none) := by simp [h]
  rw [FloatFormat.sum_eq_none_iff] at hnan
  push Not at hnan
  obtain ⟨hna, hnb, -⟩ := hnan
  unfold FloatFormat.sum at h
  split_ifs at h <;> cases h
  · exact ⟨ha, by simpa using hna⟩
  · exact ⟨hb, by simpa using hnb⟩
  · obtain ⟨neg, m, e, hm⟩ := FloatFormat.sumFinite_eq_pack he a b
    have hlt := Nat.lt_of_le_of_lt hm f.infMag_lt
    rw [e, FloatFormat.isNaN_eq_false_iff, f.mag_pack neg hlt]
    exact ⟨f.pack_lt neg hlt, hm⟩

/-- R8: a quiet or signalling NaN of the format, from its parts. -/
theorem FloatFormat.isNaN_nan (neg : Bool) {payload : Nat} (h : payload < 2 ^ f.fracBits - 1) :
    f.nan neg payload < 2 * f.signWeight ∧ f.isNaN (f.nan neg payload) = true := by
  have hinf := f.infMag_add
  have hlt : f.infMag + payload + 1 < f.signWeight := by omega
  refine ⟨f.pack_lt neg hlt, ?_⟩
  rw [FloatFormat.isNaN, decide_eq_true_eq, FloatFormat.nan, f.mag_pack neg hlt]
  omega

end

/-! ## The addition of two registers -/

/-- R8: the interchange formats of the two floating types, and their width. -/
theorem formatOf_bounds {t : ScalarType} {f : FloatFormat} (h : formatOf t = some f) :
    2 ≤ f.expBits ∧ 1 ≤ f.fracBits ∧ 2 * f.signWeight = 2 ^ (8 * t.width) ∧
      f.signWeight = 2 ^ (8 * t.width - 1) := by
  cases t <;> cases h <;> decide

section
variable {t : ScalarType} {f : FloatFormat} {a b : Word}

/-- R143: where IEEE-754 gives a sum, it is the addition's result. -/
theorem toNat_aluAdd_of_sum_eq_some {p : Nat} (hf : formatOf t = some f)
    (hp : p < 2 ^ (8 * t.width)) (h : f.sum a.toNat b.toNat = some p) :
    (lowBytes t.width (aluAdd t a b)).toNat = p := by
  have hadd : aluAdd t a b = BitVec.ofNat 64 p := by
    cases t <;> cases hf
    · simp only [aluAdd, addFloat, h]
    · simp only [aluAdd, addDouble, h]
  have h64 : p < 2 ^ 64 := Nat.lt_of_lt_of_le hp (pow_8_mul_le (ScalarType.width_le t))
  rw [toNat_lowBytes, hadd, BitVec.toNat_ofNat, Nat.mod_eq_of_lt h64, Nat.mod_eq_of_lt hp]

/-- R144: where it gives none, the result is a NaN. -/
theorem isNaN_aluAdd_of_sum_eq_none (hf : formatOf t = some f)
    (h : f.sum a.toNat b.toNat = none) :
    f.isNaN (lowBytes t.width (aluAdd t a b)).toNat = true := by
  have hnan : ∃ neg payload, payload < 2 ^ f.fracBits - 1 ∧
      aluAdd t a b = BitVec.ofNat 64 (f.nan neg payload) := by
    cases t <;> cases hf
    · exact ⟨_, _, (Config.nanAdd32 (a.setWidth 32) (b.setWidth 32)).2.isLt, by
        simp only [aluAdd, addFloat, h]; rfl⟩
    · exact ⟨_, _, (Config.nanAdd64 a b).2.isLt, by simp only [aluAdd, addDouble, h]; rfl⟩
  obtain ⟨neg, payload, hpayload, hadd⟩ := hnan
  obtain ⟨hlt, hisNaN⟩ := FloatFormat.isNaN_nan neg hpayload
  rw [(formatOf_bounds hf).2.2.1] at hlt
  have h64 := Nat.lt_of_lt_of_le hlt (pow_8_mul_le (ScalarType.width_le t))
  rwa [toNat_lowBytes, hadd, BitVec.toNat_ofNat, Nat.mod_eq_of_lt h64, Nat.mod_eq_of_lt hlt]

end

section
variable {t : ScalarType} {f : FloatFormat} {x y : Reg} {s : State}

/-- ADD_REG_REG on patterns whose sum is not left to `nan_add`. -/
theorem toNat_acc_afterAdd {p : Nat} (hf : formatOf t = some f)
    (h : f.sum ((operandSlot s 4 x).toNat % 2 ^ (8 * t.width))
      ((operandSlot s 4 y).toNat % 2 ^ (8 * t.width)) = some p) :
    ((afterAdd t x y s).getReg .acc).toNat = p ∧ f.isNaN p = false := by
  obtain ⟨he, -, hw, -⟩ := formatOf_bounds hf
  have hmod : ∀ n, n % 2 ^ (8 * t.width) < 2 * f.signWeight := fun n => by
    rw [hw]
    exact Nat.mod_lt n (by positivity)
  obtain ⟨hlt, hnan⟩ := FloatFormat.sum_eq_some he (hmod _) (hmod _) h
  rw [getReg_acc_afterAdd]
  rw [← toNat_lowBytes, ← toNat_lowBytes] at h
  exact ⟨toNat_aluAdd_of_sum_eq_some hf (hw ▸ hlt) h, hnan⟩

/-- ADD_REG_REG on patterns whose sum is left to `nan_add`. -/
theorem isNaN_acc_afterAdd (hf : formatOf t = some f)
    (h : f.sum ((operandSlot s 4 x).toNat % 2 ^ (8 * t.width))
      ((operandSlot s 4 y).toNat % 2 ^ (8 * t.width)) = none) :
    f.isNaN ((afterAdd t x y s).getReg .acc).toNat = true := by
  rw [getReg_acc_afterAdd]
  rw [← toNat_lowBytes, ← toNat_lowBytes] at h
  exact isNaN_aluAdd_of_sum_eq_none hf h

/-- Settles O25: by whether IEEE-754 gives the sum or leaves it to `nan_add`. -/
theorem floatAdditionCompletesAndNaNCases : Obligations.FloatAdditionCompletesAndNaNCases := by
  intro t f x y s hf a b
  refine ⟨_, exec_addRegReg t x y s, ?_, ?_, afterAdd_frame t x y s⟩
  · rw [getReg_acc_afterAdd]
    exact toNat_lowBytes_lt _ _
  · rw [← FloatFormat.sum_eq_none_iff]
    cases hsum : f.sum a b with
    | none => simp [isNaN_acc_afterAdd hf hsum]
    | some p =>
      obtain ⟨hacc, hnan⟩ := toNat_acc_afterAdd hf hsum
      simp [hacc, hnan]

/-- Settles O26: the sum is the infinite operand. -/
theorem floatAdditionOfInfinities : Obligations.FloatAdditionOfInfinities := by
  intro t f x y s hf a b
  exact ⟨_, exec_addRegReg t x y s,
    fun ha hb => (toNat_acc_afterAdd hf (FloatFormat.sum_of_inf_left ha hb)).1,
    fun hb ha => (toNat_acc_afterAdd hf (FloatFormat.sum_of_inf_right hb ha)).1⟩

/-- Settles O28: an exact zero is packed with the sign both operands have. -/
theorem floatAdditionZeroSign : Obligations.FloatAdditionZeroSign := by
  intro t f x y s hf a b ha hb hzero
  refine ⟨_, exec_addRegReg t x y s, ?_⟩
  rw [(toNat_acc_afterAdd hf (FloatFormat.sum_of_isFinite ha hb)).1, FloatFormat.sumFinite,
    if_pos hzero, FloatFormat.pack, Nat.add_zero, ← (formatOf_bounds hf).2.2.2]
  simp only [Bool.and_eq_true]
  rfl

end

/-! ## Rounding -/

section
variable {f : FloatFormat} {n : Nat}

/-- What rounding `n` units to the nearest datum, ties to even, comes to when the result is the
finite magnitude pattern `m`. -/
structure RoundsTo (f : FloatFormat) (n m : Nat) : Prop where
  finite : m < f.infMag
  nearest : ∀ p, ((f.units m : Int) - n).natAbs ≤ ((f.units p : Int) - n).natAbs
  tie : ∀ p, f.units p ≠ f.units m →
    ((f.units p : Int) - n).natAbs = ((f.units m : Int) - n).natAbs → m % 2 = 0

/-- The exponent of the greatest binade, as a shift of its significand. -/
def FloatFormat.topShift (f : FloatFormat) : Nat := 2 ^ f.expBits - 3

/-- Twice the magnitude from which a sum rounds to an infinity: the significand beyond the greatest,
less half a unit in the last place. -/
theorem FloatFormat.two_mul_overflow (he : 2 ≤ f.expBits) :
    2 * (f.maxUnits + f.halfTopUlp) + 2 ^ f.topShift =
      2 * (2 ^ (f.fracBits + 1) * 2 ^ f.topShift) := by
  have hexp : 2 ^ 2 ≤ 2 ^ f.expBits := Nat.pow_le_pow_right (by omega) he
  have hhalf : 2 * f.halfTopUlp = 2 ^ f.topShift := by
    rw [FloatFormat.halfTopUlp, FloatFormat.topShift, ← pow_succ']
    congr 1
    omega
  have hle : 2 ^ f.topShift ≤ 2 ^ (f.fracBits + 1) * 2 ^ f.topShift :=
    Nat.le_mul_of_pos_left _ (by positivity)
  rw [FloatFormat.maxUnits, ← FloatFormat.topShift, Nat.sub_mul, Nat.one_mul]
  omega

/-- The magnitude pattern of an infinity, counted in the patterns of the greatest binade. -/
theorem FloatFormat.infMag_eq (he : 2 ≤ f.expBits) :
    f.infMag = f.topShift * 2 ^ f.fracBits + 2 ^ (f.fracBits + 1) := by
  have hexp : 2 ^ 2 ≤ 2 ^ f.expBits := Nat.pow_le_pow_right (by omega) he
  rw [FloatFormat.infMag, pow_succ', ← Nat.add_mul, FloatFormat.topShift]
  congr 1
  omega

/-- A magnitude beyond the first binade lies in the binade of its own exponent. -/
theorem FloatFormat.binade (h : 2 ^ (f.fracBits + 1) ≤ n) :
    2 ^ f.fracBits * 2 ^ (n.log2 - f.fracBits) ≤ n ∧
      n < 2 ^ (f.fracBits + 1) * 2 ^ (n.log2 - f.fracBits) := by
  have hpos : 0 < 2 ^ (f.fracBits + 1) := by positivity
  have hn : n ≠ 0 := by omega
  have hlog : f.fracBits + 1 ≤ n.log2 := (Nat.le_log2 hn).mpr h
  rw [← pow_add, ← pow_add, show f.fracBits + (n.log2 - f.fracBits) = n.log2 by omega,
    show f.fracBits + 1 + (n.log2 - f.fracBits) = n.log2 + 1 by omega]
  exact ⟨Nat.log2_self_le hn, Nat.lt_log2_self⟩

/-- The significand of a magnitude of the binade with exponent `k`, rounded, the carry included. -/
theorem roundShift_binade {k F : Nat} (hlo : 2 ^ F * 2 ^ k ≤ n) (hhi : n < 2 ^ (F + 1) * 2 ^ k) :
    2 ^ F ≤ roundShift n k ∧ roundShift n k ≤ 2 ^ (F + 1) := by
  have hq1 : 2 ^ F ≤ n / 2 ^ k := (Nat.le_div_iff_mul_le (by positivity)).mpr hlo
  have hq2 : n / 2 ^ k < 2 ^ (F + 1) := (Nat.div_lt_iff_lt_mul (by positivity)).mpr hhi
  rcases (roundShift_spec n k).1 with h | h <;> omega

/-- The pattern that `roundMag` gives beyond the first binade: the rounded significand in its
binade, cut at the infinity. -/
theorem FloatFormat.roundMag_eq_min (h : 2 ^ (f.fracBits + 1) ≤ n) :
    f.roundMag n = min f.infMag ((n.log2 - f.fracBits) * 2 ^ f.fracBits
      + roundShift n (n.log2 - f.fracBits)) := by
  simp only [FloatFormat.roundMag]
  rw [if_neg (by omega)]

/-- A rounded significand that stays below the infinity is the nearest datum, and even at a tie: a
datum of a lower binade is farther, any other is a multiple of the spacing. -/
theorem FloatFormat.roundsTo_binade {k : Nat} (hF : 1 ≤ f.fracBits)
    (hlo : 2 ^ f.fracBits * 2 ^ k ≤ n) (hhi : n < 2 ^ (f.fracBits + 1) * 2 ^ k)
    (hfin : k * 2 ^ f.fracBits + roundShift n k < f.infMag) :
    RoundsTo f n (k * 2 ^ f.fracBits + roundShift n k) := by
  obtain ⟨hlow, hhigh⟩ := roundShift_binade hlo hhi
  have hunits : f.units (k * 2 ^ f.fracBits + roundShift n k) = roundShift n k * 2 ^ k :=
    f.units_scaled (hfin.trans f.infMag_lt) hlow hhigh
  have hnear := roundShift_nearest n k
  have hbelow := hnear (2 ^ f.fracBits)
  refine ⟨hfin, fun p => ?_, fun p hne heq => ?_⟩ <;> rw [hunits] at *
  · rcases f.units_lt_or_dvd p k with hlt | ⟨j, hj⟩
    · rw [pow_add] at hlt
      omega
    · rw [hj, Nat.mul_comm _ j]
      exact hnear j
  · rcases f.units_lt_or_dvd p k with hlt | ⟨j, hj⟩
    · rw [pow_add] at hlt
      omega
    · obtain ⟨-, h1, h2, heven⟩ := roundShift_spec n k
      rw [hj, Nat.mul_comm _ j] at hne heq
      have hjne : j ≠ roundShift n k := fun e => hne (by rw [e])
      have hstep : j * 2 ^ k + 2 ^ k ≤ roundShift n k * 2 ^ k ∨
          roundShift n k * 2 ^ k + 2 ^ k ≤ j * 2 ^ k := by
        rw [← Nat.succ_mul, ← Nat.succ_mul]
        rcases Nat.lt_or_gt_of_ne hjne with h | h
        · exact .inl (Nat.mul_le_mul_right _ h)
        · exact .inr (Nat.mul_le_mul_right _ h)
      have hR : roundShift n k % 2 = 0 := heven (by omega)
      have hbase : k * 2 ^ f.fracBits % 2 = 0 := by
        rw [← Nat.sub_add_cancel hF, pow_succ, ← Nat.mul_assoc]
        exact Nat.mul_mod_left _ _
      omega

/-- A rounded significand reaches the infinity exactly from half a unit in the last place beyond the
greatest finite magnitude up: at that tie the significand below is odd. -/
theorem FloatFormat.binade_lt_infMag_iff {k : Nat} (he : 2 ≤ f.expBits)
    (hlo : 2 ^ f.fracBits * 2 ^ k ≤ n) (hhi : n < 2 ^ (f.fracBits + 1) * 2 ^ k) :
    k * 2 ^ f.fracBits + roundShift n k < f.infMag ↔ n < f.maxUnits + f.halfTopUlp := by
  obtain ⟨hlow, hhigh⟩ := roundShift_binade hlo hhi
  have hover := FloatFormat.two_mul_overflow he
  have hA : 2 ^ (f.fracBits + 1) = 2 * 2 ^ f.fracBits := pow_succ' ..
  have hpos : 0 < 2 ^ f.fracBits := by positivity
  have hP : 0 < 2 ^ f.topShift := by positivity
  rw [FloatFormat.infMag_eq he]
  rcases Nat.lt_trichotomy k f.topShift with hlt | rfl | hgt
  · have hbin : (k + 1) * 2 ^ f.fracBits ≤ f.topShift * 2 ^ f.fracBits := Nat.mul_le_mul_right _ hlt
    have hk : 2 ^ (k + 1) ≤ 2 ^ f.topShift := Nat.pow_le_pow_right (by omega) hlt
    have hn := Nat.mul_le_mul_left (2 ^ (f.fracBits + 1)) hk
    have hone := Nat.mul_le_mul_right (2 ^ f.topShift) (show 1 ≤ 2 ^ (f.fracBits + 1) by omega)
    rw [pow_succ' 2 k, Nat.mul_left_comm] at hn
    rw [Nat.succ_mul] at hbin
    omega
  · obtain ⟨-, h1, h2, heven⟩ := roundShift_spec n f.topShift
    rcases Nat.lt_or_ge (roundShift n f.topShift) (2 ^ (f.fracBits + 1)) with hlt | hge
    · have hstep := Nat.mul_le_mul_right (2 ^ f.topShift) hlt
      rw [Nat.succ_mul] at hstep
      refine iff_of_true (by omega) (Nat.lt_of_le_of_ne (by omega) fun heq => ?_)
      have htie : (roundShift n f.topShift + 1) * 2 ^ f.topShift =
          2 ^ (f.fracBits + 1) * 2 ^ f.topShift := by
        rw [Nat.succ_mul]
        omega
      have hodd := Nat.eq_of_mul_eq_mul_right hP htie
      have := heven (by omega)
      omega
    · have heq : roundShift n f.topShift = 2 ^ (f.fracBits + 1) := by omega
      rw [heq] at h1
      omega
  · have hbin : (f.topShift + 1) * 2 ^ f.fracBits ≤ k * 2 ^ f.fracBits := Nat.mul_le_mul_right _ hgt
    have hk : 2 ^ (f.topShift + 1) ≤ 2 ^ k := Nat.pow_le_pow_right (by omega) hgt
    have hn := Nat.mul_le_mul_left (2 ^ f.fracBits) hk
    rw [pow_succ' 2 f.topShift, Nat.mul_left_comm, ← Nat.mul_assoc, ← hA] at hn
    rw [Nat.succ_mul] at hbin
    omega

/-- Below the second binade every magnitude is a datum, and none is near the overflow. -/
theorem FloatFormat.small_lt (he : 2 ≤ f.expBits) (h : n < 2 ^ (f.fracBits + 1)) :
    n < f.infMag ∧ n < f.maxUnits + f.halfTopUlp := by
  have hexp : 2 ^ 2 ≤ 2 ^ f.expBits := Nat.pow_le_pow_right (by omega) he
  have hP : 2 ^ 1 ≤ 2 ^ f.topShift :=
    Nat.pow_le_pow_right (by omega) (by rw [FloatFormat.topShift]; omega)
  have hA := Nat.mul_le_mul_left (2 ^ (f.fracBits + 1)) hP
  have hone := Nat.mul_le_mul_right (2 ^ f.topShift) (show 1 ≤ 2 ^ (f.fracBits + 1) by omega)
  have hover := FloatFormat.two_mul_overflow he
  exact ⟨by rw [FloatFormat.infMag_eq he]; omega, by omega⟩

/-- R143, log entry 19: `roundMag` is roundTiesToEven, with the infinity from half a unit in the
last place beyond the greatest finite magnitude up. -/
theorem FloatFormat.roundMag_spec (he : 2 ≤ f.expBits) (hF : 1 ≤ f.fracBits) (n : Nat) :
    (f.maxUnits + f.halfTopUlp ≤ n → f.roundMag n = f.infMag) ∧
      (n < f.maxUnits + f.halfTopUlp → RoundsTo f n (f.roundMag n)) := by
  rcases Nat.lt_or_ge n (2 ^ (f.fracBits + 1)) with hsmall | hbig
  · obtain ⟨hinf, hover⟩ := FloatFormat.small_lt he hsmall
    have hround : f.roundMag n = n := if_pos hsmall
    have hunits : f.units n = n := f.units_small (hinf.trans f.infMag_lt) hsmall
    refine ⟨fun h => by omega, fun _ => ?_⟩
    rw [hround]
    exact ⟨hinf, fun p => by rw [hunits]; omega, fun p hne heq => by rw [hunits] at *; omega⟩
  · obtain ⟨hlo, hhi⟩ := FloatFormat.binade hbig
    have hiff := FloatFormat.binade_lt_infMag_iff he hlo hhi
    rw [FloatFormat.roundMag_eq_min hbig]
    constructor
    · intro h
      exact Nat.min_eq_left (Nat.le_of_not_lt fun hc => absurd (hiff.mp hc) (by omega))
    · intro h
      rw [Nat.min_eq_right (hiff.mpr h).le]
      exact FloatFormat.roundsTo_binade hF hlo hhi (hiff.mpr h)

/-- A rounded magnitude with the sum's sign is nearest the sum, and even at a tie: a datum of the
other sign is farther still. -/
theorem RoundsTo.signed {z : Int} {m : Nat} (h : RoundsTo f z.natAbs m) (hz : z ≠ 0) (p : Nat) :
    let r := f.pack (decide (z < 0)) m
    (f.value r - z).natAbs ≤ (f.value p - z).natAbs ∧
      (f.value p ≠ f.value r → (f.value p - z).natAbs = (f.value r - z).natAbs →
        f.mag r % 2 = 0) := by
  intro r
  have hm : m < f.signWeight := h.finite.trans f.infMag_lt
  have hvalue : f.value r = if z < 0 then -(f.units m : Int) else f.units m := by
    rw [FloatFormat.value, f.sign_pack _ hm, f.units_eq, f.mag_pack _ hm]
    simp
  have hp : f.value p = f.units p ∨ f.value p = -(f.units p : Int) := by
    rw [FloatFormat.value]
    split
    · exact .inr rfl
    · exact .inl rfl
  have hnear := h.nearest p
  have htie := h.tie p
  rw [f.mag_pack _ hm, hvalue]
  split <;> refine ⟨by omega, fun hne heq => ?_⟩
  all_goals
    by_cases hu : f.units p = f.units m
    · omega
    · exact htie hu (by omega)

/-- Settles O27: a zero sum is exact; any other is its sign and its rounded magnitude. -/
theorem floatAdditionRoundsToNearestEven : Obligations.FloatAdditionRoundsToNearestEven := by
  intro t f x y s hf a b z ha hb
  obtain ⟨he, hF, -, -⟩ := formatOf_bounds hf
  refine ⟨_, exec_addRegReg t x y s, ?_⟩
  rw [(toNat_acc_afterAdd hf (FloatFormat.sum_of_isFinite ha hb)).1]
  by_cases hz : z = 0
  · have hsum : f.sumFinite a b = f.pack (f.sign a && f.sign b) 0 := if_pos hz
    have hinf : 0 < f.infMag ∧ 0 < f.maxUnits + f.halfTopUlp :=
      FloatFormat.small_lt he (by positivity)
    have hmag : f.mag (f.sumFinite a b) = 0 := by rw [hsum, f.mag_pack _ f.signWeight_pos]
    have hvalue : f.value (f.sumFinite a b) = 0 := by
      rw [FloatFormat.value, f.units_eq, hmag, f.units_small f.signWeight_pos (by positivity)]
      simp
    refine ⟨fun h => absurd hz h, fun h => by omega, fun _ => ⟨?_, fun p _ => ⟨?_, fun _ _ => ?_⟩⟩⟩
    · rw [FloatFormat.isFinite, hmag]
      exact hinf.1
    · change (f.value (f.sumFinite a b) - z).natAbs ≤ (f.value p - z).natAbs
      simp [hvalue, hz]
    · rw [hmag]
  · have hsum : f.sumFinite a b = f.pack (decide (z < 0)) (f.roundMag z.natAbs) := if_neg hz
    have hlt := f.roundMag_lt he z.natAbs
    obtain ⟨hoverflow, hround⟩ := FloatFormat.roundMag_spec he hF z.natAbs
    rw [hsum]
    refine ⟨fun _ => f.sign_pack _ hlt, fun h => ?_,
      fun h => ⟨?_, fun p _ => (hround h).signed hz p⟩⟩
    · rw [FloatFormat.isInf, decide_eq_true_eq, f.mag_pack _ hlt, hoverflow h]
    · rw [FloatFormat.isFinite, f.mag_pack _ hlt]
      exact (hround h).finite

end

end Sys2Proof.Machine
end

section
/-! PROOFS. The stack instructions (R160 to R167): what a push and a pop write, their faults, and
pushes popped in reverse order. -/

namespace Sys2Proof.Machine

/-! ## One push -/

/-- The registers and the counter after an instruction of `n` bytes that pushed a value. -/
theorem pushed_afterFetch_frame (s : State) (n : Nat) (t : ScalarType) (v : Word) :
    (pushed t v (s.afterFetch n)).getReg .sp = zextAddr (s.sp - BitVec.ofNat 32 t.width) ∧
      (pushed t v (s.afterFetch n)).getReg .ip = zextAddr (s.pc + BitVec.ofNat 32 n) ∧
      (pushed t v (s.afterFetch n)).fsz = s.fsz + BitVec.ofNat 64 t.width ∧
      (pushed t v (s.afterFetch n)).ctgt = s.ctgt ∧
      KeepsRegs [.sp, .ip] s (pushed t v (s.afterFetch n)) ∧
      KeepsControl s (pushed t v (s.afterFetch n)) := by
  refine ⟨by simp, by simp, rfl, rfl, fun r hr => ?_, rfl, rfl⟩
  simp only [List.mem_cons, List.not_mem_nil, or_false, not_or] at hr
  simp [hr.1, hr.2]

theorem mem_pushed_afterFetch (s : State) (n : Nat) (t : ScalarType) (v : Word) :
    (pushed t v (s.afterFetch n)).mem =
      Memory.writeBytes s.mem s.sp.toNat (beBytes t.width v.toNat) := by
  simp

/-- Settles O31: the push of the literal at the old `sp`, after the fetch. -/
theorem pshLitStoresAtSpThenLowersIt : Obligations.PshLitStoresAtSpThenLowersIt := by
  intro t lit s hwf hin
  have hpush := push_ok (pc0 := s.pc) (t := t) (v := lit) (s := s.afterFetch (2 + t.width))
    (by simpa using hin)
  have hmem := mem_pushed_afterFetch s (2 + t.width) t lit
  exact ⟨_, finish_eq_next.mpr hpush, holdsValue_of_writeBytes lit hwf hmem,
    keepsMemoryOutside_of_writeBytes hmem, pushed_afterFetch_frame s (2 + t.width) t lit⟩

/-- Settles O32: the register is read after the fetch and before the push. -/
theorem pshRegStoresOldRegisterValue : Obligations.PshRegStoresOldRegisterValue := by
  intro t r s hwf hin
  have hpush := push_ok (pc0 := s.pc) (t := t) (v := (s.afterFetch 3).get t r)
    (s := s.afterFetch 3) (by simpa using hin)
  have hmem := mem_pushed_afterFetch s 3 t ((s.afterFetch 3).get t r)
  have hbytes := hmem
  rw [get_afterFetch, beBytes_lowBytes] at hbytes
  exact ⟨_, finish_eq_next.mpr hpush, holdsValue_of_writeBytes _ hwf (by rwa [get_afterFetch]),
    keepsMemoryOutside_of_writeBytes hmem, pushed_afterFetch_frame s 3 t _⟩

/-! ## One pop -/

theorem popValue_afterFetch (s : State) (n : Nat) (t : ScalarType) :
    popValue t (s.afterFetch n) = popValue t s := by
  simp [popValue]

/-- POP's next state: the pop, then the low bytes of the destination. -/
def afterPop (t : ScalarType) (d : Reg) (s : State) : State :=
  (popped t (s.afterFetch 3)).setnz t d (popValue t s)

theorem exec_pop {t : ScalarType} {s : State} (d : Reg)
    (h : s.sp.toNat + 2 * t.width ≤ s.memSize) : exec (.pop t d) s = .next (afterPop t d s) := by
  have hpop := pop_ok (pc0 := s.pc) (t := t) (s := s.afterFetch 3)
    (by rw [sp_afterFetch, State.afterFetch_memSize]; omega)
  simp only [exec, execPop, hpop, afterPop, popValue_afterFetch]

/-- The slot that POP's register write finds. -/
theorem getReg_popped_afterFetch (t : ScalarType) (s : State) (n : Nat) (d : Reg) :
    (popped t (s.afterFetch n)).getReg d =
      if d = .sp then zextAddr (s.sp + BitVec.ofNat 32 t.width) else operandSlot s n d := by
  simp only [getReg_popped, sp_afterFetch, State.getReg_afterFetch, operandSlot]

theorem getReg_afterPop (t : ScalarType) (d : Reg) (s : State) :
    (afterPop t d s).getReg d =
      insertBytes ((popped t (s.afterFetch 3)).getReg d) 0 t.width (popValue t s) := by
  rw [afterPop, State.getReg_setnz, if_pos rfl]

theorem getReg_afterPop_ne (t : ScalarType) {d q : Reg} (s : State) (h : q ≠ d) :
    (afterPop t d s).getReg q =
      if q = .sp then zextAddr (s.sp + BitVec.ofNat 32 t.width) else operandSlot s 3 q := by
  rw [afterPop, State.getReg_setnz, if_neg h, getReg_popped_afterFetch]

theorem toNat_popValue (t : ScalarType) (s : State) :
    (popValue t s).toNat =
      beValue (Memory.readBytes s.mem (s.sp.toNat + t.width) t.width) :=
  toNat_beValue_readBytes _ _ (ScalarType.width_le t)

theorem toNat_popValue_lt (t : ScalarType) (s : State) :
    (popValue t s).toNat < 2 ^ (8 * t.width) := by
  rw [toNat_popValue]
  exact beValue_readBytes_lt _ _ _

/-- The destination's low bytes are the value popped. -/
theorem lowBytes_getReg_afterPop (t : ScalarType) (d : Reg) (s : State) :
    ((afterPop t d s).getReg d).toNat % 2 ^ (8 * t.width) = (popValue t s).toNat := by
  rw [← toNat_lowBytes, getReg_afterPop, lowBytes_insertBytes_zero,
    lowBytes_of_lt (toNat_popValue_lt t s)]

/-- Settles O33: the destination's low bytes are the bytes popped, its upper ones those of the slot
that the pop left. -/
theorem popReplacesOnlyLowBytes : Obligations.PopReplacesOnlyLowBytes := by
  intro t d s hin old
  refine ⟨_, exec_pop d hin, ?_, ?_, fun hd => ?_, fun hd => ?_, rfl, rfl, fun r hr => ?_,
    fun _ => rfl, rfl, rfl⟩
  · exact holdsValue_of_readBytes _ _ _ _ (by rw [lowBytes_getReg_afterPop, toNat_popValue])
  · rw [getReg_afterPop, upper_insertBytes_zero, getReg_popped_afterFetch]
  · rw [getReg_afterPop_ne t s (Ne.symm hd), if_pos rfl]
  · rw [getReg_afterPop_ne t s (Ne.symm hd), if_neg (by decide), operandSlot, if_pos rfl]
    rfl
  · simp only [List.mem_cons, List.not_mem_nil, or_false, not_or] at hr
    rw [getReg_afterPop_ne t s hr.1, if_neg hr.2.1, operandSlot, if_neg hr.2.2]

/-- Settles O34: the fetch moves neither `sp` nor the size. -/
theorem stackAccessFaultsOutsideMemory : Obligations.StackAccessFaultsOutsideMemory := by
  intro t lit r s
  refine ⟨fun hout => ⟨?_, ?_⟩, fun hout => ?_⟩
  · simp only [exec, execPshLit]
    rw [push_error (by simpa using hout), sp_afterFetch, finish]
  · simp only [exec, execPshReg]
    rw [push_error (by simpa using hout), sp_afterFetch, finish]
  · simp only [exec, execPop]
    rw [pop_error (by rw [sp_afterFetch, State.afterFetch_memSize]; omega), sp_afterFetch]

/-! ## A pop after a push -/

/-- R162: above the slot that a push left, memory holds the value pushed. -/
theorem popValue_of_pushed {t : ScalarType} {v : Word} {s u : State} (hwf : Memory.wf s.mem = true)
    (hw : t.width ≤ s.sp.toNat) (hsp : u.sp = s.sp - BitVec.ofNat 32 t.width)
    (hmem : ∀ k, k < t.width → u.byte (s.sp.toNat + k) = (pushed t v s).byte (s.sp.toNat + k)) :
    popValue t u = lowBytes t.width v := by
  have hback : u.sp.toNat + t.width = s.sp.toNat := by
    have := ScalarType.width_le t
    rw [hsp, BitVec.toNat_sub, BitVec.toNat_ofNat]
    omega
  apply BitVec.eq_of_toNat_eq
  rw [toNat_popValue, hback, Memory.readBytes_congr hmem, mem_pushed,
    beValue_read_after_write hwf, toNat_lowBytes]

/-- R161: POP after an instruction that pushed `v` gives `v` back. -/
theorem pop_undoes_push {pc0 : Addr} {t : ScalarType} {v : Word} {n : Nat} (d : Reg) {s u : State}
    (hinv : s.inv = true) (hw : t.width ≤ s.sp.toNat)
    (h : push pc0 t v (s.afterFetch n) = .ok u) :
    ∃ w, exec (.pop t d) u = .next w ∧
      (w.getReg d).toNat % 2 ^ (8 * t.width) = v.toNat % 2 ^ (8 * t.width) ∧
      (d ≠ .sp → w.getReg .sp = zextAddr s.sp) ∧ w.fsz = s.fsz := by
  obtain ⟨rfl, hin⟩ := push_eq_ok h
  rw [sp_afterFetch, State.afterFetch_memSize] at hin
  have hsp : (pushed t v (s.afterFetch n)).sp = s.sp - BitVec.ofNat 32 t.width := by simp
  have hback : (pushed t v (s.afterFetch n)).sp.toNat + 2 * t.width ≤
      (pushed t v (s.afterFetch n)).memSize := by
    have := ScalarType.width_le t
    rw [hsp, BitVec.toNat_sub, BitVec.toNat_ofNat, memSize_pushed, State.afterFetch_memSize]
    omega
  have hvalue := popValue_of_pushed (v := v) (s := s.afterFetch n) (State.inv_iff.mp hinv).1
    (by rwa [sp_afterFetch]) (by simp) (fun k _ => rfl)
  refine ⟨_, exec_pop d hback, ?_, fun hd => ?_, ?_⟩
  · rw [lowBytes_getReg_afterPop, hvalue, toNat_lowBytes]
  · rw [getReg_afterPop_ne t _ (Ne.symm hd), if_pos rfl, hsp, BitVec.sub_add_cancel]
  · exact BitVec.add_sub_cancel _ _

/-- Settles O35: both instructions push what they read after their fetch. -/
theorem popUndoesPush : Obligations.PopUndoesPush := by
  intro t lit r d s u hinv hw
  constructor
  · intro h
    exact pop_undoes_push d hinv hw (finish_eq_next.mp h)
  · intro h
    have hundo := pop_undoes_push d hinv hw (finish_eq_next.mp h)
    simpa only [get_afterFetch, toNat_lowBytes, Nat.mod_mod] using hundo

/-! ## Sequences of pushes and pops -/

/-- The bytes that a sequence of pushes writes. -/
def widthSum (ps : List (ScalarType × Word)) : Nat := (ps.map (fun p => p.1.width)).sum

@[simp] theorem widthSum_cons (p : ScalarType × Word) (ps : List (ScalarType × Word)) :
    widthSum (p :: ps) = p.1.width + widthSum ps := by
  simp [widthSum]

theorem pushAll_cons_eq_ok {pc0 : Addr} {p : ScalarType × Word} {ps : List (ScalarType × Word)}
    {s u : State} (h : pushAll pc0 (p :: ps) s = .ok u) :
    s.sp.toNat + p.1.width ≤ s.memSize ∧ pushAll pc0 ps (pushed p.1 p.2 s) = .ok u := by
  rw [pushAll] at h
  rcases push_cases pc0 p.1 p.2 s with ⟨hin, e⟩ | ⟨-, e⟩ <;> rw [e] at h
  · exact ⟨hin, h⟩
  · cases h

theorem popAll_cons_eq_ok {pc0 : Addr} {t : ScalarType} {ts : List ScalarType} {vs : List Word}
    {s w : State} (h : popAll pc0 (t :: ts) s = .ok (vs, w)) :
    ∃ vs', popAll pc0 ts (popped t s) = .ok (vs', w) := by
  rw [popAll] at h
  rcases pop_cases pc0 t s with ⟨-, e⟩ | ⟨-, e⟩ <;> simp only [e] at h
  · split at h
    · rename_i vs' s2 hrest
      cases h
      exact ⟨vs', hrest⟩
    · cases h
  · cases h

/-- A sequence of pops, then one more. -/
theorem popAll_append {pc0 : Addr} {ts : List ScalarType} {t : ScalarType} {vs : List Word}
    {v : Word} {s s1 s2 : State} (h1 : popAll pc0 ts s = .ok (vs, s1))
    (h2 : pop pc0 t s1 = .ok (v, s2)) : popAll pc0 (ts ++ [t]) s = .ok (vs ++ [v], s2) := by
  induction ts generalizing s vs with
  | nil =>
    cases h1
    simp [popAll, h2]
  | cons t' ts ih =>
    rw [popAll] at h1
    rw [List.cons_append, popAll]
    rcases pop_cases pc0 t' s with ⟨-, e⟩ | ⟨-, e⟩ <;> simp only [e] at h1 ⊢
    · split at h1
      · rename_i vs' s3 hrest
        cases h1
        simp only [ih hrest, List.cons_append]
      · cases h1
    · cases h1

/-- R160: pushes lower `sp` and raise the counter by their widths, and keep the size. -/
theorem pushAll_moves {pc0 : Addr} {ps : List (ScalarType × Word)} {s u : State}
    (h : pushAll pc0 ps s = .ok u) :
    u.sp = s.sp - BitVec.ofNat 32 (widthSum ps) ∧ u.fsz = s.fsz + BitVec.ofNat 64 (widthSum ps) ∧
      u.memSize = s.memSize := by
  induction ps generalizing s with
  | nil =>
    cases h
    simp [widthSum]
  | cons p ps ih =>
    obtain ⟨hsp, hfsz, hsize⟩ := ih (pushAll_cons_eq_ok h).2
    rw [hsp, hfsz, hsize, widthSum_cons, BitVec.ofNat_add, BitVec.ofNat_add, sp_pushed, fsz_pushed]
    exact ⟨BitVec.sub_sub .., BitVec.add_assoc .., rfl⟩

/-- R161: pops raise `sp` and lower the counter by their widths, and leave memory as it is. -/
theorem popAll_moves {pc0 : Addr} {ts : List ScalarType} {vs : List Word} {s w : State}
    (h : popAll pc0 ts s = .ok (vs, w)) :
    w.sp = s.sp + BitVec.ofNat 32 (ts.map ScalarType.width).sum ∧
      w.fsz = s.fsz - BitVec.ofNat 64 (ts.map ScalarType.width).sum ∧ w.mem = s.mem ∧
      w.memSize = s.memSize := by
  induction ts generalizing s vs with
  | nil =>
    cases h
    simp
  | cons t ts ih =>
    obtain ⟨vs', hrest⟩ := popAll_cons_eq_ok h
    obtain ⟨hsp, hfsz, hmem, hsize⟩ := ih hrest
    rw [hsp, hfsz, hmem, hsize, List.map_cons, List.sum_cons, BitVec.ofNat_add, BitVec.ofNat_add,
      sp_popped, fsz_popped]
    exact ⟨BitVec.add_assoc .., BitVec.sub_sub .., rfl, rfl⟩

theorem sum_reverse_widths (ps : List (ScalarType × Word)) :
    ((ps.reverse.map Prod.fst).map ScalarType.width).sum = widthSum ps := by
  rw [List.map_map, List.map_reverse, List.sum_reverse]
  rfl

/-- The pops of the same types in reverse order move `sp` and the counter back. -/
theorem popAll_reverse_restores {pc0 : Addr} {ps : List (ScalarType × Word)} {vs : List Word}
    {s u w : State} (hpush : pushAll pc0 ps s = .ok u)
    (hpop : popAll pc0 (ps.reverse.map Prod.fst) u = .ok (vs, w)) :
    w.sp = s.sp ∧ w.fsz = s.fsz ∧ w.mem = u.mem ∧ w.memSize = s.memSize := by
  obtain ⟨hsp, hfsz, hsize⟩ := pushAll_moves hpush
  obtain ⟨hsp', hfsz', hmem, hsize'⟩ := popAll_moves hpop
  rw [sum_reverse_widths] at hsp' hfsz'
  rw [hsp', hfsz', hsp, hfsz]
  exact ⟨BitVec.sub_add_cancel .., BitVec.add_sub_cancel .., hmem, hsize'.trans hsize⟩

/-- Pushes that do not take `sp` below 0 write nothing as far as their greatest width above it. -/
theorem pushAll_byte_above {pc0 : Addr} {ps : List (ScalarType × Word)} {s u : State} {m b : Nat}
    (h : pushAll pc0 ps s = .ok u) (hm : ∀ p ∈ ps, p.1.width ≤ m) (hsum : widthSum ps ≤ s.sp.toNat)
    (hb : s.sp.toNat + m ≤ b) : u.byte b = s.byte b := by
  induction ps generalizing s with
  | nil => cases h; rfl
  | cons p ps ih =>
    have hp := hm p (by simp)
    rw [widthSum_cons] at hsum
    have hsp : (pushed p.1 p.2 s).sp.toNat = s.sp.toNat - p.1.width := by
      rw [sp_pushed, BitVec.toNat_sub, BitVec.toNat_ofNat]
      omega
    rw [ih (pushAll_cons_eq_ok h).2 (fun q hq => hm q (by simp [hq])) (by omega) (by omega)]
    exact keepsMemoryOutside_of_writeBytes (mem_pushed ..) b (.inr (by omega))

/-- The pops do not fault: each finds `sp` where its push left it. -/
theorem popAll_reverse_completes {pc0 : Addr} {ps : List (ScalarType × Word)} {s u : State}
    (h : pushAll pc0 ps s = .ok u) (hsum : widthSum ps ≤ s.sp.toNat) :
    ∃ vs w, popAll pc0 (ps.reverse.map Prod.fst) u = .ok (vs, w) := by
  induction ps generalizing s with
  | nil => exact ⟨_, _, rfl⟩
  | cons p ps ih =>
    obtain ⟨hin, hrest⟩ := pushAll_cons_eq_ok h
    rw [widthSum_cons] at hsum
    have hsp : (pushed p.1 p.2 s).sp.toNat = s.sp.toNat - p.1.width := by
      rw [sp_pushed, BitVec.toNat_sub, BitVec.toNat_ofNat]
      omega
    obtain ⟨vs, w, hpop⟩ := ih hrest (by omega)
    obtain ⟨hwsp, -, -, hwsize⟩ := popAll_reverse_restores hrest hpop
    have hlast := pop_ok (pc0 := pc0) (t := p.1) (s := w)
      (by rw [hwsp, hwsize, hsp, memSize_pushed]; omega)
    rw [List.reverse_cons, List.map_append]
    exact ⟨_, _, popAll_append hpop hlast⟩

/-- Settles O60: what the pushes moved the pops move back, and none of them faults. -/
theorem pushesThenPopsRestoreSpAndCounter : Obligations.PushesThenPopsRestoreSpAndCounter := by
  intro pc0 ps s u h
  refine ⟨fun vs w hpop => ?_, popAll_reverse_completes h⟩
  obtain ⟨hsp, hfsz, hmem, -⟩ := popAll_reverse_restores h hpop
  exact ⟨hsp, hfsz, hmem⟩

/-- R166: with widths that never increase no push reaches a value pushed before it, so each pop
gives its push's value. -/
theorem popAll_reverse_values {pc0 : Addr} {ps : List (ScalarType × Word)} {s u : State}
    (hinv : s.inv = true) (hmono : (ps.map (fun p => p.1.width)).Pairwise (· ≥ ·))
    (hsum : widthSum ps ≤ s.sp.toNat) (h : pushAll pc0 ps s = .ok u) :
    ∃ w, popAll pc0 (ps.reverse.map Prod.fst) u
      = .ok (ps.reverse.map (fun p => lowBytes p.1.width p.2), w) := by
  induction ps generalizing s with
  | nil => exact ⟨_, rfl⟩
  | cons p ps ih =>
    obtain ⟨hin, hrest⟩ := pushAll_cons_eq_ok h
    rw [widthSum_cons] at hsum
    rw [List.map_cons, List.pairwise_cons] at hmono
    have hsp : (pushed p.1 p.2 s).sp.toNat = s.sp.toNat - p.1.width := by
      rw [sp_pushed, BitVec.toNat_sub, BitVec.toNat_ofNat]
      omega
    obtain ⟨w, hpop⟩ := ih ((push_carries (push_ok (pc0 := pc0) hin)).inv hinv) hmono.2
      (by omega) hrest
    obtain ⟨hwsp, -, hwmem, hwsize⟩ := popAll_reverse_restores hrest hpop
    have hlast := pop_ok (pc0 := pc0) (t := p.1) (s := w)
      (by rw [hwsp, hwsize, hsp, memSize_pushed]; omega)
    have hvalue : popValue p.1 w = lowBytes p.1.width p.2 := by
      refine popValue_of_pushed (State.inv_iff.mp hinv).1 (by omega) (by rw [hwsp, sp_pushed]) ?_
      intro k _
      rw [State.byte, hwmem]
      exact pushAll_byte_above hrest (fun q hq => hmono.1 _ (List.mem_map_of_mem hq)) (by omega)
        (by omega)
    rw [List.reverse_cons, List.map_append, List.map_append]
    exact ⟨_, popAll_append hpop (hvalue ▸ hlast)⟩

/-- Settles O36: the values, and O60's restored `sp` and counter. -/
theorem nonIncreasingPushesPopBack : Obligations.NonIncreasingPushesPopBack := by
  intro pc0 ps s u hinv hmono hsum h
  obtain ⟨w, hpop⟩ := popAll_reverse_values hinv hmono hsum h
  obtain ⟨hsp, hfsz, hmem, -⟩ := popAll_reverse_restores h hpop
  exact ⟨w, hpop, hsp, hfsz, hmem⟩

end Sys2Proof.Machine
end

section
/-! PROOFS. Calls and returns (R171 to R180): the frame a call leaves, what RET makes of one, and
the two together. -/

namespace Sys2Proof.Machine

/-! ## The frame of a call -/

/-- What a call to `a` with the return address `ret` leaves: the frame in memory, the registers and
the hidden state (R171, R173). -/
def Called (ret a : Addr) (s u : State) : Prop :=
  u.getReg .ip = zextAddr a ∧ u.getReg .sp = zextAddr (s.sp - 80) ∧
    u.getReg .fp = zextAddr (s.sp - 80) ∧ u.getReg .bp = zextAddr s.sp ∧
    (∀ k, (h : k < (frameWords s ret).length) →
      HoldsValue u (frameAddr s.sp k) 8 (frameWords s ret)[k]) ∧
    (∀ b, (∀ k, k < 10 → b < frameAddr s.sp k ∨ frameAddr s.sp k + 8 ≤ b) →
      u.byte b = s.byte b) ∧
    u.fsz = 0 ∧ u.ctgt = some a ∧ KeepsRegs [.ip, .sp, .fp, .bp] s u ∧ KeepsControl s u

/-- The state from which a call of `n` bytes pushes its frame. -/
def beforeFrame (n : Nat) (a : Addr) (s : State) : State := (s.afterFetch n).setCtgt (some a)

section
variable {pc0 a : Addr} {n : Nat} {s u : State}

@[simp] theorem sp_beforeFrame : (beforeFrame n a s).sp = s.sp := sp_afterFetch s n

/-- R171: the slots saved and the size field are the words of the frame. -/
theorem frameWords_eq :
    savedRegs.map (beforeFrame n a s).getReg ++ [(beforeFrame n a s).fsz + 80] =
      frameWords s (s.pc + BitVec.ofNat 32 n) := by
  simp [savedRegs, frameWords, beforeFrame]

theorem callTo_ok (h : ∀ k, k < 10 → frameAddr s.sp k + 8 ≤ s.memSize) :
    ∃ f, callTo pc0 a (s.afterFetch n) = .ok (f.setAddr .ip a) ∧
      FramePushed (beforeFrame n a s) f := by
  obtain ⟨f, hpush, hf⟩ := pushState_ok (pc0 := pc0) (s := beforeFrame n a s)
    (by rw [sp_beforeFrame]; exact h)
  refine ⟨f, ?_, hf⟩
  rw [callTo, ← beforeFrame, hpush]

theorem callTo_error {k : Nat} (hk : k < 10)
    (hlt : ∀ j, j < k → frameAddr s.sp j + 8 ≤ s.memSize)
    (h : s.memSize < frameAddr s.sp k + 8) :
    callTo pc0 a (s.afterFetch n) = .error (.outOfRange (frameAddr s.sp k) 8 .write pc0) := by
  have hpush := pushState_error (pc0 := pc0) (s := beforeFrame n a s) hk
    (by rw [sp_beforeFrame]; exact hlt) (by rw [sp_beforeFrame]; exact h)
  rw [callTo, ← beforeFrame, hpush, sp_beforeFrame]

/-- A call that completed pushed its frame inside memory and jumped. -/
theorem callTo_eq_ok (h : callTo pc0 a (s.afterFetch n) = .ok u) :
    (∀ k, k < 10 → frameAddr s.sp k + 8 ≤ s.memSize) ∧
      ∃ f, u = f.setAddr .ip a ∧ FramePushed (beforeFrame n a s) f := by
  rw [callTo, ← beforeFrame] at h
  split at h
  · rename_i f hpush
    cases h
    obtain ⟨hf, hin⟩ := pushState_eq_ok hpush
    rw [sp_beforeFrame] at hin
    exact ⟨hin, f, rfl, hf⟩
  · cases h

/-- The saved words stand in memory where the statements of the call look for them. -/
theorem called_of_framePushed {f : State} (hwf : Memory.wf s.mem = true)
    (hf : FramePushed (beforeFrame n a s) f) :
    Called (s.pc + BitVec.ofNat 32 n) a s (f.setAddr .ip a) := by
  have hmem : f.mem = savedMem s.mem s.sp (frameWords s (s.pc + BitVec.ofNat 32 n)) := by
    rw [hf.mem, frameWords_eq, sp_beforeFrame]
    rfl
  have hreg : ∀ q, q ≠ .ip → (f.setAddr .ip a).getReg q = f.getReg q := fun q hq => by
    rw [State.getReg_setAddr, if_neg hq]
  refine ⟨by simp, ?_, ?_, ?_, fun k hk i hi => ?_, fun b hb => ?_, hf.fsz, hf.ctgt, fun q hq => ?_,
    hf.status, hf.memSize⟩
  · rw [hreg _ (by decide), hf.sp, sp_beforeFrame]
    rfl
  · rw [hreg _ (by decide), hf.fp, sp_beforeFrame]
    rfl
  · rw [hreg _ (by decide), hf.bp, sp_beforeFrame]
  · rw [State.setAddr_byte, State.byte, hmem, frameAddr_eq,
      read_savedMem hwf _ _ (by simp [frameWords]) k hk i hi, getElem_beBytes _ _ _ hi]
  · rw [State.setAddr_byte, State.byte, hmem]
    exact read_savedMem_outside _ _ _ _ hb
  · simp only [List.mem_cons, List.not_mem_nil, or_false, not_or] at hq
    obtain ⟨hip, hsp, hfp, hbp⟩ := hq
    rw [hreg q hip, hf.other q hsp hfp hbp]
    simp [beforeFrame, hip]

end

theorem exec_calReg (r : Reg) (s : State) :
    exec (.calReg r) s =
      finish (callTo s.pc ((operandSlot s 2 r).setWidth 32) (s.afterFetch 2)) := by
  simp only [exec, execCalReg, getTarget_afterFetch]

/-- Settles O37: the fetch of five bytes leaves the return address in `ip`. -/
theorem calLitPushesFrameAndJumps : Obligations.CalLitPushesFrameAndJumps := by
  intro a s hwf hin
  obtain ⟨f, hcall, hf⟩ := callTo_ok (pc0 := s.pc) (a := a) (n := 5) hin
  exact ⟨_, finish_eq_next.mpr hcall, called_of_framePushed hwf hf⟩

/-- Settles O38: the same call, the target read after the fetch of two bytes. -/
theorem calRegPushesFrameAndJumps : Obligations.CalRegPushesFrameAndJumps := by
  intro r s hwf hin a
  obtain ⟨f, hcall, hf⟩ := callTo_ok (pc0 := s.pc) (a := a) (n := 2) hin
  exact ⟨_, (exec_calReg r s).trans (finish_eq_next.mpr hcall), called_of_framePushed hwf hf⟩

/-- Settles O39: nothing of the call comes before the writes of its frame. -/
theorem callFaultsOnFirstWriteOutside : Obligations.CallFaultsOnFirstWriteOutside := by
  intro a r s k hk hlt hout
  exact ⟨finish_eq_fault.mpr (callTo_error hk hlt hout),
    (exec_calReg r s).trans (finish_eq_fault.mpr (callTo_error hk hlt hout))⟩

/-! ## RET -/

/-- The state from which RET unwinds the frame. -/
def beforeReturn (s : State) : State := (s.afterFetch 1).setCtgt none

@[simp] theorem fp_beforeReturn (s : State) : (beforeReturn s).fp = s.fp := fp_afterFetch s 1

@[simp] theorem frameField_beforeReturn (s : State) (k : Nat) :
    frameField (beforeReturn s) k = frameField s k := by
  rw [frameField, fp_beforeReturn]
  rfl

/-- Settles O41: the restored slots, and what a restore leaves alone. -/
theorem retRestoresFrame : Obligations.RetRestoresFrame := by
  intro s hz hfp h80 hsize
  rw [← frameField_beforeReturn] at h80 hsize
  rw [← fp_beforeReturn] at hfp hsize
  obtain ⟨u, hpop, hu⟩ := popState_ok (pc0 := s.pc) (s := beforeReturn s) hz hfp h80 hsize
  obtain ⟨hip, h8, h7, h6, h5, h4, h3, h2, h1, hsp, hfp', hacc, hbp, hmem, hfsz, hctgt, hstatus,
    hms, -⟩ := hu
  simp only [frameField_beforeReturn, fp_beforeReturn] at hip h8 h7 h6 h5 h4 h3 h2 h1 hsp hfp'
  refine ⟨u, finish_eq_next.mpr hpop, hip, h8, h7, h6, h5, h4, h3, h2, h1, hsp, hfp', hfsz, hctgt,
    ?_, ?_, fun b => ?_, hstatus, hms⟩
  · rw [hacc]
    simp [beforeReturn]
  · rw [hbp]
    simp [beforeReturn]
  · rw [State.byte, hmem]
    rfl

/-- Settles O42: the three errors of a restore, in the order of its checks. -/
theorem retFaultsInOrder : Obligations.RetFaultsInOrder := by
  intro s hz
  refine ⟨fun k h1 h10 hlt hout => ?_, fun hfp hsmall => ?_, fun hfp hlarge hout => ?_⟩
  · rw [← fp_beforeReturn] at hlt hout
    have hpop := popState_error_read (pc0 := s.pc) (s := beforeReturn s) hz h1 h10 hlt hout
    rw [fp_beforeReturn] at hpop
    exact finish_eq_fault.mpr hpop
  · have hpop := popState_error_size (pc0 := s.pc) (s := beforeReturn s) hz
      (by rwa [fp_beforeReturn]) (by rwa [frameField_beforeReturn])
    rw [fp_beforeReturn, frameField_beforeReturn] at hpop
    exact finish_eq_fault.mpr hpop
  · have hpop := popState_error_discard (pc0 := s.pc) (s := beforeReturn s) hz
      (by rwa [fp_beforeReturn]) (by rwa [frameField_beforeReturn])
      (by rwa [fp_beforeReturn, frameField_beforeReturn])
    rw [fp_beforeReturn] at hpop
    exact finish_eq_fault.mpr hpop

/-! ## The discard loop -/

/-- Settles O43, by induction on the bytes discarded: a pop of one byte is a discard of one, and the
rest is the loop from there. -/
theorem discardLoopEqualsClosedForm : Obligations.DiscardLoopEqualsClosedForm := by
  intro pc0 n s hz hslot
  induction n generalizing s with
  | zero =>
    rw [discardBytes_ok (.inl rfl), popBytes, Except.map, Except.ok.injEq]
    refine State.ext_slots (fun r => ?_) rfl (BitVec.sub_zero _).symm rfl rfl rfl rfl
    change s.getReg r = (s.setAddr .sp (s.sp + BitVec.ofNat 32 0)).getReg r
    by_cases hr : r = .sp <;> simp [hr, hslot]
  | succ n ih =>
    have hpop := pop_cases pc0 .ubyte s
    simp only [ScalarType.width] at hpop
    rw [popBytes]
    rcases hpop with ⟨hin, e⟩ | ⟨hout, e⟩ <;> rw [e]
    · have hsp : (popped .ubyte s).sp.toNat = s.sp.toNat + 1 := by
        rw [sp_popped, BitVec.toNat_add, BitVec.toNat_ofNat, ScalarType.width]
        omega
      simp only [ih (popped .ubyte s) hz (by simp)]
      by_cases hd : n = 0 ∨ s.sp.toNat + 1 + n < s.memSize
      · rw [discardBytes_ok (by rw [hsp]; exact hd), discardBytes_ok (by omega), Except.map,
          Except.map, Except.ok.injEq]
        refine State.ext_slots (fun r => ?_) rfl ?_ rfl rfl rfl rfl
        · change ((popped .ubyte s).setAddr .sp _).getReg r = (s.setAddr .sp _).getReg r
          by_cases hr : r = .sp <;>
            simp [hr, ScalarType.width, BitVec.ofNat_add, BitVec.add_assoc, BitVec.add_comm]
        · change s.fsz - BitVec.ofNat 64 1 - BitVec.ofNat 64 n = s.fsz - BitVec.ofNat 64 (n + 1)
          rw [BitVec.sub_sub, ← BitVec.ofNat_add, Nat.add_comm]
      · rw [discardBytes_error (by omega) (by rw [hsp, memSize_popped]; omega),
          discardBytes_error (by omega) (by omega), hsp, memSize_popped, Except.map, Except.map,
          Nat.max_eq_right (by omega), Nat.max_eq_right (by omega)]
    · rw [discardBytes_error (by omega) (by omega), Nat.max_eq_left (by omega)]
      rfl

/-! ## A return after a call -/

/-- R52, R53: the word that eight bytes spell. -/
theorem wordAt_of_holdsValue {s : State} {a : Nat} {v : Word} (h : HoldsValue s a 8 v) :
    wordAt s a = v := by
  have hbytes : Memory.readBytes s.mem a 8 = beBytes 8 v.toNat := by
    apply List.ext_getElem (by simp)
    intro k hk _
    have hk : k < 8 := by simpa using hk
    rw [Memory.getElem_readBytes _ _ _ _ hk, getElem_beBytes _ _ _ hk]
    exact h k hk
  apply BitVec.eq_of_toNat_eq
  rw [wordAt, hbytes, beValue_beBytes, BitVec.toNat_ofNat, Nat.mod_mod_of_dvd _ (by decide)]
  exact Nat.mod_eq_of_lt v.isLt

theorem toNat_fp_of_called {ret a : Addr} {s u : State} (h : Called ret a s u)
    (h80 : 80 ≤ s.sp.toNat) : u.fp.toNat = s.sp.toNat - 80 := by
  obtain ⟨-, -, hfp, -⟩ := h
  have hlt := s.sp.isLt
  rw [State.fp, State.addrOf, hfp, setWidth_zextAddr, BitVec.toNat_sub,
    show (80 : Addr).toNat = 80 from rfl]
  omega

/-- The words of a call's frame, read through the frame pointer from the last pushed up. -/
theorem frameField_after_call {ret a : Addr} {s u v : State} (h : Called ret a s u)
    (h80 : 80 ≤ s.sp.toNat) (hfp : v.fp = u.fp)
    (hbytes : ∀ b, s.sp.toNat ≤ b + 72 → b < s.sp.toNat + 8 → v.byte b = u.byte b) (k : Nat)
    (hk : k < 10) : frameField v (10 - k) = (frameWords s ret)[k]'hk := by
  have hfpn := toNat_fp_of_called h h80
  obtain ⟨-, -, -, -, hwords, -⟩ := h
  have haddr : frameAddr s.sp k = s.sp.toNat - 8 * k := by
    have hlt := s.sp.isLt
    rw [frameAddr, BitVec.toNat_sub, BitVec.toNat_ofNat]
    omega
  apply wordAt_of_holdsValue
  rw [show v.fp.toNat + 8 * (10 - k) = frameAddr s.sp k by rw [hfp]; omega]
  intro i hi
  rw [hbytes _ (by omega) (by omega)]
  exact hwords k hk i hi

/-- R180: what RET makes of the frame of a call to `a` with the return address `ret`. -/
theorem ret_after_called {ret a : Addr} {s u v : State} (hz : s.memSize ≤ 2 ^ 32)
    (hin : s.sp.toNat + 8 ≤ s.memSize) (h : Called ret a s u) (hsize : v.memSize = u.memSize)
    (hfp : v.fp = u.fp)
    (hbytes : ∀ b, s.sp.toNat ≤ b + 72 → b < s.sp.toNat + 8 → v.byte b = u.byte b)
    (h80 : 80 ≤ s.sp.toNat) (hcount : s.fsz.toNat + 80 < 2 ^ 64)
    (hdiscard : s.fsz = 0 ∨ s.sp.toNat + s.fsz.toNat < s.memSize) :
    ∃ w, exec .ret v = .next w ∧ w.getReg .ip = zextAddr ret ∧
      (∀ q, q ∈ ([.r1, .r2, .r3, .r4, .r5, .r6, .r7, .r8] : List Reg) →
        w.getReg q = s.getReg q) ∧
      w.getReg .acc = v.getReg .acc ∧ w.sp = w.fp ∧ w.sp.toNat = s.sp.toNat + s.fsz.toNat ∧
      (FrameChain s → w.fp = s.fp) ∧ w.ctgt = none := by
  have hfield := frameField_after_call h h80 hfp hbytes
  have hfpn : v.fp.toNat = s.sp.toNat - 80 := hfp ▸ toNat_fp_of_called h h80
  obtain ⟨-, -, -, -, -, -, -, -, -, hcontrol⟩ := h
  have hms : v.memSize = s.memSize := hsize.trans hcontrol.2
  have hcountn : (frameField v 1).toNat = s.fsz.toNat + 80 := by
    rw [show frameField v 1 = s.fsz + 80 from hfield 9 (by omega), BitVec.toNat_add,
      show (80 : Word).toNat = 80 from rfl]
    omega
  have hdiscardn : s.fsz.toNat = 0 ∨ s.sp.toNat + s.fsz.toNat < s.memSize :=
    hdiscard.imp_left fun e => by rw [e]; rfl
  obtain ⟨w, hexec, hip, h8, h7, h6, h5, h4, h3, h2, h1, hsp, hwfp, -, hctgt, hacc, -⟩ :=
    retRestoresFrame v (by omega) (by omega) (by omega) (by omega)
  have hwfpsp : w.fp = w.sp := by
    rw [State.fp, State.sp, State.addrOf, State.addrOf, hsp, hwfp]
  have hwspn : w.sp.toNat = s.sp.toNat + s.fsz.toNat := by
    have hlt := s.sp.isLt
    rw [State.sp, State.addrOf, hsp, setWidth_zextAddr, BitVec.toNat_add, BitVec.toNat_setWidth,
      hfpn, hcountn]
    omega
  refine ⟨w, hexec, hip.trans (hfield 8 (by omega)), fun q hq => ?_, hacc, hwfpsp.symm, hwspn,
    fun hchain => ?_, hctgt⟩
  · simp only [List.mem_cons, List.not_mem_nil, or_false] at hq
    rcases hq with rfl | rfl | rfl | rfl | rfl | rfl | rfl | rfl
    · exact h1.trans (hfield 0 (by omega))
    · exact h2.trans (hfield 1 (by omega))
    · exact h3.trans (hfield 2 (by omega))
    · exact h4.trans (hfield 3 (by omega))
    · exact h5.trans (hfield 4 (by omega))
    · exact h6.trans (hfield 5 (by omega))
    · exact h7.trans (hfield 6 (by omega))
    · exact h8.trans (hfield 7 (by omega))
  · apply BitVec.eq_of_toNat_eq
    rw [hwfpsp, ← hchain, ← hwspn, Nat.mod_eq_of_lt w.sp.isLt]

/-- Settles O45: both calls leave a frame that RET takes apart. -/
theorem returnAfterCallRestoresCaller : Obligations.ReturnAfterCallRestoresCaller := by
  intro i a r s u v hinv hi hexec hsize hfp hbytes h80 hcount hdiscard
  obtain ⟨hwf, -, -, hz⟩ := State.inv_iff.mp hinv
  have hcall : ∃ target, callTo s.pc target (s.afterFetch i.length) = .ok u := by
    rcases hi with rfl | rfl
    · exact ⟨a, finish_eq_next.mp hexec⟩
    · exact ⟨_, finish_eq_next.mp ((exec_calReg r s).symm.trans hexec)⟩
  obtain ⟨target, hcall⟩ := hcall
  obtain ⟨hin, f, rfl, hf⟩ := callTo_eq_ok hcall
  have hin0 : s.sp.toNat + 8 ≤ s.memSize := by
    simpa [frameAddr_eq, saveAddr_zero] using hin 0 (by omega)
  exact ret_after_called hz hin0 (called_of_framePushed hwf hf) hsize hfp hbytes h80 hcount hdiscard

end Sys2Proof.Machine
end

section
/-! PROOFS. Rules of the whole machine (R117, R153, R178): what each instruction that completes can
have done, said once, and what follows for `pc`, memory, the hidden state and the frame chain. -/

namespace Sys2Proof.Machine

/-! ## What a completed RET did -/

theorem restoreRegs_keeps {pc0 : Addr} {rs : List Reg} {s u : State}
    (h : restoreRegs pc0 rs s = .ok u) : u.mem = s.mem ∧ u.ctgt = s.ctgt := by
  induction rs generalizing s with
  | nil => cases h; exact ⟨rfl, rfl⟩
  | cons r rs ih =>
    simp only [restoreRegs] at h
    split at h
    · rename_i hpop
      obtain ⟨-, rfl, -⟩ := pop_eq_ok hpop
      obtain ⟨hmem, hctgt⟩ := ih h
      exact ⟨hmem, hctgt⟩
    · cases h

theorem discardBytes_eq_ok {pc0 : Addr} {n : Nat} {s u : State}
    (h : discardBytes pc0 n s = .ok u) : u = s.setAddr .sp (s.sp + BitVec.ofNat 32 n) := by
  simp only [discardBytes] at h
  split at h <;> cases h
  rfl

/-- A restore that completed, in a memory of any size. -/
theorem popState_keeps {pc0 : Addr} {s u : State} (h : popState pc0 s = .ok u) :
    u.mem = s.mem ∧ u.fsz = 0 ∧ u.ctgt = s.ctgt := by
  simp only [popState] at h
  split at h
  · rename_i hpop
    obtain ⟨-, rfl, -⟩ := pop_eq_ok hpop
    split at h
    · rename_i hrest
      obtain ⟨hmem, hctgt⟩ := restoreRegs_keeps hrest
      split at h
      · cases h
      · split at h
        · rename_i hdiscard
          cases discardBytes_eq_ok hdiscard
          cases h
          exact ⟨hmem, rfl, hctgt⟩
        · cases h
    · cases h
  · cases h

/-! ## What a completed instruction did -/

/-- What an instruction from `s` has done when it completed in `u`. -/
def Executed : Instr → State → State → Prop
  | .hlt, s, u => u = (s.afterFetch 1).setHalt
  | .movLitReg t lit d, s, u => u = (s.afterFetch (3 + t.width)).setz t d lit
  | .movRegReg t _ d, s, u => ∃ v, u = (s.afterFetch 4).setz t d v
  | .movRegMem _ _ _, s, u => ∃ m, u = (s.afterFetch 7).setMem m
  | .movMemReg t _ d, s, u => ∃ v, u = (s.afterFetch 7).setz t d v
  | .addRegReg t x y, s, u => u = afterAdd t x y s
  | .jmpNotEq t lit a, s, u => u = afterJump t lit a s
  | .pshLit t lit, s, u => u = pushed t lit (s.afterFetch (2 + t.width))
  | .pshReg t _, s, u => ∃ v, u = pushed t v (s.afterFetch 3)
  | .pop t d, s, u => u = afterPop t d s
  | .calLit a, s, u => ∃ f, u = f.setAddr .ip a ∧ FramePushed (beforeFrame 5 a s) f
  | .calReg r, s, u =>
    ∃ f, u = f.setAddr .ip ((operandSlot s 2 r).setWidth 32) ∧
      FramePushed (beforeFrame 2 ((operandSlot s 2 r).setWidth 32) s) f
  | .ret, s, u => u.mem = s.mem ∧ u.fsz = 0 ∧ u.ctgt = none ∧ (s.memSize ≤ 2 ^ 32 → u.sp = u.fp)
  | .tailcall, s, u => ∃ a, u = (s.afterFetch 1).setAddr .ip a

/-- A push that completed after a fetch. -/
theorem pushed_of_finish {pc0 : Addr} {t : ScalarType} {v : Word} {s u : State}
    (h : finish (push pc0 t v s) = .next u) : u = pushed t v s :=
  (push_eq_ok (finish_eq_next.mp h)).1

theorem executed_of_exec {i : Instr} {s u : State} (h : exec i s = .next u) : Executed i s u := by
  cases i with
  | hlt => cases h; rfl
  | movLitReg t lit d => cases h; rfl
  | movRegReg t r d => cases h; exact ⟨_, rfl⟩
  | movRegMem t r a =>
    have hwrite := finish_eq_next.mp h
    rcases memWrite_cases s.pc (s.afterFetch 7) a.toNat t.width ((s.afterFetch 7).get t r)
      with ⟨-, e⟩ | ⟨-, e⟩ <;> cases e.symm.trans hwrite
    exact ⟨_, rfl⟩
  | movMemReg t a d =>
    simp only [exec, execMovMemReg] at h
    split at h <;> cases h
    exact ⟨_, rfl⟩
  | addRegReg t x y => cases (exec_addRegReg t x y s).symm.trans h; rfl
  | jmpNotEq t lit a => cases (exec_jmpNotEq t lit a s).symm.trans h; rfl
  | pshLit t lit => exact pushed_of_finish h
  | pshReg t r => exact ⟨_, pushed_of_finish h⟩
  | pop t d =>
    simp only [exec, execPop] at h
    split at h
    · rename_i hpop
      obtain ⟨rfl, rfl, -⟩ := pop_eq_ok hpop
      cases h
      rw [popValue_afterFetch]
      rfl
    · cases h
  | calLit a => exact (callTo_eq_ok (finish_eq_next.mp h)).2
  | calReg r => exact (callTo_eq_ok (finish_eq_next.mp ((exec_calReg r s).symm.trans h))).2
  | ret =>
    have hpop : popState s.pc (beforeReturn s) = .ok u := finish_eq_next.mp h
    obtain ⟨hmem, hfsz, hctgt⟩ := popState_keeps hpop
    refine ⟨hmem, hfsz, hctgt, fun hz => ?_⟩
    obtain ⟨hframe, -⟩ := popState_eq_ok (s := beforeReturn s) hz hpop
    rw [State.sp, State.fp, State.addrOf, State.addrOf, hframe.sp, hframe.fp]
  | tailcall =>
    simp only [exec, execTailcall] at h
    split at h <;> cases h
    exact ⟨_, rfl⟩

/-! ## The program counter -/

/-- Settles O46: every other instruction leaves the `ip` of its fetch. -/
theorem onlyTransfersLeaveSequence : Obligations.OnlyTransfersLeaveSequence := by
  intro i s u h
  have hx := executed_of_exec h
  cases i with
  | hlt => cases hx; exact .inl (getReg_ip_afterFetch s 1)
  | movLitReg t lit d =>
    cases hx
    by_cases hd : d = .ip
    · simp [hd]
    · exact .inl (getReg_ip_setz_afterFetch s (3 + t.width) t lit hd)
  | movRegReg t r d =>
    obtain ⟨v, rfl⟩ := hx
    by_cases hd : d = .ip
    · simp [hd]
    · exact .inl (getReg_ip_setz_afterFetch s 4 t v hd)
  | movRegMem t r a => obtain ⟨m, rfl⟩ := hx; exact .inl (getReg_ip_afterFetch s 7)
  | movMemReg t a d =>
    obtain ⟨v, rfl⟩ := hx
    by_cases hd : d = .ip
    · simp [hd]
    · exact .inl (getReg_ip_setz_afterFetch s 7 t v hd)
  | addRegReg t x y => cases hx; exact .inl (afterAdd_frame t x y s).1
  | pshLit t lit => cases hx; exact .inl (pushed_afterFetch_frame s (2 + t.width) t lit).2.1
  | pshReg t r => obtain ⟨v, rfl⟩ := hx; exact .inl (pushed_afterFetch_frame s 3 t v).2.1
  | pop t d =>
    cases hx
    by_cases hd : d = .ip
    · simp [hd]
    · left
      rw [getReg_afterPop_ne t s (Ne.symm hd), if_neg (by decide), operandSlot, if_pos rfl]
      rfl
  | jmpNotEq t lit a => simp
  | calLit a => simp
  | calReg r => simp
  | ret => simp
  | tailcall => simp

/-! ## Memory -/

/-- Settles O47: every other instruction's next state has the memory it started from. -/
theorem onlyStoresPushesAndCallsWriteMemory : Obligations.OnlyStoresPushesAndCallsWriteMemory := by
  intro i s u h hmem
  have hx := executed_of_exec h
  cases i with
  | hlt | movLitReg | addRegReg | pop => cases hx; exact absurd rfl hmem
  | movRegReg | movMemReg | tailcall => obtain ⟨_, rfl⟩ := hx; exact absurd rfl hmem
  | jmpNotEq t lit a =>
    cases hx
    refine absurd ?_ hmem
    unfold afterJump
    split <;> rfl
  | ret => exact absurd hx.1 hmem
  | movRegMem | pshLit | pshReg | calLit | calReg => simp

/-! ## The hidden state -/

/-- Settles O48: every other instruction's next state has both fields as they were. -/
theorem onlyStackAndCallsWriteHiddenState : Obligations.OnlyStackAndCallsWriteHiddenState := by
  intro i s u h
  have hx := executed_of_exec h
  cases i with
  | hlt | movLitReg | addRegReg => cases hx; exact ⟨absurd rfl, absurd rfl⟩
  | movRegReg | movRegMem | movMemReg | tailcall =>
    obtain ⟨_, rfl⟩ := hx
    exact ⟨absurd rfl, absurd rfl⟩
  | jmpNotEq t lit a =>
    cases hx
    obtain ⟨-, -, hhidden, -⟩ := afterJump_frame t lit a s
    exact ⟨absurd hhidden.2, absurd hhidden.1⟩
  | pshLit t lit => cases hx; exact ⟨absurd rfl, fun _ => .inl ⟨t, lit, rfl, rfl⟩⟩
  | pshReg t r => obtain ⟨v, rfl⟩ := hx; exact ⟨absurd rfl, fun _ => .inr (.inl ⟨t, r, rfl, rfl⟩)⟩
  | pop t d => cases hx; exact ⟨absurd rfl, fun _ => .inr (.inr (.inl ⟨t, d, rfl, rfl⟩))⟩
  | calLit a =>
    obtain ⟨f, rfl, hf⟩ := hx
    exact ⟨fun _ => .inl ⟨a, rfl, hf.ctgt⟩, fun _ => .inr (.inr (.inr ⟨.inl ⟨a, rfl⟩, hf.fsz⟩))⟩
  | calReg r =>
    obtain ⟨f, rfl, hf⟩ := hx
    exact ⟨fun _ => .inr (.inl ⟨r, rfl, hf.ctgt⟩),
      fun _ => .inr (.inr (.inr ⟨.inr (.inl ⟨r, rfl⟩), hf.fsz⟩))⟩
  | ret =>
    obtain ⟨-, hfsz, hctgt, -⟩ := hx
    exact ⟨fun _ => .inr (.inr ⟨rfl, hctgt⟩),
      fun _ => .inr (.inr (.inr ⟨.inr (.inr rfl), hfsz⟩))⟩

/-! ## The frame chain -/

/-- R178 on 32-bit numbers, where the sum wraps by itself. -/
theorem frameChain_iff {s : State} : FrameChain s ↔ s.sp + s.fsz.setWidth 32 = s.fp := by
  rw [FrameChain, ← BitVec.toNat_inj, BitVec.toNat_add, BitVec.toNat_setWidth, Nat.add_mod_mod]

/-- What writes none of the three keeps the equation. -/
theorem frameChain_of_eq {s u : State} (h : FrameChain s) (hsp : u.getReg .sp = s.getReg .sp)
    (hfp : u.getReg .fp = s.getReg .fp) (hfsz : u.fsz = s.fsz) : FrameChain u := by
  simpa only [FrameChain, State.sp, State.fp, State.addrOf, hsp, hfp, hfsz] using h

/-- After a call and after RET, both pointers are at the boundary and nothing is counted. -/
theorem frameChain_of_empty {u : State} (hsp : u.sp = u.fp) (hfsz : u.fsz = 0) : FrameChain u := by
  rw [frameChain_iff, hsp, hfsz]
  exact BitVec.add_zero _

theorem frameChain_afterFetch {s : State} (h : FrameChain s) (n : Nat) :
    FrameChain (s.afterFetch n) :=
  frameChain_of_eq h (by simp) (by simp) rfl

theorem frameChain_setz {s : State} (h : FrameChain s) (t : ScalarType) {d : Reg} (v : Word)
    (hsp : d ≠ .sp) (hfp : d ≠ .fp) : FrameChain (s.setz t d v) :=
  frameChain_of_eq h (by simp [Ne.symm hsp]) (by simp [Ne.symm hfp]) rfl

theorem frameChain_setAddr_ip {s : State} (h : FrameChain s) (a : Addr) :
    FrameChain (s.setAddr .ip a) :=
  frameChain_of_eq h (by simp) (by simp) rfl

theorem setWidth_ofNat_width (t : ScalarType) :
    (BitVec.ofNat 64 t.width).setWidth 32 = BitVec.ofNat 32 t.width := by
  cases t <;> rfl

/-- R160: a push lowers `sp` by what it counts. -/
theorem frameChain_pushed {s : State} (h : FrameChain s) (t : ScalarType) (v : Word) :
    FrameChain (pushed t v s) := by
  rw [frameChain_iff] at *
  have hfp : (pushed t v s).fp = s.fp := by simp [State.fp]
  rw [hfp, sp_pushed, fsz_pushed, BitVec.setWidth_add _ _ (by omega), setWidth_ofNat_width, ← h]
  bv_omega

/-- R161: a pop raises `sp` by what it counts out. -/
theorem frameChain_popped {s : State} (h : FrameChain s) (t : ScalarType) :
    FrameChain (popped t s) := by
  rw [frameChain_iff] at *
  have hfp : (popped t s).fp = s.fp := by simp [State.fp]
  have hcount : s.fsz.setWidth 32 =
      (s.fsz - BitVec.ofNat 64 t.width).setWidth 32 + BitVec.ofNat 32 t.width := by
    rw [← setWidth_ofNat_width, ← BitVec.setWidth_add _ _ (by omega), BitVec.sub_add_cancel]
  rw [hfp, sp_popped, fsz_popped, ← h, hcount, BitVec.add_assoc, BitVec.add_comm (BitVec.ofNat _ _)]

theorem frameChain_setnz {s : State} (h : FrameChain s) (t : ScalarType) {d : Reg} (v : Word)
    (hsp : d ≠ .sp) (hfp : d ≠ .fp) : FrameChain (s.setnz t d v) :=
  frameChain_of_eq h (by simp [Ne.symm hsp]) (by simp [Ne.symm hfp]) rfl

theorem frameChain_of_framePushed {s f : State} (a : Addr) (h : FramePushed s f) :
    FrameChain (f.setAddr .ip a) := by
  refine frameChain_setAddr_ip (frameChain_of_empty ?_ h.fsz) a
  rw [State.sp, State.fp, State.addrOf, State.addrOf, h.sp, h.fp]

/-- Settles O44: what moves `sp` counts by as much, and a call and RET begin a new count. -/
theorem stepKeepsFrameChain : Obligations.StepKeepsFrameChain := by
  intro s u i hinv hrun hchain hdecode hdest hstep
  have hx := executed_of_exec ((stepRunsDecodedInstruction s i hrun hdecode).symm.trans hstep)
  have hfetch := fun n => frameChain_afterFetch hchain n
  cases i with
  | hlt => cases hx; exact hfetch 1
  | movLitReg t lit d =>
    cases hx
    obtain ⟨hsp, hfp⟩ := not_or.mp (of_decide_eq_false hdest)
    exact frameChain_setz (hfetch _) t lit hsp hfp
  | movRegReg t r d =>
    obtain ⟨v, rfl⟩ := hx
    obtain ⟨hsp, hfp⟩ := not_or.mp (of_decide_eq_false hdest)
    exact frameChain_setz (hfetch 4) t v hsp hfp
  | movMemReg t a d =>
    obtain ⟨v, rfl⟩ := hx
    obtain ⟨hsp, hfp⟩ := not_or.mp (of_decide_eq_false hdest)
    exact frameChain_setz (hfetch 7) t v hsp hfp
  | movRegMem t r a => obtain ⟨m, rfl⟩ := hx; exact hfetch 7
  | addRegReg t x y => cases hx; exact frameChain_setz (hfetch 4) t _ (by decide) (by decide)
  | jmpNotEq t lit a =>
    cases hx
    unfold afterJump
    split
    · exact frameChain_setAddr_ip (hfetch _) a
    · exact hfetch _
  | pshLit t lit => cases hx; exact frameChain_pushed (hfetch _) t lit
  | pshReg t r => obtain ⟨v, rfl⟩ := hx; exact frameChain_pushed (hfetch 3) t v
  | pop t d =>
    cases hx
    obtain ⟨hsp, hfp⟩ := not_or.mp (of_decide_eq_false hdest)
    exact frameChain_setnz (frameChain_popped (hfetch 3) t) t _ hsp hfp
  | calLit a => obtain ⟨f, rfl, hf⟩ := hx; exact frameChain_of_framePushed a hf
  | calReg r => obtain ⟨f, rfl, hf⟩ := hx; exact frameChain_of_framePushed _ hf
  | ret =>
    obtain ⟨-, hfsz, -, hsp⟩ := hx
    exact frameChain_of_empty (hsp (State.inv_iff.mp hinv).2.2.2) hfsz
  | tailcall => obtain ⟨a, rfl⟩ := hx; exact frameChain_setAddr_ip (hfetch 1) a

end Sys2Proof.Machine
end

section
/-! PROOFS. Memory read back at another width (R52, R58), and the host's operations between steps:
construction (R40, R220), the typed accessors (R27, R66) and the launch states they lead to
(R224). -/

namespace Sys2Proof.Machine

/-! ## A store read back at another width -/

/-- `m` bytes at offset `off` of the low `n` bytes of `v` are the low `m` bytes of `v` shifted right
by the bytes behind them. -/
theorem readBytes_writeBytes_slice {mem : Memory} (hwf : Memory.wf mem = true) (a v : Nat)
    {n off m : Nat} (h : off + m ≤ n) :
    Memory.readBytes (Memory.writeBytes mem a (beBytes n v)) (a + off) m =
      beBytes m (v / 256 ^ (n - off - m)) := by
  apply List.ext_getElem (by simp)
  intro k hk _
  have hk : k < m := by simpa using hk
  rw [Memory.getElem_readBytes _ _ _ _ hk, getElem_beBytes _ _ _ hk, Nat.add_assoc,
    Memory.read_writeBytes hwf _ _ _ (by simp; omega), getElem_beBytes _ _ _ (by omega),
    Nat.div_div_eq_div_mul, ← pow_add]
  congr 4
  omega

/-- Settles O52: the bytes read are those of the value shifted. -/
theorem mixedWidthAccessSeesBytes : Obligations.MixedWidthAccessSeesBytes := by
  intro s u addr n off m v hwf hstore h
  have hin : addr + n ≤ s.memSize := by
    by_contra hout
    rw [State.store_eq_none v (by omega)] at hstore
    cases hstore
  cases (State.store_eq_some v hin).symm.trans hstore
  rw [State.load_eq_some (by rw [State.setMem_memSize]; omega), State.setMem_mem,
    readBytes_writeBytes_slice hwf addr v.toNat h, beValue_beBytes]

/-! ## Construction and reset -/

/-- Settles O53, by evaluation. -/
theorem resetValues : Obligations.ResetValues :=
  ⟨rfl, rfl, rfl, by decide, by decide, fun _ => rfl⟩

/-- R178: a constructed machine has nothing counted and both pointers at the boundary. -/
theorem frameChain_construct (memSize : Nat) (mem : Memory) :
    FrameChain (State.construct memSize mem) :=
  frameChain_of_empty rfl rfl

theorem hostConstruct_ok {memSize : Nat} (memInit : Nat → Byte) (h8 : 8 ≤ memSize)
    (hmax : memSize ≤ 2 ^ 32) :
    hostConstruct memSize memInit = .ok (State.construct memSize (memoryOf memInit 0 memSize)) :=
  if_pos ⟨h8, hmax⟩

theorem inv_construct {memSize : Nat} (memInit : Nat → Byte) (h8 : 8 ≤ memSize)
    (hmax : memSize ≤ 2 ^ 32) :
    (State.construct memSize (memoryOf memInit 0 memSize)).inv = true :=
  State.inv_iff.mpr ⟨wfFrom_memoryOf memInit 0 memSize,
    within_memoryOf memInit 0 memSize memSize (by omega), h8, hmax⟩

/-- Settles O54: reset is the construction with unlisted bytes. -/
theorem resetMeetsInvariants : Obligations.ResetMeetsInvariants := by
  refine ⟨by decide, frameChain_construct _ _,
    .construct (memSize := Config.memSize) (memInit := fun _ => Config.unlistedByte) ?_⟩
  rw [hostConstruct_ok _ (by decide) (by decide), memoryOf_unlisted]
  rfl

/-- Settles O55: `State.construct` with the memory that lists the initial bytes. -/
theorem constructionHoldsItsParameters : Obligations.ConstructionHoldsItsParameters := by
  intro memSize memInit h8 hmax
  have hslot : (zextAddr (BitVec.ofNat 32 (memSize - 8))).toNat = memSize - 8 := by
    rw [zextAddr, BitVec.toNat_setWidth, BitVec.toNat_ofNat]
    omega
  refine ⟨_, hostConstruct_ok memInit h8 hmax, rfl,
    fun a ha => read_memoryOf memInit 0 memSize a (Nat.zero_le a) (by omega),
    inv_construct memInit h8 hmax, frameChain_construct _ _, fun r hr => ?_, fun r hr => ?_⟩ <;>
    simp only [List.mem_cons, List.not_mem_nil, or_false] at hr
  · rcases hr with rfl | rfl | rfl <;> exact hslot
  · rcases hr with rfl | rfl | rfl | rfl | rfl | rfl | rfl | rfl | rfl | rfl <;> rfl

/-! ## The host's register accessors -/

theorem hostSet_eq_ok {t : ScalarType} {name : String} {v : HostValue} {o : Nat} {s u : State}
    (h : hostSet t name v o s = .ok u) : ∃ r w, u = s.setReg r w := by
  unfold hostSet at h
  split at h
  · cases h
  · split at h <;> cases h
    exact ⟨_, _, rfl⟩

theorem hostZero_eq_ok {name : String} {s u : State} (h : hostZero name s = .ok u) :
    ∃ r w, u = s.setReg r w := by
  unfold hostZero at h
  split at h <;> cases h
  exact ⟨_, _, rfl⟩

theorem setReg_frame (s : State) (r : Reg) (w : Word) :
    KeepsRegs [r] s (s.setReg r w) ∧ KeepsMemory s (s.setReg r w) ∧ KeepsHidden s (s.setReg r w) ∧
      KeepsControl s (s.setReg r w) :=
  ⟨fun _ hq => State.getReg_setReg_ne s r _ w (by simpa using hq), fun _ => rfl, ⟨rfl, rfl⟩,
    ⟨rfl, rfl⟩⟩

/-- Settles O58: the name is looked up before the offset is checked. -/
theorem hostRegisterErrors : Obligations.HostRegisterErrors := by
  intro t name v o s
  constructor
  · intro hname
    have hnone := regOfName_eq_none hname
    simp [hostGet, hostSet, hostZero, hnone]
  · rintro r rfl hout
    have hrange : slotRange t o = false := decide_eq_false (by omega)
    simp [hostGet, hostSet, hrange]

/-! ## Launch states -/

/-- Settles O56, by induction on the host's calls: no accessor reaches the hidden state or the
status, and a store keeps the invariant. -/
theorem launchStatesAreClean : Obligations.LaunchStatesAreClean := by
  intro s h
  induction h with
  | construct h =>
    unfold hostConstruct at h
    split at h
    · rename_i hsize
      cases h
      exact ⟨rfl, rfl, rfl, inv_construct _ hsize.1 hsize.2⟩
    · cases h
  | store _ h ih =>
    obtain ⟨hstatus, hfsz, hctgt, hinv⟩ := ih
    obtain ⟨hcarries, hmem⟩ := hostStore_carries h
    refine ⟨hcarries.status.trans hstatus, ?_, ?_, hcarries.inv hinv⟩ <;> rw [hmem]
    · exact hfsz
    · exact hctgt
  | set _ h ih => obtain ⟨r, w, rfl⟩ := hostSet_eq_ok h; exact ih
  | zero _ h ih => obtain ⟨r, w, rfl⟩ := hostZero_eq_ok h; exact ih

/-! ## Values and patterns -/

theorem toNat_patternOf_integer (t : ScalarType) (z : Int) :
    ((patternOf t (.integer z)).toNat : Int) = z % 2 ^ (8 * t.width) := by
  have hpos : (0 : Int) < 2 ^ (8 * t.width) := by positivity
  have h0 := Int.emod_nonneg z hpos.ne'
  have hlt := Int.emod_lt_of_pos z hpos
  have h64 : (2 : Int) ^ (8 * t.width) ≤ 2 ^ 64 := by
    exact_mod_cast pow_8_mul_le (ScalarType.width_le t)
  simp only [patternOf, BitVec.toNat_ofNat]
  rw [Nat.mod_eq_of_lt (by omega), Int.toNat_of_nonneg h0]

/-- A pattern of a value fits the type. -/
theorem lowBytes_patternOf (t : ScalarType) (v : HostValue) :
    lowBytes t.width (patternOf t v) = patternOf t v := by
  cases v with
  | datum b => exact lowBytes_lowBytes _ _
  | integer z =>
    apply lowBytes_of_lt
    have hz := toNat_patternOf_integer t z
    have hlt := Int.emod_lt_of_pos z (show (0 : Int) < 2 ^ (8 * t.width) by positivity)
    rw [← hz] at hlt
    exact_mod_cast hlt

/-- R8, R27: the value of a value's pattern. -/
theorem valueOf_patternOf {t : ScalarType} {v : HostValue} (h : v.ofType t = true) :
    valueOf t (patternOf t v) = v := by
  cases v with
  | datum b =>
    cases hk : t.kind <;> simp only [HostValue.ofType, hk, Bool.false_eq_true] at h
    simp only [valueOf, hk, patternOf, lowBytes_of_fits h]
  | integer z =>
    have hz := toNat_patternOf_integer t z
    have hhalf : (2 : Int) ^ (8 * t.width) = 2 * 2 ^ (8 * t.width - 1) := by
      rw [← pow_succ', Nat.sub_add_cancel (by have := ScalarType.width_pos t; omega)]
    cases hk : t.kind <;>
      simp only [HostValue.ofType, hk, Bool.false_eq_true, decide_eq_true_eq] at h <;>
      simp only [valueOf, hk, HostValue.integer.injEq]
    · rw [hz, Int.emod_eq_of_lt h.1 h.2]
    · have hcast : (patternOf t (.integer z)).toNat < 2 ^ (8 * t.width - 1) ↔
          ((patternOf t (.integer z)).toNat : Int) < 2 ^ (8 * t.width - 1) := by
        exact_mod_cast Iff.rfl
      rw [if_congr hcast rfl rfl, hz]
      rcases lt_or_ge z 0 with hneg | hneg
      · rw [← Int.add_emod_right, Int.emod_eq_of_lt (by omega) (by omega), if_neg (by omega)]
        omega
      · rw [Int.emod_eq_of_lt hneg (by omega), if_pos h.2]

/-! ## Bytes of a slot -/

theorem toNat_sliceBytes (w : Word) (off n : Nat) :
    (sliceBytes w off n).toNat = w.toNat / 2 ^ (8 * off) % 2 ^ (8 * n) := by
  rw [sliceBytes, toNat_lowBytes, BitVec.toNat_ushiftRight, Nat.shiftRight_eq_div_pow]

/-- R22, R27: the replaced slot as a number: the bytes below, the value, the bytes above. -/
theorem toNat_insertBytes {o n : Nat} (h : o + n ≤ 8) (w v : Word) :
    (insertBytes w o n v).toNat =
      w.toNat % 2 ^ (8 * o) + 2 ^ (8 * o) *
        (v.toNat % 2 ^ (8 * n) + 2 ^ (8 * n) * (w.toNat / 2 ^ (8 * (o + n)))) := by
  have hsplit : 2 ^ (8 * (o + n)) = 2 ^ (8 * o) * 2 ^ (8 * n) := by rw [Nat.mul_add, pow_add]
  have htop : 2 ^ 64 = 2 ^ (8 * o) * (2 ^ (8 * n) * 2 ^ (64 - 8 * (o + n))) := by
    rw [← pow_add, ← pow_add]
    congr 1
    omega
  have hlow : w.toNat % 2 ^ (8 * o) < 2 ^ (8 * o) := Nat.mod_lt _ (by positivity)
  have hmid : v.toNat % 2 ^ (8 * n) < 2 ^ (8 * n) := Nat.mod_lt _ (by positivity)
  have hhigh : w.toNat / 2 ^ (8 * (o + n)) < 2 ^ (64 - 8 * (o + n)) := by
    apply Nat.div_lt_of_lt_mul
    rw [← pow_add, show 8 * (o + n) + (64 - 8 * (o + n)) = 64 by omega]
    exact w.isLt
  rw [insertBytes, BitVec.toNat_ofNat, hsplit] at *
  generalize 2 ^ (8 * o) = A at *
  generalize 2 ^ (8 * n) = B at *
  generalize w.toNat / (A * B) = hi at *
  generalize w.toNat % A = lo at *
  generalize v.toNat % B = mid at *
  have hmidhi : mid + B * hi < B * 2 ^ (64 - 8 * (o + n)) := by nlinarith
  have hall : lo + A * (mid + B * hi) < 2 ^ 64 := by
    rw [htop]
    nlinarith
  rw [show lo + mid * A + hi * (A * B) = lo + A * (mid + B * hi) by ring, Nat.mod_eq_of_lt hall]

/-- What was written reads back. -/
theorem sliceBytes_insertBytes {o n : Nat} (h : o + n ≤ 8) (w v : Word) :
    sliceBytes (insertBytes w o n v) o n = lowBytes n v := by
  apply BitVec.eq_of_toNat_eq
  rw [toNat_sliceBytes, toNat_insertBytes h, toNat_lowBytes,
    Nat.add_mul_div_left _ _ (by positivity), Nat.div_eq_of_lt (Nat.mod_lt _ (by positivity)),
    Nat.zero_add, Nat.add_mul_mod_self_left,
    Nat.mod_mod]

/-- A byte below or above what was written is as before. -/
theorem sliceBytes_insertBytes_outside {o n k : Nat} (h : o + n ≤ 8) (w v : Word)
    (hk : k < o ∨ o + n ≤ k) :
    sliceBytes (insertBytes w o n v) k 1 = sliceBytes w k 1 := by
  apply BitVec.eq_of_toNat_eq
  rw [toNat_sliceBytes, toNat_sliceBytes]
  rcases hk with hk | hk
  · have hbelow : ∀ m,
        m / 2 ^ (8 * k) % 2 ^ (8 * 1) = m % 2 ^ (8 * o) / 2 ^ (8 * k) % 2 ^ (8 * 1) := by
      intro m
      have hsplit : 2 ^ (8 * o) = 2 ^ (8 * k) * (2 ^ (8 * 1) * 2 ^ (8 * (o - k - 1))) := by
        rw [← pow_add, ← pow_add]
        congr 1
        omega
      rw [hsplit, Nat.mod_mul_right_div_self, Nat.mod_mul_right_mod]
    rw [hbelow, hbelow w.toNat, toNat_insertBytes h, Nat.add_mul_mod_self_left, Nat.mod_mod]
  · have habove : ∀ m, m / 2 ^ (8 * k) = m / 2 ^ (8 * (o + n)) / 2 ^ (8 * (k - (o + n))) := by
      intro m
      rw [Nat.div_div_eq_div_mul, ← pow_add]
      congr 2
      omega
    have htop : (insertBytes w o n v).toNat / 2 ^ (8 * (o + n)) = w.toNat / 2 ^ (8 * (o + n)) := by
      rw [toNat_insertBytes h, Nat.mul_add 8 o n, pow_add, ← Nat.div_div_eq_div_mul,
        Nat.add_mul_div_left _ _ (by positivity), Nat.div_eq_of_lt (Nat.mod_lt _ (by positivity)),
        Nat.zero_add, Nat.add_mul_div_left _ _ (by positivity),
        Nat.div_eq_of_lt (Nat.mod_lt _ (by positivity)), Nat.zero_add]
    rw [habove, htop, ← habove]

/-! ## What the host writes reads back -/

/-- Settles O57: the bytes set are the value's pattern, the other bytes of the slot stay. -/
theorem hostSetReadsBackAndZeroClears : Obligations.HostSetReadsBackAndZeroClears := by
  constructor
  · intro t r v o s hv ho
    have hrange : slotRange t o = true := decide_eq_true ho
    refine ⟨s.setReg r (insertBytes (s.getReg r) o t.width (patternOf t v)), ?_, ?_,
      fun k _ hk => ?_, setReg_frame s r _⟩
    · simp [hostSet, hrange]
    · simp [hostGet, hrange, sliceBytes_insertBytes ho, lowBytes_patternOf, valueOf_patternOf hv]
    · rw [State.getReg_setReg_self]
      exact sliceBytes_insertBytes_outside ho _ _ hk
  · intro r s
    exact ⟨s.setReg r 0, by simp [hostZero], State.getReg_setReg_self s r 0, setReg_frame s r 0⟩

/-- Settles O59: the bytes loaded are those of the pattern stored. -/
theorem hostStoreThenLoad : Obligations.HostStoreThenLoad := by
  intro t addr v s hwf hv
  constructor
  · intro hin
    obtain ⟨hregs, hhidden, hcontrol⟩ := setMem_keeps_rest s
      (Memory.writeBytes s.mem addr (beBytes t.width (patternOf t v).toNat))
    refine ⟨_, by simp only [hostStore, State.store_eq_some _ hin], ?_,
      keepsMemoryOutside_of_writeBytes rfl, hregs, hhidden, hcontrol⟩
    rw [hostLoad, State.load_eq_some (by rwa [State.setMem_memSize]), State.setMem_mem,
      beValue_read_after_write hwf]
    change Except.ok (valueOf t (lowBytes t.width (patternOf t v))) = _
    rw [lowBytes_patternOf, valueOf_patternOf hv]
  · intro hout
    simp only [hostStore, hostLoad, State.store_eq_none _ hout, State.load_eq_none hout, and_self]

end Sys2Proof.Machine
end
